-- ==== Sys2Proof/Word.lean ====
section
/-! DEFINITION. The widths of the FRX engine's values (00_scope.md rules R8 and R9). -/

namespace Sys2Proof

/-- A key: 64 bits, the unit of storage of a bank (R8 KEY_W, R20). -/
abbrev Key := BitVec 64

/-- The value a host transaction carries: 64 bits (R9 REG_W, R60). -/
abbrev Data := BitVec 64

/-- A key index, a key count, or a COUNT entry: 32 bits (R9 IDX_W). -/
abbrev Idx := BitVec 32

/-- A host-port register address: 8 bits (R9 RADDR_W). -/
abbrev RegAddr := BitVec 8

/-- A digit of a key, and the index of a COUNT entry: 8 bits (R8 DIGIT_W). -/
abbrev Digit := BitVec 8

/-- A command word: 32 bits (R9 CMD_W, R90). -/
abbrev CmdWord := BitVec 32

/-- A host transaction as rule R96 encodes it: bit 72 W, bits 71..64 ADDR, bits 63..0 DATA. -/
abbrev TxnWord := BitVec 73

end Sys2Proof
end

