-- ==== Sys2Proof/Syntax.lean ====
section
/-! DEFINITION. The instructions of the FRX engine: the twelve commands (30_encoding.md rule R94) and the
two host transactions (rule R96, 00_scope.md rule R16), one constructor per row of the opcode table. -/

namespace Sys2Proof

/-- One of the two key banks (R20): BANK[0] is the sequence, BANK[1] the scratch buffer (R21). -/
inductive BankId where
  | b0
  | b1
  deriving DecidableEq, Repr

/-- The instructions (R16). An operand has exactly the width of its field (R91, R92, R96), so every term
is an instruction that has an encoding. -/
inductive Instr where
  /-- NOP, opcode 0x00 (R126). -/
  | nop
  /-- CLR, opcode 0x01: zero the bucket table (R140). -/
  | clr
  /-- HIST k, bS, opcode 0x02: add the histogram of digit `k` of bank `sb` to COUNT (R143). -/
  | hist (k : BitVec 3) (sb : BankId)
  /-- OFFS, opcode 0x03: exclusive prefix sum of COUNT in place (R146). -/
  | offs
  /-- SCAT k, bS, bD, opcode 0x04: scatter bank `sb` into bank `db` by digit `k` (R149). -/
  | scat (k : BitVec 3) (sb db : BankId)
  /-- PASS k, bS, bD, opcode 0x05: one whole counting pass (R152). -/
  | pass (k : BitVec 3) (sb db : BankId)
  /-- WSORT, opcode 0x06: eight ping-pong passes (R170). -/
  | wsort
  /-- REV bT, opcode 0x07: reverse FROM..TO of bank `b` (R180). -/
  | rev (b : BankId)
  /-- ROT bT, opcode 0x08: rotate FROM..MID..TO of bank `b` (R183). -/
  | rot (b : BankId)
  /-- SIGNB bT, opcode 0x09: index of the first key of bank `b` with top bit 1 (R186). -/
  | signb (b : BankId)
  /-- SORTI, opcode 0x0A: signed sort of bank 0 (R200). -/
  | sorti
  /-- SORTF, opcode 0x0B: float sort of bank 0 (R204). -/
  | sortf
  /-- HWR addr, data: the host writes `data` to register `addr` (R60). -/
  | hwr (addr : RegAddr) (data : Data)
  /-- HRD addr: the host reads register `addr` (R60). -/
  | hrd (addr : RegAddr)
  deriving DecidableEq, Repr

/-- Whether the instruction is a command of rule R94, executed by the engine's completion step; the other
instructions are host transactions. -/
def Instr.isCommand : Instr → Bool
  | .nop => true
  | .clr => true
  | .hist _ _ => true
  | .offs => true
  | .scat _ _ _ => true
  | .pass _ _ _ => true
  | .wsort => true
  | .rev _ => true
  | .rot _ => true
  | .signb _ => true
  | .sorti => true
  | .sortf => true
  | .hwr _ _ => false
  | .hrd _ => false

end Sys2Proof
end

