-- ==== Sys2Proof/WellFormed.lean ====
section
/-! DEFINITION. Which values written to CMD are legal commands, stated from rule R95's four kinds of illegal
word. The decoder (Decode.lean) is written from the other description the spec gives, the mask and match
table of rules R94 and R97; that the two agree is a statement, not a definition. A term of `Instr` needs no
check of its own: its operands have the width of their fields. -/

namespace Sys2Proof

/-- Bits [63:32] of a written CMD value are zero (R93, the fourth kind of R95). -/
def upperWordZero (v : Data) : Bool := v.extractLsb' 32 32 == 0#32

/-- The opcode is one of 0x00 to 0x0B (R94, the first kind of R95). -/
def opcodeDefined (v : Data) : Bool := (v.extractLsb' 0 8).toNat ≤ 0x0B

/-- Bit 11 and bits [31:14] are zero (R91, the second kind of R95). -/
def reservedBitsZero (v : Data) : Bool := v.extractLsb' 11 1 == 0#1 && v.extractLsb' 14 18 == 0#18

/-- The opcodes whose K field is an operand (R91: HIST, SCAT, PASS). -/
def usesK (opcode : BitVec 8) : Bool := opcode == 0x02#8 || opcode == 0x04#8 || opcode == 0x05#8

/-- The opcodes whose SB field is an operand (R91: HIST, SCAT, PASS; REV, ROT, SIGNB). -/
def usesSB (opcode : BitVec 8) : Bool :=
  usesK opcode || opcode == 0x07#8 || opcode == 0x08#8 || opcode == 0x09#8

/-- The opcodes whose DB field is an operand (R91: SCAT, PASS). -/
def usesDB (opcode : BitVec 8) : Bool := opcode == 0x04#8 || opcode == 0x05#8

/-- Each of the fields K, SB and DB that the opcode does not use is zero (the third kind of R95). -/
def unusedFieldsZero (v : Data) : Bool :=
  (usesK (v.extractLsb' 0 8) || v.extractLsb' 8 3 == 0#3) &&
  (usesSB (v.extractLsb' 0 8) || v.extractLsb' 12 1 == 0#1) &&
  (usesDB (v.extractLsb' 0 8) || v.extractLsb' 13 1 == 0#1)

/-- A written CMD value is a legal command: none of rule R95's four kinds of illegal word. -/
def legalCommand (v : Data) : Bool :=
  upperWordZero v && opcodeDefined v && reservedBitsZero v && unusedFieldsZero v

end Sys2Proof
end

