-- ==== Sys2Proof/Decode.lean ====
section
/-! DEFINITION. The decoder of CMD values (30_encoding.md rules R91 to R97) and of host transactions (R96),
and after it the encoder (R96, R99). -/

namespace Sys2Proof

/-- Why a CMD value is no command. All four are the one outcome ILLEGAL of rule R97; the names are the
kinds of rule R95 (DESIGN CHOICE, notes/assumptions/12.md). -/
inductive DecodeError where
  /-- Bits [63:32] of the written value are not zero. -/
  | upperWord
  /-- The opcode is one of 0x0C to 0xFF. -/
  | undefinedOpcode
  /-- Bit 11 or one of bits [31:14] is set. -/
  | reservedBits
  /-- A field that the opcode does not use is not zero. -/
  | unusedField
  deriving DecidableEq, Repr

/-- The bank a bank field names (R92): 0 selects BANK[0], 1 selects BANK[1]. -/
def BankId.ofBit (bit : BitVec 1) : BankId := if bit = 1#1 then .b1 else .b0

/-- The bank number as a field or register holds it (R92). -/
def BankId.toBit : BankId → BitVec 1
  | .b0 => 0#1
  | .b1 => 1#1

/-- The other bank. -/
def BankId.other : BankId → BankId
  | .b0 => .b1
  | .b1 => .b0

/-- A row of rule R94's opcode map. -/
structure Row where
  pattern : CmdWord
  mask : CmdWord
  build : BitVec 3 → BankId → BankId → Instr

/-- A command word selects a row when its bits under the mask are the pattern (R94). -/
def Row.selects (r : Row) (cw : CmdWord) : Bool := cw &&& r.mask == r.pattern

/-- Rule R94's opcode map, row by row. -/
def opcodeMap : List Row :=
  [⟨0x00000000#32, 0xFFFFFFFF#32, fun _ _ _ => .nop⟩,
   ⟨0x00000001#32, 0xFFFFFFFF#32, fun _ _ _ => .clr⟩,
   ⟨0x00000002#32, 0xFFFFE8FF#32, fun k sb _ => .hist k sb⟩,
   ⟨0x00000003#32, 0xFFFFFFFF#32, fun _ _ _ => .offs⟩,
   ⟨0x00000004#32, 0xFFFFC8FF#32, fun k sb db => .scat k sb db⟩,
   ⟨0x00000005#32, 0xFFFFC8FF#32, fun k sb db => .pass k sb db⟩,
   ⟨0x00000006#32, 0xFFFFFFFF#32, fun _ _ _ => .wsort⟩,
   ⟨0x00000007#32, 0xFFFFEFFF#32, fun _ sb _ => .rev sb⟩,
   ⟨0x00000008#32, 0xFFFFEFFF#32, fun _ sb _ => .rot sb⟩,
   ⟨0x00000009#32, 0xFFFFEFFF#32, fun _ sb _ => .signb sb⟩,
   ⟨0x0000000A#32, 0xFFFFFFFF#32, fun _ _ _ => .sorti⟩,
   ⟨0x0000000B#32, 0xFFFFFFFF#32, fun _ _ _ => .sortf⟩]

/-- The name of the reason a command word selects no row (R95). -/
def illegalReason (cw : CmdWord) : DecodeError :=
  if 0x0B < (cw.extractLsb' 0 8).toNat then .undefinedOpcode
  else if cw.extractLsb' 11 1 ≠ 0#1 ∨ cw.extractLsb' 14 18 ≠ 0#18 then .reservedBits
  else .unusedField

/-- The command a row builds from a command word's fields K, SB and DB (R91, R97). -/
def Row.read (r : Row) (cw : CmdWord) : Instr :=
  r.build (cw.extractLsb' 8 3) (.ofBit (cw.extractLsb' 12 1)) (.ofBit (cw.extractLsb' 13 1))

/-- Rule R97's decode function, total on every 64-bit value written to CMD. -/
def decodeCommand (v : Data) : Except DecodeError Instr :=
  if v.extractLsb' 32 32 ≠ 0#32 then .error .upperWord
  else
    match opcodeMap.find? (·.selects (v.extractLsb' 0 32)) with
    | some r => .ok (r.read (v.extractLsb' 0 32))
    | none => .error (illegalReason (v.extractLsb' 0 32))

/-- The host transaction that 73 bits encode (R96). Every word is one: a read ignores its DATA bits. -/
def decodeTransaction (w : TxnWord) : Instr :=
  if w.extractLsb' 72 1 = 1#1 then .hwr (w.extractLsb' 64 8) (w.extractLsb' 0 64)
  else .hrd (w.extractLsb' 64 8)

/-- The two encoded forms of rule R90: a value for CMD, and a host transaction. -/
inductive Encoded where
  | command (v : Data)
  | transaction (w : TxnWord)
  deriving DecidableEq, Repr

/-- The instruction an encoded form is, or why it is none. -/
def decode : Encoded → Except DecodeError Instr
  | .command v => decodeCommand v
  | .transaction w => .ok (decodeTransaction w)

/-- The instruction the decoder reads from `nbits` bits of an opcode-table row: a command is 32 bits carried
by a CMD value of 64 (R90, R93), a host transaction 73 (R96), which is more than 64 however it is rounded
to bytes. A number with more bits than the form is none (DESIGN CHOICE, notes/assumptions/13.md). -/
def decodeTableWord (nbits w : Nat) : Option Instr :=
  if nbits ≤ 64 then
    if w < 2 ^ 64 then (decodeCommand (BitVec.ofNat 64 w)).toOption else none
  else
    if w < 2 ^ 73 then some (decodeTransaction (BitVec.ofNat 73 w)) else none

/-! The encoder. -/

/-- The CMD value of a command: `OPC | (k << 8) | (S << 12) | (D << 13)` (R99), upper word zero (R93). -/
def commandValue (opcode : BitVec 8) (k : BitVec 3) (sb db : BankId) : Data :=
  opcode.setWidth 64 ||| (k.setWidth 64 <<< 8) ||| (sb.toBit.setWidth 64 <<< 12) |||
    (db.toBit.setWidth 64 <<< 13)

/-- The encoded form of an instruction (R94, R96). A field that a row marks "0" is zero; the ignored DATA
bits of a read are written as zero, as 95_test_vectors.md lists them (DESIGN CHOICE, notes/assumptions/13.md). -/
def encode : Instr → Encoded
  | .nop => .command (commandValue 0x00#8 0#3 .b0 .b0)
  | .clr => .command (commandValue 0x01#8 0#3 .b0 .b0)
  | .hist k sb => .command (commandValue 0x02#8 k sb .b0)
  | .offs => .command (commandValue 0x03#8 0#3 .b0 .b0)
  | .scat k sb db => .command (commandValue 0x04#8 k sb db)
  | .pass k sb db => .command (commandValue 0x05#8 k sb db)
  | .wsort => .command (commandValue 0x06#8 0#3 .b0 .b0)
  | .rev b => .command (commandValue 0x07#8 0#3 b .b0)
  | .rot b => .command (commandValue 0x08#8 0#3 b .b0)
  | .signb b => .command (commandValue 0x09#8 0#3 b .b0)
  | .sorti => .command (commandValue 0x0A#8 0#3 .b0 .b0)
  | .sortf => .command (commandValue 0x0B#8 0#3 .b0 .b0)
  | .hwr addr data => .transaction (1#1 ++ addr ++ data)
  | .hrd addr => .transaction (0#1 ++ addr ++ 0#64)

end Sys2Proof
end

