-- ==== Sys2Proof/Config.lean ====
section
/-! DEFINITION. What an implementation of the FRX engine fixes: the capacity N_MAX. -/

namespace Sys2Proof

/-- The capacity the reset state reports. DESIGN CHOICE (notes/assumptions/1.md): N_MAX is an open
parameter (R9, D3, U9), held in `State.nMax`, so that every meaning takes it as an argument and every
statement over all states is a statement for every N_MAX. Only `State.reset`, which must be one state,
needs a number: the one 95_test_vectors.md takes. No statement rests on it. -/
def Config.nMax : Idx := 1024#32

end Sys2Proof
end

