-- ==== Sys2Proof/Machine/State.lean ====
section
/-! DEFINITION. The state of the FRX engine (10_state.md) as plain data, the reasons a step can stop, and the
state after power-on reset (70_reset_and_hazards.md rule R250). -/

namespace Sys2Proof.Machine

/-- A key bank (R20): its written words as (index, key) pairs, indices strictly rising. An index that is not
listed is UNWRITTEN (R22), so a write never removes an entry. DESIGN CHOICE (notes/assumptions/14.md). -/
abbrev Bank := List (Nat × Key)

/-- The bucket table COUNT (R23): 256 entries of 32 bits, `none` while UNWRITTEN (R22). -/
abbrev Counts := Vector (Option Idx) 256

/-- The engine's storage: the key space and the bucket space of rule R62. -/
structure Memory where
  bank0 : Bank
  bank1 : Bank
  count : Counts
  deriving DecidableEq, Repr

/-- The error codes of rule R220; the values 6 to 15 of STATUS.ERR are never produced (R29, U12). -/
inductive ErrCode where
  | none
  | illegalCmd
  | capacity
  | range
  | bankConflict
  | scatterBounds
  deriving DecidableEq, Repr

/-- The stored fields of STATUS (R29). IRQ is a mirror of DONE and CTRL.IE and has no storage; the reserved
bits read 0. DEDUCED (notes/assumptions/9.md). -/
structure Status where
  busy : Bool
  done : Bool
  ovr  : Bool
  kerr : Bool
  err  : ErrCode
  deriving DecidableEq, Repr

/-- Which event comes next: a transaction of the host, the engine's `complete` step (R15), or the reset
input (R250). -/
inductive Turn where
  | host
  | engine
  | reset
  deriving DecidableEq, Repr

/-- Why a step stops with a fault. Both are the faults rule R22 asks of a model for a read of an UNWRITTEN
word, whose value no source fixes: safe, since a run that reads such a word has no proof
(notes/assumptions/4.md). -/
inductive Fault where
  /-- Key word `i` of bank `b` is read while UNWRITTEN: by the host through KDATA (R66), or by HIST, SCAT,
  PASS, WSORT, REV, ROT, SIGNB, SORTI or SORTF. Safe. -/
  | unwrittenKey (b : BankId) (i : Nat)
  /-- COUNT entry `d` is read while UNWRITTEN: by the host through CDATA (R68), or by HIST, OFFS or SCAT.
  Safe. -/
  | unwrittenCount (d : Digit)
  deriving DecidableEq, Repr

/-- Why a step is refused. -/
inductive Refusal where
  /-- The instruction has no meaning in this model: raised by the arm of `exec` that names it, and by nothing
  else. Safe. No arm raises it now. -/
  | notModelled (mnemonic : String)
  deriving DecidableEq, Repr

/-- The state of the block (R20 to R44), and at the end the host's side of the port: the transactions the
host will make and the order of events are inputs of the block (R15, R75), held here so that a step is a
function of the state. -/
structure State where
  /-- N_MAX, the capacity of each bank and the field CAPS.NMAX (R9, R27). Nothing changes it. -/
  nMax : Idx
  /-- CTRL.IE (R28); CTRL.SRST has no storage. -/
  ie : Bool
  /-- STATUS (R29). -/
  status : Status
  /-- LASTCMD, the value of the last accepted issue and the latch of the command being executed (R30, R42). -/
  lastCmd : Data
  /-- N, the key count (R31). -/
  n : Idx
  /-- FROM, the first index of a range (R32). -/
  fromReg : Idx
  /-- MID, the boundary between the two ranges of ROT (R33). -/
  mid : Idx
  /-- TO, the exclusive end index of a range (R34). -/
  toReg : Idx
  /-- RESULT, the sign boundary (R35). -/
  result : Idx
  /-- KBANK, the bank KDATA accesses (R36). -/
  kbank : BankId
  /-- KADDR, the key index KDATA accesses (R37). -/
  kaddr : Idx
  /-- CADDR, the COUNT index CDATA accesses (R39). -/
  caddr : Digit
  /-- BANK[0], BANK[1] and COUNT (R20, R23). -/
  mem : Memory
  /-- The 64 bits the host port returned for the last read (R60). DESIGN CHOICE (notes/assumptions/5.md): the
  port's value is held here; it is 0 before the first read. -/
  readData : Data
  /-- The model's own: the host's transactions still to come, in its program order (R60, R96). DESIGN CHOICE
  (notes/assumptions/2.md). -/
  queue : List TxnWord
  /-- The model's own: whose turn comes next, in order (R15, R75); see `State.nextTurn` for an empty list.
  DESIGN CHOICE (notes/assumptions/2.md). -/
  turns : List Turn
  deriving DecidableEq, Repr

/-- A STATUS register of zero: idle, DONE = 0, ERR = 0 (R44). -/
def Status.zero : Status :=
  { busy := false, done := false, ovr := false, kerr := false, err := .none }

/-- Storage in which every key word and every COUNT entry is UNWRITTEN (R22, R250). -/
def Memory.unwritten : Memory :=
  { bank0 := [], bank1 := [], count := Vector.replicate 256 none }

/-- The state after power-on reset of a block with capacity `nMax` (R44, R250): every register 0, everything
UNWRITTEN, no command pending, no host transaction made yet. -/
def State.powerOn (nMax : Idx) : State :=
  { nMax := nMax
    ie := false
    status := .zero
    lastCmd := 0#64
    n := 0#32
    fromReg := 0#32
    mid := 0#32
    toReg := 0#32
    result := 0#32
    kbank := .b0
    kaddr := 0#32
    caddr := 0#8
    mem := .unwritten
    readData := 0#64
    queue := []
    turns := [] }

/-- The machine right after reset (R44, R250, R251), with the capacity of Config.lean. -/
def State.reset : State := State.powerOn Config.nMax

end Sys2Proof.Machine
end

