-- ==== Sys2Proof/Machine/Operands.lean ====
section
/-! DEFINITION. Operand forms: digits and top bits of keys (00_scope.md rules R8, R11), the register map
(10_state.md rule R24), the width rule (R25) and the words that CAPS and CTRL read as (R27, R28). -/

namespace Sys2Proof.Machine

/-- `digit(key, k) = key[8k+7:8k]` (R11, R63, R92). -/
def digit (k : BitVec 3) (key : Key) : Digit := key.extractLsb' (8 * k.toNat) 8

/-- `top(key) = key[63]`, the sign bit (R8, R11, C4). -/
def top (key : Key) : Bool := key.getLsbD 63

/-- The digit index of pass `j` (R170: `k = j`, j in [0, 8)). -/
def passDigit (j : Nat) : BitVec 3 := BitVec.ofNat 3 j

/-- The registers of rule R24's map. -/
inductive Reg where
  | caps
  | ctrl
  | status
  | cmd
  | n
  | fromReg
  | mid
  | toReg
  | result
  | kbank
  | kaddr
  | kdata
  | caddr
  | cdata
  | reserved
  deriving DecidableEq, Repr

/-- Rule R24's register map; the addresses 0x0E to 0xFF are reserved (R26). -/
def regAt (addr : RegAddr) : Reg :=
  match addr.toNat with
  | 0x00 => .caps
  | 0x01 => .ctrl
  | 0x02 => .status
  | 0x03 => .cmd
  | 0x04 => .n
  | 0x05 => .fromReg
  | 0x06 => .mid
  | 0x07 => .toReg
  | 0x08 => .result
  | 0x09 => .kbank
  | 0x0A => .kaddr
  | 0x0B => .kdata
  | 0x0C => .caddr
  | 0x0D => .cdata
  | _ => .reserved

/-- What a write of `data` stores in a register of 32 bits: `data[31:0]` (R25). -/
def low32 (data : Data) : Idx := data.extractLsb' 0 32

/-- What a write of `data` stores in a register of 8 bits: `data[7:0]` (R25). -/
def low8 (data : Data) : Digit := data.extractLsb' 0 8

/-- What a write of `data` stores in KBANK: `data[0]` (R25, R36). -/
def lowBank (data : Data) : BankId := .ofBit (data.extractLsb' 0 1)

/-- A register's value zero-extended to the 64 bits a read returns (R25). -/
def zext {w : Nat} (v : BitVec w) : Data := v.setWidth 64

/-- CAPS = {0x01, 0x40, 0x08, 0x08, N_MAX[31:0]} (R27). -/
def capsWord (nMax : Idx) : Data := 0x01#8 ++ 0x40#8 ++ 0x08#8 ++ 0x08#8 ++ nMax

/-- What CTRL reads as: IE in bit 0; SRST and the reserved bits read 0 (R28). -/
def ctrlWord (ie : Bool) : Data := zext (BitVec.ofBool ie)

/-- IE as a write to CTRL gives it, bit 0 (R28). -/
def ctrlIe (data : Data) : Bool := data.getLsbD 0

/-- SRST as a write to CTRL gives it, bit 1 (R28). -/
def ctrlSrst (data : Data) : Bool := data.getLsbD 1

end Sys2Proof.Machine
end

