-- ==== Sys2Proof/Machine/Flags.lean ====
section
/-! DEFINITION. STATUS and the interrupt: what sets and clears each bit (10_state.md rules R29 and R41,
40_command_lifecycle.md rules R120 and R124, 60_exceptions.md rule R220). -/

namespace Sys2Proof.Machine

/-- The number of an error code in STATUS.ERR (R220). -/
def ErrCode.toBits : ErrCode → BitVec 4
  | .none => 0#4
  | .illegalCmd => 1#4
  | .capacity => 2#4
  | .range => 3#4
  | .bankConflict => 4#4
  | .scatterBounds => 5#4

/-- The interrupt output, IRQ = STATUS.DONE AND CTRL.IE (R41, R228). -/
def irqOf (done ie : Bool) : Bool := done && ie

/-- What STATUS reads as: ERR in [11:8], IRQ, KERR, OVR, DONE, BUSY in [4:0], the rest 0 (R29). -/
def Status.word (st : Status) (ie : Bool) : Data :=
  zext (st.err.toBits ++ 0#3 ++ BitVec.ofBool (irqOf st.done ie) ++ BitVec.ofBool st.kerr ++
    BitVec.ofBool st.ovr ++ BitVec.ofBool st.done ++ BitVec.ofBool st.busy)

/-- STATUS after an accepted issue (R120): BUSY set, DONE and ERR cleared, OVR and KERR kept. -/
def Status.issued (st : Status) : Status := { st with busy := true, done := false, err := .none }

/-- STATUS after `finish(code)` (R124): ERR is the code, BUSY cleared, DONE set. -/
def Status.finished (st : Status) (code : ErrCode) : Status :=
  { st with busy := false, done := true, err := code }

/-- STATUS after a host write (R29): each of DONE, OVR and KERR is cleared where the written bit is 1; the
other written bits are ignored. -/
def Status.acknowledged (st : Status) (data : Data) : Status :=
  { st with
    done := st.done && !data.getLsbD 1
    ovr := st.ovr && !data.getLsbD 2
    kerr := st.kerr && !data.getLsbD 3 }

/-- STATUS after a refused access (R64): OVR set. -/
def Status.refusing (st : Status) : Status := { st with ovr := true }

/-- STATUS after a KDATA access whose index is out of range (R67): KERR set. -/
def Status.keyError (st : Status) : Status := { st with kerr := true }

end Sys2Proof.Machine
end

