-- ==== Sys2Proof/Machine/Ops.lean ====
section
/-! DEFINITION. The shared operations: reading and writing storage (10_state.md, 20_memory.md), loops of the
pseudocode (00_scope.md rule R11), ending a command and reporting its error (40_command_lifecycle.md rules
R121 to R125), refusing an access (20_memory.md rule R64) and resetting (70_reset_and_hazards.md). -/

namespace Sys2Proof.Machine

/-! Storage. -/

/-- The key word at index `i`, `none` if it is UNWRITTEN (R22). -/
def bankRead : Bank → Nat → Option Key
  | [], _ => none
  | (a, v) :: rest, i => if a = i then some v else bankRead rest i

/-- The bank with key word `i` holding `v`; the indices stay strictly rising. -/
def bankWrite : Bank → Nat → Key → Bank
  | [], i, v => [(i, v)]
  | (a, w) :: rest, i, v =>
    if i < a then (i, v) :: (a, w) :: rest
    else if i = a then (i, v) :: rest
    else (a, w) :: bankWrite rest i v

/-- The canonical form of a bank: indices strictly rising. -/
def bankWf (bank : Bank) : Bool := decide (bank.Pairwise fun x y => x.1 < y.1)

/-- The canonical form of the storage. An UNWRITTEN word is never listed, so there is no entry to remove. -/
def Memory.wf (m : Memory) : Bool := bankWf m.bank0 && bankWf m.bank1

/-- BANK[b]. -/
def Memory.bank (m : Memory) : BankId → Bank
  | .b0 => m.bank0
  | .b1 => m.bank1

/-- The storage with another BANK[b]. -/
def Memory.setBank (m : Memory) (b : BankId) (bank : Bank) : Memory :=
  match b with
  | .b0 => { m with bank0 := bank }
  | .b1 => { m with bank1 := bank }

/-- `MemRead((b, i), 8)` (R11): the key word, `none` if it is UNWRITTEN. -/
def Memory.readKey (m : Memory) (b : BankId) (i : Nat) : Option Key := bankRead (m.bank b) i

/-- `MemWrite((b, i), 8, v)` (R11). -/
def Memory.writeKey (m : Memory) (b : BankId) (i : Nat) (v : Key) : Memory :=
  m.setBank b (bankWrite (m.bank b) i v)

/-- `COUNT[d]` (R11): the entry, `none` if it is UNWRITTEN. -/
def Memory.readCount (m : Memory) (d : Digit) : Option Idx := m.count[d.toNat]'d.isLt

/-- `COUNT[d] <- v`. -/
def Memory.writeCount (m : Memory) (d : Digit) (v : Idx) : Memory :=
  { m with count := m.count.set d.toNat (some v) d.isLt }

/-! Pseudocode. -/

/-- How a piece of a command's pseudocode ends: it goes on with a value, it raises a command error with the
writes made so far kept (R125), or it reads an UNWRITTEN word, which is a fault of the model (R22). -/
inductive Run (α : Type) where
  | ok (a : α)
  | raised (code : ErrCode) (m : Memory)
  | fault (f : Fault)
  deriving DecidableEq, Repr

/-- One piece of pseudocode after another. -/
def Run.andThen {α β : Type} (r : Run α) (f : α → Run β) : Run β :=
  match r with
  | .ok a => f a
  | .raised code m => .raised code m
  | .fault e => .fault e

/-- `count` iterations of a loop whose index starts at `i` and goes up by 1 (R11). -/
def loopFrom {α : Type} (body : Nat → α → Run α) : (count i : Nat) → α → Run α
  | 0, _, a => .ok a
  | count + 1, i, a => (body i a).andThen (loopFrom body count (i + 1))

/-- Read a key word and go on with it; a fault if it is UNWRITTEN (R22). -/
def withKey {α : Type} (m : Memory) (b : BankId) (i : Nat) (f : Key → Run α) : Run α :=
  match m.readKey b i with
  | some key => f key
  | none => .fault (.unwrittenKey b i)

/-- Read a COUNT entry and go on with it; a fault if it is UNWRITTEN (R22). -/
def withCount {α : Type} (m : Memory) (d : Digit) (f : Idx → Run α) : Run α :=
  match m.readCount d with
  | some v => f v
  | none => .fault (.unwrittenCount d)

/-! Ending a command: the block's "trap entry" and "trap return" (R231, R232). -/

/-- `finish(code)` (R124): the command ends, with its error code or with success. No other state is
written. -/
def State.finish (s : State) (code : ErrCode) : State := { s with status := s.status.finished code }

/-- The way back from a completion (R232): the host acknowledges by a write to STATUS (R29). -/
def State.acknowledge (s : State) (data : Data) : State :=
  { s with status := s.status.acknowledged data }

/-- An accepted issue (R120), which also ends the handling of an earlier completion (R232). The value is
latched and not yet decoded. -/
def State.issue (s : State) (v : Data) : State :=
  { s with lastCmd := v, status := s.status.issued }

/-- The check `x[N] > N_MAX` of rule R121, for the commands that read N. -/
def checkCapacity (s : State) : Option ErrCode := if s.nMax < s.n then some .capacity else none

/-- The check `c.sb = c.db` of rule R121, for SCAT and PASS. -/
def checkBanks (sb db : BankId) : Option ErrCode := if sb = db then some .bankConflict else none

/-- The check `FROM <= TO <= N` of rule R121, for REV. -/
def checkRevRange (s : State) : Option ErrCode :=
  if s.fromReg ≤ s.toReg ∧ s.toReg ≤ s.n then none else some .range

/-- The check `FROM <= MID <= TO <= N` of rule R121, for ROT. -/
def checkRotRange (s : State) : Option ErrCode :=
  if s.fromReg ≤ s.mid ∧ s.mid ≤ s.toReg ∧ s.toReg ≤ s.n then none else some .range

/-- The command's part of the completion step (R121) after decoding: the checks, the first that fails giving
the error code and nothing else written (R122); else the pseudocode, which answers the storage and RESULT it
leaves; then `finish`. It does not look at BUSY: the engine's step does (DESIGN CHOICE,
notes/assumptions/10.md). The pseudocode's own sequencing is not held in State (DEDUCED, R42, R123,
notes/assumptions/7.md). -/
def State.runCommand (s : State) (checks : Option ErrCode) (body : Run (Memory × Idx)) :
    Host.Outcome State Fault Refusal :=
  match checks with
  | some code => .next (s.finish code)
  | none =>
    match body with
    | .ok (m, result) => .next (State.finish { s with mem := m, result := result } .none)
    | .raised code m => .next (State.finish { s with mem := m } code)
    | .fault f => .fault f

/-- A command whose pseudocode writes only storage; RESULT keeps its value (R35). -/
def State.runStorageCommand (s : State) (checks : Option ErrCode) (body : Run Memory) :
    Host.Outcome State Fault Refusal :=
  s.runCommand checks (body.andThen fun m => .ok (m, s.result))

/-! The host port. -/

/-- A read that returns `v` to the host (R60). -/
def State.returning (s : State) (v : Data) : State := { s with readData := v }

/-- A refused write (R64): OVR is set, and that is its only effect. -/
def State.refuseWrite (s : State) : State := { s with status := s.status.refusing }

/-- A refused read (R64): it returns 0, and OVR is set. -/
def State.refuseRead (s : State) : State := s.refuseWrite.returning 0#64

/-- The effect of an access that is refused while the engine is busy (R64). -/
def State.writeUnlessBusy (s accepted : State) : State :=
  if s.status.busy then s.refuseWrite else accepted

/-! Reset. -/

/-- The storage after a soft reset: kept while idle (R252), all UNWRITTEN while busy (R253). -/
def Memory.softReset (m : Memory) (busy : Bool) : Memory := if busy then .unwritten else m

/-- Soft reset (R252, R253): every register gets its reset value, and an issued command is discarded. The
capacity is no register of the reset, and the host's side of the port is no state of the block (DEDUCED,
notes/assumptions/6.md). -/
def State.softReset (s : State) : State :=
  { State.powerOn s.nMax with
    mem := s.mem.softReset s.status.busy
    readData := s.readData
    queue := s.queue
    turns := s.turns }

/-- The reset input (R250): as a soft reset, and everything UNWRITTEN. DEDUCED (notes/assumptions/6.md): one
atomic event, which leaves the host's side of the port alone. -/
def State.powerOnReset (s : State) : State :=
  { State.powerOn s.nMax with
    readData := s.readData
    queue := s.queue
    turns := s.turns }

/-! Events. -/

/-- Whose turn it is (R15, R75). Where the list gives none, a busy engine completes, as rule R127's fairness
asks, and else the host goes on: DESIGN CHOICE (notes/assumptions/2.md). -/
def State.nextTurn (s : State) : Turn :=
  match s.turns with
  | t :: _ => t
  | [] => if s.status.busy then .engine else .host

/-- The turn is used up. -/
def State.takeTurn (s : State) : State := { s with turns := s.turns.tail }

end Sys2Proof.Machine
end

