-- ==== Sys2Proof/Machine/CountingPass.lean ====
section
/-! DEFINITION. The counting pass: CLR, HIST, OFFS, SCAT and PASS (41_counting_pass.md). -/

namespace Sys2Proof.Machine

/-- `execute(CLR)` (R140): every COUNT entry is 0. -/
def clrBody (m : Memory) : Memory := { m with count := Vector.replicate 256 (some 0#32) }

/-- One iteration of `execute(HIST k, sb)` (R143): count the digit of key `i`, modulo 2^32. -/
def histStep (k : BitVec 3) (sb : BankId) (i : Nat) (m : Memory) : Run Memory :=
  withKey m sb i fun key =>
    withCount m (digit k key) fun c => .ok (m.writeCount (digit k key) (c + 1#32))

/-- `execute(HIST k, sb)` (R143) for `n` keys. COUNT is not cleared first. -/
def histBody (k : BitVec 3) (sb : BankId) (n : Nat) (m : Memory) : Run Memory :=
  loopFrom (histStep k sb) n 0 m

/-- The first UNWRITTEN entry of a list of COUNT entries, the list's first entry being entry `d`. -/
def firstUnwritten : (d : Nat) → List (Option Idx) → Option Nat
  | _, [] => none
  | d, none :: _ => some d
  | d, some _ :: rest => firstUnwritten (d + 1) rest

/-- Each entry replaced by the sum, modulo 2^32, of `acc` and the entries before it (R146). -/
def sumsBefore : (acc : Idx) → List (Option Idx) → List (Option Idx)
  | _, [] => []
  | acc, t :: rest => some acc :: sumsBefore (acc + t.getD 0#32) rest

/-- The prefix sum has an entry for each entry. -/
theorem sumsBefore_length (acc : Idx) (entries : List (Option Idx)) :
    (sumsBefore acc entries).length = entries.length := by
  induction entries generalizing acc with
  | nil => rfl
  | cons t rest ih => simp [sumsBefore, ih]

/-- The prefix sum of the whole table. -/
def sumsOfTable (table : Counts) : Counts :=
  ⟨⟨sumsBefore 0#32 table.toList⟩, by simp [sumsBefore_length]⟩

/-- `execute(OFFS)` (R146): the entries are read in order, so the first UNWRITTEN one is the fault; else each
becomes the sum of the entries before it. The final sum is not kept. DEDUCED (notes/assumptions/11.md): one
walk over the table is the loop of the pseudocode. -/
def offsBody (m : Memory) : Run Memory :=
  match firstUnwritten 0 m.count.toList with
  | some d => .fault (.unwrittenCount (BitVec.ofNat 8 d))
  | none => .ok { m with count := sumsOfTable m.count }

/-- One iteration of `execute(SCAT k, sb, db)` (R149): key `i` goes to the offset of its digit, which then
goes up by 1. An offset of `n` or more is SCATTER_BOUNDS, with the earlier writes kept. -/
def scatStep (k : BitVec 3) (sb db : BankId) (n : Idx) (i : Nat) (m : Memory) : Run Memory :=
  withKey m sb i fun key =>
    withCount m (digit k key) fun p =>
      if n ≤ p then .raised .scatterBounds m
      else .ok ((m.writeKey db p.toNat key).writeCount (digit k key) (p + 1#32))

/-- `execute(SCAT k, sb, db)` (R149) for `n` keys. -/
def scatBody (k : BitVec 3) (sb db : BankId) (n : Idx) (m : Memory) : Run Memory :=
  loopFrom (scatStep k sb db n) n.toNat 0 m

/-- `execute(PASS k, sb, db)` (R152): CLR, HIST, OFFS, SCAT. -/
def passBody (k : BitVec 3) (sb db : BankId) (n : Idx) (m : Memory) : Run Memory :=
  (histBody k sb n.toNat (clrBody m)).andThen fun m =>
    (offsBody m).andThen fun m => scatBody k sb db n m

/-- CLR (R140). It does not read N. -/
def execClr (s : State) : Host.Outcome State Fault Refusal :=
  s.runStorageCommand none (.ok (clrBody s.mem))

/-- HIST k, bS (R143). -/
def execHist (k : BitVec 3) (sb : BankId) (s : State) : Host.Outcome State Fault Refusal :=
  s.runStorageCommand (checkCapacity s) (histBody k sb s.n.toNat s.mem)

/-- OFFS (R146). It does not read N. -/
def execOffs (s : State) : Host.Outcome State Fault Refusal :=
  s.runStorageCommand none (offsBody s.mem)

/-- SCAT k, bS, bD (R149). -/
def execScat (k : BitVec 3) (sb db : BankId) (s : State) : Host.Outcome State Fault Refusal :=
  s.runStorageCommand ((checkCapacity s).or (checkBanks sb db)) (scatBody k sb db s.n s.mem)

/-- PASS k, bS, bD (R152). -/
def execPass (k : BitVec 3) (sb db : BankId) (s : State) : Host.Outcome State Fault Refusal :=
  s.runStorageCommand ((checkCapacity s).or (checkBanks sb db)) (passBody k sb db s.n s.mem)

end Sys2Proof.Machine
end

