-- ==== Sys2Proof/Machine/PingPong.lean ====
section
/-! DEFINITION. The multi-pass ping-pong controller, WSORT (42_pingpong.md). -/

namespace Sys2Proof.Machine

/-- Pass `j` of WSORT from the current source bank into the other one, after which the two banks swap their
roles (R170). -/
def wsortStep (n : Idx) (j : Nat) (w : Memory × BankId) : Run (Memory × BankId) :=
  (passBody (passDigit j) w.2 w.2.other n w.1).andThen fun m => .ok (m, w.2.other)

/-- `execute(WSORT)` (R170): eight passes, the first from BANK[0] into BANK[1]. -/
def wsortBody (n : Idx) (m : Memory) : Run Memory :=
  (loopFrom (wsortStep n) 8 0 (m, .b0)).andThen fun w => .ok w.1

/-- WSORT (R170). -/
def execWsort (s : State) : Host.Outcome State Fault Refusal :=
  s.runStorageCommand (checkCapacity s) (wsortBody s.n s.mem)

end Sys2Proof.Machine
end

