-- ==== Sys2Proof/Machine/Sequence.lean ====
section
/-! DEFINITION. Sequence reversal, sequence rotation and the sign-bit boundary detector: REV, ROT and SIGNB
(43_sequence_ops.md). -/

namespace Sys2Proof.Machine

/-- One iteration of `reverse(b, f, t)` (R180): exchange key `f + q` and key `t - 1 - q`. -/
def reverseStep (b : BankId) (f t q : Nat) (m : Memory) : Run Memory :=
  withKey m b (f + q) fun lo =>
    withKey m b (t - 1 - q) fun hi =>
      .ok ((m.writeKey b (f + q) hi).writeKey b (t - 1 - q) lo)

/-- `reverse(b, f, t)` (R180). The middle word of an odd range is neither read nor written. -/
def reverseRange (b : BankId) (f t : Nat) (m : Memory) : Run Memory :=
  loopFrom (reverseStep b f t) ((t - f) / 2) 0 m

/-- `rotate(b, f, p, t)` (R183): reverse the whole range, then its first `t - p` words, then the rest. -/
def rotateRange (b : BankId) (f p t : Nat) (m : Memory) : Run Memory :=
  (reverseRange b f t m).andThen fun m =>
    (reverseRange b f (f + (t - p)) m).andThen fun m =>
      reverseRange b (f + (t - p)) t m

/-- The loop of SIGNB (R186) from index `i` with `count` keys left: the first index whose key has top bit 1,
or the end. No word after it is read. -/
def scanFrom (m : Memory) (b : BankId) : (count i : Nat) → Run Nat
  | 0, i => .ok i
  | count + 1, i => withKey m b i fun key => if top key then .ok i else scanFrom m b count (i + 1)

/-- `scan(b)` over `n` keys (R186). -/
def scan (b : BankId) (n : Idx) (m : Memory) : Run Idx :=
  (scanFrom m b n.toNat 0).andThen fun i => .ok (BitVec.ofNat 32 i)

/-- REV bT (R180). -/
def execRev (b : BankId) (s : State) : Host.Outcome State Fault Refusal :=
  s.runStorageCommand ((checkCapacity s).or (checkRevRange s))
    (reverseRange b s.fromReg.toNat s.toReg.toNat s.mem)

/-- ROT bT (R183). -/
def execRot (b : BankId) (s : State) : Host.Outcome State Fault Refusal :=
  s.runStorageCommand ((checkCapacity s).or (checkRotRange s))
    (rotateRange b s.fromReg.toNat s.mid.toNat s.toReg.toNat s.mem)

/-- SIGNB bT (R186). -/
def execSignb (b : BankId) (s : State) : Host.Outcome State Fault Refusal :=
  s.runCommand (checkCapacity s) ((scan b s.n s.mem).andThen fun r => .ok (s.mem, r))

end Sys2Proof.Machine
end

