-- ==== Sys2Proof/Machine/Composite.lean ====
section
/-! DEFINITION. The composite sorts SORTI and SORTF (44_composite_sorts.md). Their boundary operands are
internal: FROM, MID and TO are neither read nor written. -/

namespace Sys2Proof.Machine

/-- `execute(SORTI)` (R200): WSORT, then the keys with top bit 1 move in front; RESULT is the boundary. -/
def sortiBody (n : Idx) (m : Memory) : Run (Memory × Idx) :=
  (wsortBody n m).andThen fun m =>
    (scan .b0 n m).andThen fun b =>
      (rotateRange .b0 0 b.toNat n.toNat m).andThen fun m => .ok (m, b)

/-- `execute(SORTF)` (R204): as SORTI, and then the leading block of sign-1 keys is reversed. -/
def sortfBody (n : Idx) (m : Memory) : Run (Memory × Idx) :=
  (sortiBody n m).andThen fun w =>
    (reverseRange .b0 0 (n.toNat - w.2.toNat) w.1).andThen fun m => .ok (m, w.2)

/-- SORTI (R200). -/
def execSorti (s : State) : Host.Outcome State Fault Refusal :=
  s.runCommand (checkCapacity s) (sortiBody s.n s.mem)

/-- SORTF (R204). -/
def execSortf (s : State) : Host.Outcome State Fault Refusal :=
  s.runCommand (checkCapacity s) (sortfBody s.n s.mem)

end Sys2Proof.Machine
end

