-- ==== Sys2Proof/Machine/HostPort.lean ====
section
/-! DEFINITION. The host transactions HRD and HWR (20_memory.md section 1, register rules of 10_state.md). -/

namespace Sys2Proof.Machine

/-- A read of KDATA (R38, R64, R66, R67). -/
def readKdata (s : State) : Host.Outcome State Fault Refusal :=
  if s.status.busy then .next s.refuseRead
  else if s.kaddr < s.nMax then
    match s.mem.readKey s.kbank s.kaddr.toNat with
    | some key => .next (State.returning { s with kaddr := s.kaddr + 1#32 } key)
    | none => .fault (.unwrittenKey s.kbank s.kaddr.toNat)
  else
    .next (State.returning { s with kaddr := s.kaddr + 1#32, status := s.status.keyError } 0#64)

/-- A write of KDATA (R38, R64, R66, R67). -/
def writeKdata (s : State) (data : Data) : State :=
  s.writeUnlessBusy
    (if s.kaddr < s.nMax then
      { s with
        mem := s.mem.writeKey s.kbank s.kaddr.toNat data
        kaddr := s.kaddr + 1#32 }
    else { s with kaddr := s.kaddr + 1#32, status := s.status.keyError })

/-- A read of CDATA (R40, R64, R68). -/
def readCdata (s : State) : Host.Outcome State Fault Refusal :=
  if s.status.busy then .next s.refuseRead
  else
    match s.mem.readCount s.caddr with
    | some v => .next (State.returning { s with caddr := s.caddr + 1#8 } (zext v))
    | none => .fault (.unwrittenCount s.caddr)

/-- A write of CDATA (R40, R64, R68). -/
def writeCdata (s : State) (data : Data) : State :=
  s.writeUnlessBusy
    { s with
      mem := s.mem.writeCount s.caddr (low32 data)
      caddr := s.caddr + 1#8 }

/-- A write of CTRL (R28): with SRST = 1 a soft reset, and the written IE is discarded; else IE is stored.
It is accepted while busy. -/
def writeCtrl (s : State) (data : Data) : State :=
  if ctrlSrst data then s.softReset else { s with ie := ctrlIe data }

/-- HRD addr (R60): the value that is returned, by register (R24 to R40). Every read but that of KDATA and
CDATA is accepted while busy and has no side effect (R65, R71). -/
def execHrd (addr : RegAddr) (s : State) : Host.Outcome State Fault Refusal :=
  match regAt addr with
  | .caps => .next (s.returning (capsWord s.nMax))
  | .ctrl => .next (s.returning (ctrlWord s.ie))
  | .status => .next (s.returning (s.status.word s.ie))
  | .cmd => .next (s.returning s.lastCmd)
  | .n => .next (s.returning (zext s.n))
  | .fromReg => .next (s.returning (zext s.fromReg))
  | .mid => .next (s.returning (zext s.mid))
  | .toReg => .next (s.returning (zext s.toReg))
  | .result => .next (s.returning (zext s.result))
  | .kbank => .next (s.returning (zext s.kbank.toBit))
  | .kaddr => .next (s.returning (zext s.kaddr))
  | .kdata => readKdata s
  | .caddr => .next (s.returning (zext s.caddr))
  | .cdata => readCdata s
  | .reserved => .next (s.returning 0#64)

/-- HWR addr, data (R60), by register (R24 to R40). A write to CAPS, RESULT or a reserved address has no
effect (R25, R26); a write of an operand register is refused while busy (R64); a write to CMD while idle
issues the command (R30, R120). -/
def execHwr (addr : RegAddr) (data : Data) (s : State) : Host.Outcome State Fault Refusal :=
  match regAt addr with
  | .caps => .next s
  | .ctrl => .next (writeCtrl s data)
  | .status => .next (s.acknowledge data)
  | .cmd => .next (s.writeUnlessBusy (s.issue data))
  | .n => .next (s.writeUnlessBusy { s with n := low32 data })
  | .fromReg => .next (s.writeUnlessBusy { s with fromReg := low32 data })
  | .mid => .next (s.writeUnlessBusy { s with mid := low32 data })
  | .toReg => .next (s.writeUnlessBusy { s with toReg := low32 data })
  | .result => .next s
  | .kbank => .next (s.writeUnlessBusy { s with kbank := lowBank data })
  | .kaddr => .next (s.writeUnlessBusy { s with kaddr := low32 data })
  | .kdata => .next (writeKdata s data)
  | .caddr => .next (s.writeUnlessBusy { s with caddr := low8 data })
  | .cdata => .next (writeCdata s data)
  | .reserved => .next s

end Sys2Proof.Machine
end

