-- ==== Sys2Proof/Machine/Nop.lean ====
section
/-! DEFINITION. NOP (40_command_lifecycle.md rule R126). -/

namespace Sys2Proof.Machine

/-- NOP (R126): `skip`, then `finish(0)`. It does not read N. -/
def execNop (s : State) : Host.Outcome State Fault Refusal :=
  s.runStorageCommand none (.ok s.mem)

end Sys2Proof.Machine
end

