-- ==== Sys2Proof/Machine/Dispatch.lean ====
section
/-! DEFINITION. The meaning of every instruction: a command's arm is what its completion step does after
decoding (40_command_lifecycle.md rule R121), a host transaction's arm is its effect (20_memory.md rule R60). -/

namespace Sys2Proof.Machine

/-- One arm per constructor of `Instr`. -/
def exec (i : Instr) (s : State) : Host.Outcome State Fault Refusal :=
  match i with
  | .nop => Sys2Proof.Machine.execNop s
  | .clr => Sys2Proof.Machine.execClr s
  | .hist k sb => Sys2Proof.Machine.execHist k sb s
  | .offs => Sys2Proof.Machine.execOffs s
  | .scat k sb db => Sys2Proof.Machine.execScat k sb db s
  | .pass k sb db => Sys2Proof.Machine.execPass k sb db s
  | .wsort => Sys2Proof.Machine.execWsort s
  | .rev b => Sys2Proof.Machine.execRev b s
  | .rot b => Sys2Proof.Machine.execRot b s
  | .signb b => Sys2Proof.Machine.execSignb b s
  | .sorti => Sys2Proof.Machine.execSorti s
  | .sortf => Sys2Proof.Machine.execSortf s
  | .hwr addr data => Sys2Proof.Machine.execHwr addr data s
  | .hrd addr => Sys2Proof.Machine.execHrd addr s

end Sys2Proof.Machine
end

