-- ==== Sys2Proof/Machine/Agents.lean ====
section
/-! DEFINITION. The events of the block: the engine's `complete` step, a host transaction, and the reset
input (00_scope.md rule R15, 40_command_lifecycle.md rule R121, 70_reset_and_hazards.md rule R250). -/

namespace Sys2Proof.Machine

/-- The engine's turn (R121): while busy it decodes the latched value and executes and ends the command; a
value that is no command ends with ILLEGAL_CMD and has no other effect. While idle the engine has no enabled
step, and nothing happens (DESIGN CHOICE, notes/assumptions/8.md). -/
def engineStep (s : State) : Host.Outcome State Fault Refusal :=
  if s.status.busy then
    match decodeCommand s.lastCmd with
    | .ok i => exec i s
    | .error _ => .next (s.finish .illegalCmd)
  else .next s

/-- The host's turn (R60): its next transaction takes effect whole. With none to come, nothing happens (DESIGN
CHOICE, notes/assumptions/8.md). -/
def hostStep (s : State) : Host.Outcome State Fault Refusal :=
  match s.queue with
  | w :: rest => exec (decodeTransaction w) { s with queue := rest }
  | [] => .next s

/-- The event whose turn it is. -/
def State.runTurn (s : State) : Turn → Host.Outcome State Fault Refusal
  | .host => hostStep s
  | .engine => engineStep s
  | .reset => .next s.powerOnReset

/-- The latch, STATUS and turn that make the engine execute the CMD value `v` next: `v` is issued, as a host
write of it to CMD would have done (R120). -/
def State.withIssued (s : State) (v : Data) : State :=
  { s.issue v with turns := .engine :: s.turns }

/-- The queue and turn that make the host make the transaction `w` next. -/
def State.withTransaction (s : State) (w : TxnWord) : State :=
  { s with queue := w :: s.queue, turns := .host :: s.turns }

end Sys2Proof.Machine
end

