-- ==== Sys2Proof/Machine/Step.lean ====
section
/-! DEFINITION. One step of the block: one event of the interleaving of host transactions and completion steps
(20_memory.md rule R75). -/

namespace Sys2Proof.Machine

/-- One step (R75): the agent whose turn it is takes it. -/
def step (s : State) : Host.Outcome State Fault Refusal :=
  s.takeTurn.runTurn s.nextTurn

/-- The state in which the very next step runs the instruction whose bits are `w` (DESIGN CHOICE,
notes/assumptions/3.md): a
command is issued and the engine has the turn; a host transaction is the host's next and the host has the
turn. The widths are those of `decodeTableWord`. -/
def State.withFetchWord (s : State) (nbits w : Nat) : State :=
  if nbits ≤ 64 then s.withIssued (BitVec.ofNat 64 w) else s.withTransaction (BitVec.ofNat 73 w)

end Sys2Proof.Machine
end

