-- ==== Sys2Proof/Safety.lean ====
section
/-! DEFINITION. What a good state and a safe outcome are, and the words claims are made in: the contents of a
bank, the orders on sequences of keys (00_scope.md rules R12 and R13), and the effect of a scatter. -/

namespace Sys2Proof.Machine

/-- The invariant of the block: what holds after power-on reset and is kept by every step. -/
structure State.Inv (s : State) : Prop where
  /-- N_MAX is at least 1 (R9). -/
  capacity : 1 ≤ s.nMax.toNat
  /-- The banks are in canonical form. -/
  canonical : s.mem.wf = true
  /-- The key space has no word at or above N_MAX (R62, R72). -/
  inSpace : ∀ b, ∀ entry ∈ s.mem.bank b, entry.1 < s.nMax.toNat
  /-- While a command runs, DONE and ERR are clear (R120). -/
  busyClear : s.status.busy = true → s.status.done = false ∧ s.status.err = .none
  /-- RESULT is a boundary of a sequence that fits (R35). -/
  resultInRange : s.result.toNat ≤ s.nMax.toNat

/-- A step that goes on: neither a fault nor a refusal. -/
def Completes (o : Host.Outcome State Fault Refusal) : Prop := ∃ t, o = .next t

/-- The next instruction's outcome after an outcome: an outcome that stopped stays as it is. -/
def thenExec (o : Host.Outcome State Fault Refusal) (i : Instr) : Host.Outcome State Fault Refusal :=
  match o with
  | .next t => exec i t
  | .fault f => .fault f
  | .refused r => .refused r

/-- BANK[b] holds the keys of the list at the indices 0, 1, and so on. -/
def Memory.Holds (m : Memory) (b : BankId) (keys : List Key) : Prop :=
  ∀ i (h : i < keys.length), m.readKey b i = some keys[i]

/-- A word of BANK[b] below `n` is written. -/
def Memory.WrittenBelow (m : Memory) (b : BankId) (n : Nat) : Prop :=
  ∀ i, i < n → ∃ key, m.readKey b i = some key

/-- Two storages agree on COUNT and on the key words below `n`. -/
def Memory.AgreesBelow (n : Nat) (m m' : Memory) : Prop :=
  m.count = m'.count ∧ ∀ b i, i < n → m.readKey b i = m'.readKey b i

/-- *Unsigned-ascending* (R13). -/
def UnsignedAscending (keys : List Key) : Prop :=
  ∀ i (h : i + 1 < keys.length), keys[i].toNat ≤ keys[i + 1].toNat

/-- *Signed-ascending* (R13): `s(key)` is the two's-complement value (R12). -/
def SignedAscending (keys : List Key) : Prop :=
  ∀ i (h : i + 1 < keys.length), keys[i].toInt ≤ keys[i + 1].toInt

/-- `after` is the *stable* reordering of `before` by `g` (R13): ascending in `g`, and the keys of each value
of `g` are the same ones in the same order. -/
def StableBy (g : Key → Nat) (before after : List Key) : Prop :=
  (∀ i (h : i + 1 < after.length), g after[i] ≤ g after[i + 1]) ∧
  ∀ v, after.filter (fun key => g key = v) = before.filter (fun key => g key = v)

/-- `h(d)`: how many of the keys have digit `k` equal to `d` (41_counting_pass.md). -/
def histogram (k : BitVec 3) (keys : List Key) (d : Digit) : Nat :=
  keys.countP fun key => digit k key = d

/-- `start(d)`: how many of the keys have a digit `k` below `d` (41_counting_pass.md). -/
def startOf (k : BitVec 3) (keys : List Key) (d : Digit) : Nat :=
  keys.countP fun key => (digit k key).toNat < d.toNat

/-- `#{ i : digit(S[i], k) <= d }`, the end offset of bucket `d` (R156). -/
def endOf (k : BitVec 3) (keys : List Key) (d : Digit) : Nat :=
  keys.countP fun key => (digit k key).toNat ≤ d.toNat

/-- The offset at which a scatter that starts with the table `c` places key `i`: the entry of its digit, plus
the keys of that digit placed before it (R149). -/
def scatterOffset (k : BitVec 3) (c : Digit → Idx) (keys : List Key) (i : Nat) : Nat :=
  match keys[i]? with
  | some key => (c (digit k key)).toNat + histogram k (keys.take i) (digit k key)
  | none => 0

/-- What scattering the keys, in order, into BANK[db] does to storage (R149): a destination word holds the
last key placed there, a word no key is placed at keeps its contents, each entry met goes up by the keys of
its digit, and the source bank is only read. -/
structure ScatterEffect (k : BitVec 3) (sb db : BankId) (c : Digit → Idx) (keys : List Key) (m m' : Memory) :
    Prop where
  placed : ∀ i (h : i < keys.length),
    (∀ j, i < j → j < keys.length → scatterOffset k c keys j ≠ scatterOffset k c keys i) →
    m'.readKey db (scatterOffset k c keys i) = some keys[i]
  elsewhere : ∀ p, (∀ i, i < keys.length → scatterOffset k c keys i ≠ p) →
    m'.readKey db p = m.readKey db p
  source : m'.bank sb = m.bank sb
  counts : ∀ d, m'.readCount d =
    (m.readCount d).map fun v => v + BitVec.ofNat 32 (histogram k keys d)

/-- Where the key words of BANK[b] outside [lo, hi), the other bank and COUNT are unchanged. -/
structure ChangesOnlyRange (b : BankId) (lo hi : Nat) (m m' : Memory) : Prop where
  outside : ∀ i, i < lo ∨ hi ≤ i → m'.readKey b i = m.readKey b i
  otherBank : m'.bank b.other = m.bank b.other
  count : m'.count = m.count

/-- Whether ROT over A = [f, p) and B = [p, t) reads key word `i` (R180, R183): each word of the range is read,
except that an odd range's middle word is not when A or B is empty. -/
abbrev RotReads (f p t i : Nat) : Prop := f ≤ i ∧ i < t ∧ (2 * (i - f) + 1 ≠ t - f ∨ (f < p ∧ p < t))

/-! The float reading of a key, for claims only: no meaning of the model uses it (R12, R205). -/

/-- Whether a key is the pattern of a NaN: all-ones exponent, nonzero mantissa (R14). PRESUMED
(notes/assumptions/15.md): the places of the two fields, 93_implementation_defined.md G1. -/
def isNaN (key : Key) : Bool := key.extractLsb' 52 11 == 0x7FF#11 && key.extractLsb' 0 52 != 0#52

/-- The absolute value of a key read as binary64, in units of 2^-1074 (notes/assumptions/15.md, PRESUMED);
infinity is a number above every finite value. -/
def floatMagnitude (key : Key) : Nat :=
  if (key.extractLsb' 52 11).toNat = 0 then (key.extractLsb' 0 52).toNat
  else (2 ^ 52 + (key.extractLsb' 0 52).toNat) * 2 ^ ((key.extractLsb' 52 11).toNat - 1)

/-- `f(key)` (R12) in units of 2^-1074, for keys that are no NaN. -/
def floatValue (key : Key) : Int :=
  if top key then -(floatMagnitude key : Int) else (floatMagnitude key : Int)

/-- The literal loop of rule R146's pseudocode, one iteration: the entry gets the running sum, which then
grows by the entry's old value. -/
def offsIteration (d : Nat) (w : Memory × Idx) : Run (Memory × Idx) :=
  withCount w.1 (BitVec.ofNat 8 d) fun t =>
    .ok (w.1.writeCount (BitVec.ofNat 8 d) w.2, w.2 + t)

end Sys2Proof.Machine
end

