-- ==== Sys2Proof/Certificates/Slice0/Obligations.lean ====
section
/-! DEFINITION. The statements about the model, for the provers. Each docstring names the rule of spec/ it
formalises. Every statement is about every state, so about every capacity N_MAX. -/

open Sys2Proof Sys2Proof.Machine

/-! ### Encoding (30_encoding.md) -/

/-- R99's examples, and vector V-ENC-2, decode to the commands they stand for. -/
def Obligations.ListedWordsDecodeToTheirCommands : Prop :=
  decodeCommand 0x00000000#64 = .ok .nop ∧
  decodeCommand 0x00000001#64 = .ok .clr ∧
  decodeCommand 0x00001302#64 = .ok (.hist 3#3 .b1) ∧
  decodeCommand 0x00000003#64 = .ok .offs ∧
  decodeCommand 0x00002004#64 = .ok (.scat 0#3 .b0 .b1) ∧
  decodeCommand 0x00003704#64 = .ok (.scat 7#3 .b1 .b1) ∧
  decodeCommand 0x00001105#64 = .ok (.pass 1#3 .b1 .b0) ∧
  decodeCommand 0x00000006#64 = .ok .wsort ∧
  decodeCommand 0x00000007#64 = .ok (.rev .b0) ∧
  decodeCommand 0x00001008#64 = .ok (.rot .b1) ∧
  decodeCommand 0x00000009#64 = .ok (.signb .b0) ∧
  decodeCommand 0x0000000A#64 = .ok .sorti ∧
  decodeCommand 0x0000000B#64 = .ok .sortf ∧
  decodeTransaction 0x1_04_0000000000000005#73 = .hwr 0x04#8 5#64 ∧
  decodeTransaction 0x0_0B_0000000000000000#73 = .hrd 0x0B#8

/-- Decoding the encoded form of any instruction gives the instruction back, every operand with every value
its field admits (R92, R94, R96, R97). -/
def Obligations.DecodeOfEncodeIsTheInstruction : Prop :=
  ∀ i : Instr, decode (encode i) = .ok i

/-- A legal CMD value is the encoding of the command it decodes to: each command has one word (R94, R97). -/
def Obligations.EachCommandHasOneWord : Prop :=
  ∀ (v : Data) (i : Instr), decodeCommand v = .ok i ↔ encode i = .command v

/-- R94: no command word selects two rows of the opcode map. -/
def Obligations.AtMostOneRowSelectsAWord : Prop :=
  ∀ cw : CmdWord, opcodeMap.Pairwise fun r r' => ¬(r.selects cw = true ∧ r'.selects cw = true)

/-- R95, R221: a written value is illegal exactly when it is of one of the four kinds; it is accepted as an
issue all the same, and its completion step ends it with ILLEGAL_CMD and changes nothing but STATUS. -/
def Obligations.IllegalCommandEndsWithIllegalCmdOnly : Prop :=
  ∀ v : Data,
    ((∃ e, decodeCommand v = .error e) ↔
      0x0C ≤ (v.extractLsb' 0 8).toNat ∨
      v.extractLsb' 11 1 ≠ 0#1 ∨ v.extractLsb' 14 18 ≠ 0#18 ∨
      (usesK (v.extractLsb' 0 8) = false ∧ v.extractLsb' 8 3 ≠ 0#3) ∨
      (usesSB (v.extractLsb' 0 8) = false ∧ v.extractLsb' 12 1 ≠ 0#1) ∨
      (usesDB (v.extractLsb' 0 8) = false ∧ v.extractLsb' 13 1 ≠ 0#1) ∨
      v.extractLsb' 32 32 ≠ 0#32) ∧
    (∀ s : State, s.status.busy = false →
      exec (.hwr 0x03#8 v) s = .next
        { s with
          lastCmd := v
          status := { s.status with busy := true, done := false, err := .none } }) ∧
    ((∃ e, decodeCommand v = .error e) → ∀ s : State, s.status.busy = true → s.lastCmd = v →
      s.nextTurn = .engine →
      step s = .next
        { s with
          status := { s.status with busy := false, done := true, err := .illegalCmd }
          turns := s.turns.tail })

/-! ### The step, the invariant and reset -/

/-- R15, R75, R121: a step is `exec` of the instruction at hand. On the engine's turn a busy engine executes
the command its latch decodes to, and an idle one does nothing; on the host's turn the host's next transaction
takes effect; a word placed by `withFetchWord` is what the next step runs. Around `exec` a step only uses up
the turn, and the transaction that is made. The model's choice, no rule of the spec: `turns` and `queue`
(notes/assumptions/2.md), `withFetchWord` (3.md), the turns with nothing to do, of an idle engine and of a host
with an empty queue (8.md), and the widths of `decodeTableWord` (13.md). -/
def Obligations.StepRunsTheDecodedInstruction : Prop :=
  (∀ (s : State) (i : Instr), s.nextTurn = .engine → s.status.busy = true →
    decodeCommand s.lastCmd = .ok i → step s = exec i { s with turns := s.turns.tail }) ∧
  (∀ s : State, s.nextTurn = .engine → s.status.busy = false →
    step s = .next { s with turns := s.turns.tail }) ∧
  (∀ (s : State) (w : TxnWord) (rest : List TxnWord), s.nextTurn = .host → s.queue = w :: rest →
    step s = exec (decodeTransaction w) { s with turns := s.turns.tail, queue := rest }) ∧
  (∀ s : State, s.nextTurn = .host → s.queue = [] → step s = .next { s with turns := s.turns.tail }) ∧
  (∀ (s : State) (nbits w : Nat) (i : Instr), decodeTableWord nbits w = some i → nbits ≤ 64 →
    step (s.withFetchWord nbits w) = exec i (s.issue (BitVec.ofNat 64 w))) ∧
  (∀ (s : State) (nbits w : Nat) (i : Instr), decodeTableWord nbits w = some i → 64 < nbits →
    step (s.withFetchWord nbits w) = exec i s)

/-- Every step from a state that meets the invariant ends in one: the banks stay in canonical form and inside
the key space, DONE and ERR stay clear while busy, RESULT stays a boundary (R9, R20, R35, R62, R120). -/
def Obligations.StepKeepsTheInvariant : Prop :=
  ∀ s t : State, s.Inv → step s = .next t → t.Inv

/-- The state after power-on reset meets the invariant, whatever the capacity, and the machine's reset state
is one of them (its capacity is the model's choice, notes/assumptions/1.md). -/
def Obligations.PowerOnStateMeetsTheInvariant : Prop :=
  (∀ nMax : Idx, 1 ≤ nMax.toNat → (State.powerOn nMax).Inv) ∧
  State.reset = State.powerOn Config.nMax ∧ State.reset.Inv

/-- R44: power-on reset leaves every register 0 but CAPS, the block idle with no command pending, IRQ low,
and every key word and COUNT entry UNWRITTEN. -/
def Obligations.PowerOnResetValues : Prop :=
  ∀ s : State, s.nextTurn = .reset → ∃ t, step s = .next t ∧
    t.ie = false ∧
    t.status = { busy := false, done := false, ovr := false, kerr := false, err := .none } ∧
    irqOf t.status.done t.ie = false ∧
    t.lastCmd = 0#64 ∧ t.n = 0#32 ∧ t.fromReg = 0#32 ∧ t.mid = 0#32 ∧ t.toReg = 0#32 ∧
    t.result = 0#32 ∧ t.kbank = .b0 ∧ t.kaddr = 0#32 ∧ t.caddr = 0#8 ∧
    exec (.hrd 0x00#8) t = .next { t with readData := 0x0140080800000000#64 ||| s.nMax.setWidth 64 } ∧
    (∀ b i, t.mem.readKey b i = none) ∧ (∀ d, t.mem.readCount d = none)

/-- R252: a soft reset of an idle block sets every register to its reset value and keeps the banks and COUNT,
each word with its written or UNWRITTEN status. That the host's side (`readData`, `queue`, `turns`) survives is
the model's choice (notes/assumptions/5.md and 6.md), not R252. -/
def Obligations.SoftResetWhileIdleKeepsStorage : Prop :=
  ∀ (s : State) (data : Data), s.status.busy = false → data.getLsbD 1 = true →
    exec (.hwr 0x01#8 data) s = .next
      { State.powerOn s.nMax with
        mem := s.mem, readData := s.readData, queue := s.queue, turns := s.turns }

/-- R253: a soft reset of a busy block discards the command (the block is idle, with DONE = 0 and ERR = 0),
sets every register to its reset value and makes every key word and COUNT entry UNWRITTEN; a later read of any
of them faults, at whatever index the host then selects. That the host's side (`readData`, `queue`, `turns`)
survives is the model's choice (notes/assumptions/5.md and 6.md), not R253. -/
def Obligations.SoftResetWhileBusyDiscardsTheCommand : Prop :=
  ∀ (s : State) (data : Data), s.status.busy = true → data.getLsbD 1 = true →
    ∃ t, exec (.hwr 0x01#8 data) s = .next t ∧
      t = { State.powerOn s.nMax with readData := s.readData, queue := s.queue, turns := s.turns } ∧
      t.status.busy = false ∧ t.status.done = false ∧ t.status.err = .none ∧
      (∀ b i, t.mem.readKey b i = none) ∧ (∀ d, t.mem.readCount d = none) ∧
      (∀ b a, a < s.nMax →
        exec (.hrd 0x0B#8) { t with kbank := b, kaddr := a } = .fault (.unwrittenKey b a.toNat)) ∧
      (∀ d, exec (.hrd 0x0D#8) { t with caddr := d } = .fault (.unwrittenCount d))

/-! ### The host port (10_state.md section 3, 20_memory.md) -/

/-- R61, with the fault of R22: a host write always takes effect, and a host read does unless it reads an
UNWRITTEN word through KDATA or CDATA of an idle block. -/
def Obligations.HostTransactionsComplete : Prop :=
  (∀ addr data s, Completes (exec (.hwr addr data) s)) ∧
  (∀ addr s, Completes (exec (.hrd addr) s) ∨
    (addr = 0x0B#8 ∧ s.status.busy = false ∧ s.kaddr < s.nMax ∧
      s.mem.readKey s.kbank s.kaddr.toNat = none ∧
      exec (.hrd addr) s = .fault (.unwrittenKey s.kbank s.kaddr.toNat)) ∨
    (addr = 0x0D#8 ∧ s.status.busy = false ∧ s.mem.readCount s.caddr = none ∧
      exec (.hrd addr) s = .fault (.unwrittenCount s.caddr)))

/-- R25: a write to a narrow register stores the low bits of the data and nothing depends on the others; a
read of one is zero-extended; a write to a read-only register has no effect. -/
def Obligations.WidthRule : Prop :=
  (∀ (s : State) (data : Data), s.status.busy = false →
    exec (.hwr 0x04#8 data) s = .next { s with n := data.extractLsb' 0 32 } ∧
    exec (.hwr 0x05#8 data) s = .next { s with fromReg := data.extractLsb' 0 32 } ∧
    exec (.hwr 0x06#8 data) s = .next { s with mid := data.extractLsb' 0 32 } ∧
    exec (.hwr 0x07#8 data) s = .next { s with toReg := data.extractLsb' 0 32 } ∧
    exec (.hwr 0x09#8 data) s = .next { s with kbank := if data.getLsbD 0 then .b1 else .b0 } ∧
    exec (.hwr 0x0A#8 data) s = .next { s with kaddr := data.extractLsb' 0 32 } ∧
    exec (.hwr 0x0C#8 data) s = .next { s with caddr := data.extractLsb' 0 8 } ∧
    exec (.hwr 0x0D#8 data) s = exec (.hwr 0x0D#8 ((data.extractLsb' 0 32).setWidth 64)) s) ∧
  (∀ (s : State) (data : Data),
    exec (.hwr 0x01#8 data) s = exec (.hwr 0x01#8 ((data.extractLsb' 0 2).setWidth 64)) s ∧
    exec (.hwr 0x02#8 data) s = exec (.hwr 0x02#8 ((data.extractLsb' 0 12).setWidth 64)) s ∧
    (data.getLsbD 1 = false → exec (.hwr 0x01#8 data) s = .next { s with ie := data.getLsbD 0 })) ∧
  (∀ s : State,
    exec (.hrd 0x01#8) s = .next { s with readData := (BitVec.ofBool s.ie).setWidth 64 } ∧
    (∃ v : BitVec 12, exec (.hrd 0x02#8) s = .next { s with readData := v.setWidth 64 }) ∧
    exec (.hrd 0x04#8) s = .next { s with readData := s.n.setWidth 64 } ∧
    exec (.hrd 0x05#8) s = .next { s with readData := s.fromReg.setWidth 64 } ∧
    exec (.hrd 0x06#8) s = .next { s with readData := s.mid.setWidth 64 } ∧
    exec (.hrd 0x07#8) s = .next { s with readData := s.toReg.setWidth 64 } ∧
    exec (.hrd 0x08#8) s = .next { s with readData := s.result.setWidth 64 } ∧
    exec (.hrd 0x09#8) s = .next { s with readData := if s.kbank = .b1 then 1#64 else 0#64 } ∧
    exec (.hrd 0x0A#8) s = .next { s with readData := s.kaddr.setWidth 64 } ∧
    exec (.hrd 0x0C#8) s = .next { s with readData := s.caddr.setWidth 64 } ∧
    (∀ v, s.status.busy = false → s.mem.readCount s.caddr = some v →
      exec (.hrd 0x0D#8) s = .next { s with caddr := s.caddr + 1#8, readData := v.setWidth 64 })) ∧
  (∀ (s : State) (data : Data),
    exec (.hwr 0x00#8 data) s = .next s ∧ exec (.hwr 0x08#8 data) s = .next s)

/-- R26: a reserved address reads 0, and a write to it has no effect; neither sets a status bit, idle or
busy. -/
def Obligations.ReservedAddressesReadZeroAndIgnoreWrites : Prop :=
  ∀ (addr : RegAddr) (data : Data) (s : State), 0x0E ≤ addr.toNat →
    exec (.hrd addr) s = .next { s with readData := 0#64 } ∧ exec (.hwr addr data) s = .next s

/-- R27: CAPS reads as the constant `0x0140_0808_0000_0000 | N_MAX`, field by field, idle or busy; neither a
write to it nor a reset changes it. -/
def Obligations.CapsIsTheConstant : Prop :=
  ∀ s : State,
    exec (.hrd 0x00#8) s =
      .next { s with readData := 0x0140080800000000#64 ||| s.nMax.setWidth 64 } ∧
    (∃ caps : Data, exec (.hrd 0x00#8) s = .next { s with readData := caps } ∧
      caps.extractLsb' 0 32 = s.nMax ∧ caps.extractLsb' 32 8 = 8#8 ∧ caps.extractLsb' 40 8 = 8#8 ∧
      caps.extractLsb' 48 8 = 64#8 ∧ caps.extractLsb' 56 8 = 1#8) ∧
    (∀ t, step s = .next t → t.nMax = s.nMax)

/-- R28: CTRL holds IE in bit 0; SRST and the reserved bits read 0; a write with SRST = 1 performs the soft
reset and discards the written IE, a write with SRST = 0 stores IE and does nothing else, busy or not. -/
def Obligations.CtrlRegister : Prop :=
  (∀ s : State, exec (.hrd 0x01#8) s = .next { s with readData := if s.ie then 1#64 else 0#64 }) ∧
  (∀ (s : State) (data : Data), data.getLsbD 1 = false →
    exec (.hwr 0x01#8 data) s = .next { s with ie := data.getLsbD 0 }) ∧
  (∀ (s : State) (data : Data), data.getLsbD 1 = true →
    ∃ t, exec (.hwr 0x01#8 data) s = .next t ∧ t.ie = false ∧ t.status = .zero ∧ t.lastCmd = 0#64 ∧
      t.n = 0#32 ∧ t.fromReg = 0#32 ∧ t.mid = 0#32 ∧ t.toReg = 0#32 ∧ t.result = 0#32 ∧
      t.kbank = .b0 ∧ t.kaddr = 0#32 ∧ t.caddr = 0#8)

/-- R29, the fields and the host write: STATUS reads as BUSY, DONE, OVR, KERR, IRQ in bits 0 to 4, ERR in
[11:8] and 0 elsewhere; a write clears each of DONE, OVR and KERR whose written bit is 1 and changes nothing
else. -/
def Obligations.StatusFieldsAndWrite : Prop :=
  (∀ s : State, ∃ v : Data, exec (.hrd 0x02#8) s = .next { s with readData := v } ∧
    v.getLsbD 0 = s.status.busy ∧ v.getLsbD 1 = s.status.done ∧ v.getLsbD 2 = s.status.ovr ∧
    v.getLsbD 3 = s.status.kerr ∧ v.getLsbD 4 = (s.status.done && s.ie) ∧
    v.extractLsb' 5 3 = 0#3 ∧ v.extractLsb' 8 4 = s.status.err.toBits ∧ v.extractLsb' 12 52 = 0#52 ∧
    (v.extractLsb' 8 4).toNat ≤ 5) ∧
  (∀ (s : State) (data : Data), exec (.hwr 0x02#8 data) s = .next
    { s with
      status :=
        { s.status with
          done := if data.getLsbD 1 then false else s.status.done
          ovr := if data.getLsbD 2 then false else s.status.ovr
          kerr := if data.getLsbD 3 then false else s.status.kerr } })

/-- R29, the columns "set by" and "cleared by", over every instruction: a stored bit of STATUS changes only at
the events the table names. What sets OVR is an access of R64's list while busy; what sets KERR is a KDATA
access of an idle block with KADDR >= N_MAX (R67). -/
def Obligations.StatusBitsChangeOnlyAtTheirEvents : Prop :=
  ∀ (i : Instr) (s t : State), exec i s = .next t →
    (s.status.busy = false → t.status.busy = true → ∃ v, i = .hwr 0x03#8 v) ∧
    (s.status.busy = true → t.status.busy = false →
      i.isCommand = true ∨ ∃ data, i = .hwr 0x01#8 data ∧ data.getLsbD 1 = true) ∧
    (s.status.done = false → t.status.done = true → i.isCommand = true) ∧
    (s.status.done = true → t.status.done = false →
      (∃ v, i = .hwr 0x03#8 v) ∨ (∃ data, i = .hwr 0x02#8 data ∧ data.getLsbD 1 = true) ∨
      ∃ data, i = .hwr 0x01#8 data ∧ data.getLsbD 1 = true) ∧
    (s.status.ovr = false → t.status.ovr = true → s.status.busy = true ∧
      ((∃ addr, i = .hrd addr ∧ addr ∈ [0x0B#8, 0x0D#8]) ∨
        ∃ addr data, i = .hwr addr data ∧ addr ∈
          [0x03#8, 0x04#8, 0x05#8, 0x06#8, 0x07#8, 0x09#8, 0x0A#8, 0x0B#8, 0x0C#8, 0x0D#8])) ∧
    (s.status.ovr = true → t.status.ovr = false →
      (∃ data, i = .hwr 0x02#8 data ∧ data.getLsbD 2 = true) ∨
      ∃ data, i = .hwr 0x01#8 data ∧ data.getLsbD 1 = true) ∧
    (s.status.kerr = false → t.status.kerr = true →
      s.status.busy = false ∧ s.nMax ≤ s.kaddr ∧ (i = .hrd 0x0B#8 ∨ ∃ data, i = .hwr 0x0B#8 data)) ∧
    (s.status.kerr = true → t.status.kerr = false →
      (∃ data, i = .hwr 0x02#8 data ∧ data.getLsbD 3 = true) ∨
      ∃ data, i = .hwr 0x01#8 data ∧ data.getLsbD 1 = true) ∧
    (t.status.err ≠ s.status.err → i.isCommand = true ∨ (∃ v, i = .hwr 0x03#8 v) ∨
      ∃ data, i = .hwr 0x01#8 data ∧ data.getLsbD 1 = true)

/-- R64: while busy, the accesses the rule lists are refused: a read returns 0, OVR is set, and nothing else
changes. While idle, none of them is: OVR stays as it is. -/
def Obligations.AccessesRefusedWhileBusy : Prop :=
  (∀ (s : State) (addr : RegAddr), s.status.busy = true → addr ∈ [0x0B#8, 0x0D#8] →
    exec (.hrd addr) s = .next
      { s with status := { s.status with ovr := true }, readData := 0#64 }) ∧
  (∀ (s : State) (addr : RegAddr) (data : Data), s.status.busy = true →
    addr ∈ [0x03#8, 0x04#8, 0x05#8, 0x06#8, 0x07#8, 0x09#8, 0x0A#8, 0x0B#8, 0x0C#8, 0x0D#8] →
    exec (.hwr addr data) s = .next { s with status := { s.status with ovr := true } }) ∧
  (∀ (s t : State) (addr : RegAddr) (data : Data), s.status.busy = false →
    addr ∈ [0x03#8, 0x04#8, 0x05#8, 0x06#8, 0x07#8, 0x09#8, 0x0A#8, 0x0B#8, 0x0C#8, 0x0D#8] →
    (exec (.hwr addr data) s = .next t ∨ exec (.hrd addr) s = .next t) →
    t.status.ovr = s.status.ovr)

/-- R65: while busy, a read of CAPS, CTRL, STATUS, CMD, N, FROM, MID, TO, RESULT, KBANK, KADDR or CADDR is
accepted: it returns the register's current value, as the same read of an idle block does, and changes
nothing. Writes to CTRL and STATUS are accepted as when idle, those to CAPS, RESULT and reserved addresses
ignored. A transaction after which the block is still busy leaves every register but STATUS and CTRL at its
value, so the value read is that at issue. -/
def Obligations.AccessesAcceptedWhileBusy : Prop :=
  ∀ s : State, s.status.busy = true →
    exec (.hrd 0x00#8) s = .next { s with readData := 0x0140080800000000#64 ||| s.nMax.setWidth 64 } ∧
    exec (.hrd 0x01#8) s = .next { s with readData := if s.ie then 1#64 else 0#64 } ∧
    exec (.hrd 0x02#8) s = .next { s with readData := s.status.word s.ie } ∧
    exec (.hrd 0x03#8) s = .next { s with readData := s.lastCmd } ∧
    exec (.hrd 0x04#8) s = .next { s with readData := s.n.setWidth 64 } ∧
    exec (.hrd 0x05#8) s = .next { s with readData := s.fromReg.setWidth 64 } ∧
    exec (.hrd 0x06#8) s = .next { s with readData := s.mid.setWidth 64 } ∧
    exec (.hrd 0x07#8) s = .next { s with readData := s.toReg.setWidth 64 } ∧
    exec (.hrd 0x08#8) s = .next { s with readData := s.result.setWidth 64 } ∧
    exec (.hrd 0x09#8) s = .next { s with readData := if s.kbank = .b1 then 1#64 else 0#64 } ∧
    exec (.hrd 0x0A#8) s = .next { s with readData := s.kaddr.setWidth 64 } ∧
    exec (.hrd 0x0C#8) s = .next { s with readData := s.caddr.setWidth 64 } ∧
    (∀ data : Data, data.getLsbD 1 = false →
      exec (.hwr 0x01#8 data) s = .next { s with ie := data.getLsbD 0 }) ∧
    (∀ data : Data, exec (.hwr 0x02#8 data) s = .next
      { s with
        status :=
          { s.status with
            done := if data.getLsbD 1 then false else s.status.done
            ovr := if data.getLsbD 2 then false else s.status.ovr
            kerr := if data.getLsbD 3 then false else s.status.kerr } }) ∧
    (∀ data : Data, exec (.hwr 0x00#8 data) s = .next s ∧ exec (.hwr 0x08#8 data) s = .next s) ∧
    (∀ (addr : RegAddr) (data : Data), 0x0E ≤ addr.toNat →
      exec (.hwr addr data) s = .next s ∧ exec (.hrd addr) s = .next { s with readData := 0#64 }) ∧
    (∀ (i : Instr) (t : State), i.isCommand = false → exec i s = .next t → t.status.busy = true →
      t.nMax = s.nMax ∧ t.lastCmd = s.lastCmd ∧ t.n = s.n ∧ t.fromReg = s.fromReg ∧ t.mid = s.mid ∧
      t.toReg = s.toReg ∧ t.result = s.result ∧ t.kbank = s.kbank ∧ t.kaddr = s.kaddr ∧
      t.caddr = s.caddr)

/-- R66: an accepted KDATA access below N_MAX reads or writes the whole key word at KADDR of bank KBANK,
leaves every other word alone, and adds 1 to KADDR; a read of an UNWRITTEN word faults. The bound is N_MAX,
whatever N is. -/
def Obligations.KeyWordAccessInRange : Prop :=
  ∀ s : State, s.status.busy = false → s.kaddr < s.nMax →
    (∀ key, s.mem.readKey s.kbank s.kaddr.toNat = some key →
      exec (.hrd 0x0B#8) s = .next { s with kaddr := s.kaddr + 1#32, readData := key }) ∧
    (s.mem.readKey s.kbank s.kaddr.toNat = none →
      exec (.hrd 0x0B#8) s = .fault (.unwrittenKey s.kbank s.kaddr.toNat)) ∧
    (∀ data : Data, ∃ m : Memory,
      exec (.hwr 0x0B#8 data) s = .next { s with mem := m, kaddr := s.kaddr + 1#32 } ∧
      m.readKey s.kbank s.kaddr.toNat = some data ∧
      (∀ b i, ¬(b = s.kbank ∧ i = s.kaddr.toNat) → m.readKey b i = s.mem.readKey b i) ∧
      m.count = s.mem.count)

/-- R67: an accepted KDATA access at or above N_MAX reads 0 or discards the write, touches no bank word, sets
KERR and adds 1 to KADDR modulo 2^32. No other event sets KERR. -/
def Obligations.KeyWordAccessOutOfRange : Prop :=
  (∀ (s : State) (data : Data), s.status.busy = false → ¬ s.kaddr < s.nMax →
    exec (.hrd 0x0B#8) s = .next
      { s with
        kaddr := s.kaddr + 1#32, status := { s.status with kerr := true }, readData := 0#64 } ∧
    exec (.hwr 0x0B#8 data) s = .next
      { s with kaddr := s.kaddr + 1#32, status := { s.status with kerr := true } }) ∧
  (∀ (s t : State) (data : Data), s.status.busy = false → s.kaddr = 0xFFFFFFFF#32 →
    (exec (.hrd 0x0B#8) s = .next t ∨ exec (.hwr 0x0B#8 data) s = .next t) → t.kaddr = 0#32) ∧
  (∀ s t : State, step s = .next t → s.status.kerr = false → t.status.kerr = true →
    ∃ w rest, s.nextTurn = .host ∧ s.queue = w :: rest ∧ s.status.busy = false ∧
      ¬ s.kaddr < s.nMax ∧
      (decodeTransaction w = .hrd 0x0B#8 ∨ ∃ data, decodeTransaction w = .hwr 0x0B#8 data))

/-- R68: an accepted CDATA access reads the COUNT entry at CADDR zero-extended, or stores the low 32 bits in
it and leaves every other entry and the banks alone, and adds 1 to CADDR modulo 256; a read of an UNWRITTEN
entry faults. -/
def Obligations.BucketEntryAccess : Prop :=
  ∀ s : State, s.status.busy = false →
    (∀ v, s.mem.readCount s.caddr = some v →
      exec (.hrd 0x0D#8) s = .next { s with caddr := s.caddr + 1#8, readData := v.setWidth 64 }) ∧
    (s.mem.readCount s.caddr = none → exec (.hrd 0x0D#8) s = .fault (.unwrittenCount s.caddr)) ∧
    (∀ data : Data, ∃ m : Memory,
      exec (.hwr 0x0D#8 data) s = .next { s with mem := m, caddr := s.caddr + 1#8 } ∧
      m.readCount s.caddr = some (data.extractLsb' 0 32) ∧
      (∀ d, d ≠ s.caddr → m.readCount d = s.mem.readCount d) ∧
      m.bank0 = s.mem.bank0 ∧ m.bank1 = s.mem.bank1) ∧
    (∀ (t : State) (data : Data), s.caddr = 255#8 →
      (exec (.hrd 0x0D#8) s = .next t ∨ exec (.hwr 0x0D#8 data) s = .next t) → t.caddr = 0#8)

/-- R71: an accepted KDATA read increments KADDR, an accepted CDATA read increments CADDR and a refused read
sets OVR; every other read, that of STATUS included, changes nothing of the block, so that the same read made
again returns the same value. -/
def Obligations.OnlyThreeKindsOfReadHaveSideEffects : Prop :=
  (∀ s t : State, exec (.hrd 0x0B#8) s = .next t → s.status.busy = false → t.kaddr = s.kaddr + 1#32) ∧
  (∀ s t : State, exec (.hrd 0x0D#8) s = .next t → s.status.busy = false → t.caddr = s.caddr + 1#8) ∧
  (∀ (s t : State) (addr : RegAddr), addr = 0x0B#8 ∨ addr = 0x0D#8 → exec (.hrd addr) s = .next t →
    s.status.busy = true → t.status.ovr = true) ∧
  (∀ (s : State) (addr : RegAddr), addr ≠ 0x0B#8 → addr ≠ 0x0D#8 →
    ∃ v, exec (.hrd addr) s = .next { s with readData := v } ∧
      exec (.hrd addr) { s with readData := v } = .next { s with readData := v })

/-! ### The lifecycle of a command (40_command_lifecycle.md, 60_exceptions.md) -/

/-- R120: an accepted write to CMD latches the 64 bits, clears DONE and ERR and sets BUSY, whatever the value;
OVR and KERR and all else are unchanged, and IRQ falls. A write while busy issues nothing. A read of CMD returns
LASTCMD, idle or busy (R30). -/
def Obligations.IssueLatchesTheValue : Prop :=
  ∀ (s : State) (v : Data),
    exec (.hrd 0x03#8) s = .next { s with readData := s.lastCmd } ∧
    (s.status.busy = false → ∃ t, exec (.hwr 0x03#8 v) s = .next t ∧
      t = { s with
            lastCmd := v
            status := { busy := true, done := false, ovr := s.status.ovr, kerr := s.status.kerr,
                        err := .none } } ∧
      irqOf t.status.done t.ie = false ∧
      exec (.hrd 0x03#8) t = .next { t with readData := v }) ∧
    (s.status.busy = true →
      exec (.hwr 0x03#8 v) s = .next { s with status := { s.status with ovr := true } })

/-- R122 with the order of R121: a check that fails ends the command with its code and changes nothing but
STATUS, and the first failing check gives the code: ILLEGAL_CMD, then CAPACITY, then BANK_CONFLICT, then
RANGE. SCATTER_BOUNDS arises only after all checks have passed. -/
def Obligations.FirstFailingCheckEndsTheCommand : Prop :=
  (∀ (s : State) (e : DecodeError), s.status.busy = true → s.nextTurn = .engine →
    decodeCommand s.lastCmd = .error e →
    step s = .next ({ s with turns := s.turns.tail }.finish .illegalCmd)) ∧
  (∀ (s : State) (i : Instr), s.nMax < s.n →
    (∃ k b d, i ∈ [.hist k b, .scat k b d, .pass k b d, .wsort, .rev b, .rot b, .signb b, .sorti, .sortf]) →
    exec i s = .next (s.finish .capacity)) ∧
  (∀ (s : State) (k : BitVec 3) (b : BankId), ¬ s.nMax < s.n →
    exec (.scat k b b) s = .next (s.finish .bankConflict) ∧
    exec (.pass k b b) s = .next (s.finish .bankConflict)) ∧
  (∀ (s : State) (b : BankId), ¬ s.nMax < s.n →
    ¬(s.fromReg.toNat ≤ s.toReg.toNat ∧ s.toReg.toNat ≤ s.n.toNat) →
    exec (.rev b) s = .next (s.finish .range)) ∧
  (∀ (s : State) (b : BankId), ¬ s.nMax < s.n →
    ¬(s.fromReg.toNat ≤ s.mid.toNat ∧ s.mid.toNat ≤ s.toReg.toNat ∧ s.toReg.toNat ≤ s.n.toNat) →
    exec (.rot b) s = .next (s.finish .range)) ∧
  (∀ (s t : State) (i : Instr), i.isCommand = true → exec i s = .next t →
    t.status.err = .scatterBounds →
    ∃ k sb db, i = .scat k sb db ∧ sb ≠ db ∧ ¬ s.nMax < s.n)

/-- R220: a completion ends with exactly one code, which its cause decides. ILLEGAL_CMD comes from a value that
decodes to no command; each other code from the commands and the cause its row names, when no earlier check
fails; success when there is no cause. LASTCMD and the operands stay readable. -/
def Obligations.ErrorCodesHaveTheirCauses : Prop :=
  (∀ (s : State) (e : DecodeError), s.status.busy = true → s.nextTurn = .engine →
    decodeCommand s.lastCmd = .error e →
    ∃ t, step s = .next t ∧ t.status.err = .illegalCmd ∧ t.lastCmd = s.lastCmd) ∧
  ∀ (s t : State) (i : Instr), i.isCommand = true → exec i s = .next t →
    t.status.busy = false ∧ t.status.done = true ∧ t.lastCmd = s.lastCmd ∧ t.n = s.n ∧
    t.fromReg = s.fromReg ∧ t.mid = s.mid ∧ t.toReg = s.toReg ∧ t.status.err.toBits.toNat ≤ 5 ∧
    match t.status.err with
    | .none =>
        (¬ s.nMax < s.n ∨ i ∈ [.nop, .clr, .offs]) ∧
        (∀ k b, i ≠ .scat k b b ∧ i ≠ .pass k b b) ∧
        (∀ b, i = .rev b → s.fromReg ≤ s.toReg ∧ s.toReg ≤ s.n) ∧
        ∀ b, i = .rot b → s.fromReg ≤ s.mid ∧ s.mid ≤ s.toReg ∧ s.toReg ≤ s.n
    | .illegalCmd => False
    | .capacity => s.nMax < s.n ∧ i ≠ .nop ∧ i ≠ .clr ∧ i ≠ .offs
    | .range => ¬ s.nMax < s.n ∧
        ((∃ b, i = .rev b ∧ ¬(s.fromReg ≤ s.toReg ∧ s.toReg ≤ s.n)) ∨
        ∃ b, i = .rot b ∧ ¬(s.fromReg ≤ s.mid ∧ s.mid ≤ s.toReg ∧ s.toReg ≤ s.n))
    | .bankConflict => ¬ s.nMax < s.n ∧ ∃ k b, i = .scat k b b ∨ i = .pass k b b
    | .scatterBounds => ¬ s.nMax < s.n ∧ ∃ k sb db, i = .scat k sb db ∧ sb ≠ db ∧
        ∃ j key p, j < s.n.toNat ∧
          t.mem.readKey sb j = some key ∧ t.mem.readCount (digit k key) = some p ∧ s.n ≤ p

/-- R124: `finish(code)` writes ERR, clears BUSY and sets DONE, and writes no other state; IRQ rises exactly
if IE is set. Every command that completes ends so; one that ends with an error has not written RESULT. -/
def Obligations.FinishWritesStatusOnly : Prop :=
  (∀ (s : State) (code : ErrCode),
    s.finish code =
      { s with
        status := { busy := false, done := true, ovr := s.status.ovr, kerr := s.status.kerr,
                    err := code } } ∧
    irqOf (s.finish code).status.done (s.finish code).ie = s.ie) ∧
  (∀ (i : Instr) (s t : State), i.isCommand = true → exec i s = .next t →
    ∃ m result code, t = State.finish { s with mem := m, result := result } code ∧
      (code ≠ .none → result = s.result))

/-- The frame of every command (R24, R31 to R39, R124): what a command that completes leaves unchanged is
every register but STATUS and RESULT, OVR and KERR, and the host's side of the port. Only SIGNB, SORTI and
SORTF write RESULT, and none of them when it ends with an error (R35). That `readData`, `queue` and `turns` are
kept is the model's choice (notes/assumptions/2.md and 5.md), no rule of the spec. -/
def Obligations.CommandsWriteOnlyStorageResultAndStatus : Prop :=
  ∀ (i : Instr) (s t : State), i.isCommand = true → exec i s = .next t →
    t.nMax = s.nMax ∧ t.ie = s.ie ∧ t.lastCmd = s.lastCmd ∧ t.n = s.n ∧ t.fromReg = s.fromReg ∧
    t.mid = s.mid ∧ t.toReg = s.toReg ∧ t.kbank = s.kbank ∧ t.kaddr = s.kaddr ∧ t.caddr = s.caddr ∧
    t.readData = s.readData ∧ t.queue = s.queue ∧ t.turns = s.turns ∧
    t.status.ovr = s.status.ovr ∧ t.status.kerr = s.status.kerr ∧
    (t.status.err ≠ .none → t.result = s.result) ∧
    (t.result ≠ s.result → i = .sorti ∨ i = .sortf ∨ ∃ b, i = .signb b) ∧
    (i ∈ [.sorti, .sortf, .signb .b0, .signb .b1] → t.status.err = .none →
      t.result.toNat ≤ s.n.toNat)

/-- R41, R228: IRQ is DONE AND IE, as STATUS bit 4 reads it. It is high after a completion with IE = 1, and
low after a write of 1 to STATUS bit 1, an issue, a write of IE = 0 (which keeps DONE) or a reset. No other
instruction lowers it, and only a completion, or setting IE with DONE = 1, raises it. -/
def Obligations.InterruptFollowsDoneAndEnable : Prop :=
  (∀ s : State, ∃ v : Data, exec (.hrd 0x02#8) s = .next { s with readData := v } ∧
    v.getLsbD 4 = irqOf s.status.done s.ie ∧ irqOf s.status.done s.ie = (s.status.done && s.ie)) ∧
  (∀ (i : Instr) (s t : State), i.isCommand = true → exec i s = .next t →
    irqOf t.status.done t.ie = s.ie) ∧
  (∀ (s t : State) (data : Data), data.getLsbD 1 = true → exec (.hwr 0x02#8 data) s = .next t →
    irqOf t.status.done t.ie = false ∧ t.ie = s.ie) ∧
  (∀ (s t : State) (v : Data), s.status.busy = false → exec (.hwr 0x03#8 v) s = .next t →
    irqOf t.status.done t.ie = false) ∧
  (∀ (s t : State) (data : Data), data.getLsbD 0 = false → data.getLsbD 1 = false →
    exec (.hwr 0x01#8 data) s = .next t →
    irqOf t.status.done t.ie = false ∧ t.status.done = s.status.done) ∧
  (∀ (s t : State) (data : Data), data.getLsbD 1 = true → exec (.hwr 0x01#8 data) s = .next t →
    irqOf t.status.done t.ie = false) ∧
  (∀ s t : State, s.nextTurn = .reset → step s = .next t → irqOf t.status.done t.ie = false) ∧
  (∀ (i : Instr) (s t : State), exec i s = .next t →
    (irqOf s.status.done s.ie = true → irqOf t.status.done t.ie = false →
      (∃ v, i = .hwr 0x03#8 v) ∨ (∃ data, i = .hwr 0x02#8 data ∧ data.getLsbD 1 = true) ∨
      ∃ data, i = .hwr 0x01#8 data ∧ (data.getLsbD 0 = false ∨ data.getLsbD 1 = true)) ∧
    (irqOf s.status.done s.ie = false → irqOf t.status.done t.ie = true →
      i.isCommand = true ∨ (s.status.done = true ∧ ∃ data, i = .hwr 0x01#8 data ∧ data.getLsbD 0 = true)))

/-- R76 over single steps: BUSY rises only at an issue, DONE rises only at the completion of a command that
was busy, and while BUSY stays 1 the latch keeps the command. So a read of DONE = 1 with no issue in between
comes after the completion. -/
def Obligations.DoneRisesOnlyAtCompletion : Prop :=
  ∀ s t : State, step s = .next t →
    (s.status.done = false → t.status.done = true → s.nextTurn = .engine ∧ s.status.busy = true ∧
      t.status.busy = false) ∧
    (s.status.busy = false → t.status.busy = true → s.nextTurn = .host ∧ t.status.done = false ∧
      ∃ v w rest, s.queue = w :: rest ∧ decodeTransaction w = .hwr 0x03#8 v ∧ t.lastCmd = v) ∧
    (s.status.busy = true → t.status.busy = true → t.lastCmd = s.lastCmd)

/-- R74: key words at or above N are never changed by a command, nor are those outside [FROM, TO) by REV and
ROT; a command that ends with an error other than SCATTER_BOUNDS changes no key word. -/
def Obligations.CommandsChangeOnlyWordsBelowN : Prop :=
  ∀ (i : Instr) (s t : State), i.isCommand = true → exec i s = .next t →
    (∀ b j, s.n.toNat ≤ j → t.mem.readKey b j = s.mem.readKey b j) ∧
    (∀ b, i = .rev b ∨ i = .rot b →
      ∀ b' j, j < s.fromReg.toNat ∨ s.toReg.toNat ≤ j → t.mem.readKey b' j = s.mem.readKey b' j) ∧
    (t.status.err ≠ .none → t.status.err ≠ .scatterBounds → t.mem = s.mem)

/-- R74, the reads: key words at or above N are not read by a command. Two states that differ only in such
words give the same fault, or next states that again differ only in such words. -/
def Obligations.CommandsDoNotReadWordsFromN : Prop :=
  ∀ (i : Instr) (s : State) (m : Memory), i.isCommand = true →
    Memory.AgreesBelow s.n.toNat s.mem m →
    (∀ t, exec i s = .next t → ∃ m', exec i { s with mem := m } = .next { t with mem := m' } ∧
      Memory.AgreesBelow s.n.toNat t.mem m') ∧
    (∀ f, exec i s = .fault f → exec i { s with mem := m } = .fault f)

/-- R126: NOP is the word 0; it completes in every state with success, whatever N is, and changes STATUS
only. -/
def Obligations.NopOnlyFinishes : Prop :=
  (∀ v : Data, decodeCommand v = .ok .nop ↔ v = 0#64) ∧
  ∀ s : State, exec .nop s = .next
    { s with status := { s.status with busy := false, done := true, err := .none } }

/-! ### The counting pass (41_counting_pass.md) -/

/-- R140: CLR is the word 1; it completes in every state, whatever N is: every COUNT entry is 0 and written,
and nothing else changes but STATUS. -/
def Obligations.ClrZeroesTheBucketTable : Prop :=
  (∀ v : Data, decodeCommand v = .ok .clr ↔ v = 1#64) ∧
  ∀ s : State, ∃ m : Memory,
    exec .clr s = .next (State.finish { s with mem := m } .none) ∧
    (∀ d, m.readCount d = some 0#32) ∧ m.bank0 = s.mem.bank0 ∧ m.bank1 = s.mem.bank1

/-- R143: HIST adds to each COUNT entry the number of keys with that digit, modulo 2^32, and changes no key
word; CAPACITY if N > N_MAX; the first UNWRITTEN key word or entry it reads is a fault. -/
def Obligations.HistAddsTheHistogram : Prop :=
  ∀ (k : BitVec 3) (sb : BankId),
    (∀ v : Data, decodeCommand v = .ok (.hist k sb) ↔ v = commandValue 0x02#8 k sb .b0) ∧
    ∀ s : State,
      (s.nMax < s.n → exec (.hist k sb) s = .next (s.finish .capacity)) ∧
      ∀ keys : List Key, ¬ s.nMax < s.n → keys.length ≤ s.n.toNat → s.mem.Holds sb keys →
        (∀ key ∈ keys, s.mem.readCount (digit k key) ≠ none) →
        (keys.length = s.n.toNat → ∃ m : Memory,
          exec (.hist k sb) s = .next (State.finish { s with mem := m } .none) ∧
          (∀ d, m.readCount d =
            (s.mem.readCount d).map fun v => v + BitVec.ofNat 32 (histogram k keys d)) ∧
          m.bank0 = s.mem.bank0 ∧ m.bank1 = s.mem.bank1) ∧
        (keys.length < s.n.toNat → s.mem.readKey sb keys.length = none →
          exec (.hist k sb) s = .fault (.unwrittenKey sb keys.length)) ∧
        (∀ key, keys.length < s.n.toNat → s.mem.readKey sb keys.length = some key →
          s.mem.readCount (digit k key) = none →
          exec (.hist k sb) s = .fault (.unwrittenCount (digit k key)))

/-- R146: OFFS is the word 3; each COUNT entry becomes the sum, modulo 2^32, of the entries below it; no key
word and nothing else changes but STATUS; the first UNWRITTEN entry is a fault. -/
def Obligations.OffsIsTheExclusivePrefixSum : Prop :=
  (∀ v : Data, decodeCommand v = .ok .offs ↔ v = 3#64) ∧
  ∀ s : State,
    (∀ c : Digit → Idx, (∀ d, s.mem.readCount d = some (c d)) → ∃ m : Memory,
      exec .offs s = .next (State.finish { s with mem := m } .none) ∧
      (∀ d, m.readCount d = some (BitVec.ofNat 32
        (∑ e ∈ Finset.range d.toNat, (c (BitVec.ofNat 8 e)).toNat))) ∧
      m.bank0 = s.mem.bank0 ∧ m.bank1 = s.mem.bank1) ∧
    (∀ d : Digit, s.mem.readCount d = none → (∀ e : Digit, e < d → s.mem.readCount e ≠ none) →
      exec .offs s = .fault (.unwrittenCount d))

/-- The pseudocode of R146, run as the loop it is, gives what OFFS does: the model's one walk over the table
refines it. -/
def Obligations.OffsRefinesItsPseudocodeLoop : Prop :=
  ∀ m : Memory, offsBody m = (loopFrom offsIteration 256 0 (m, 0#32)).andThen fun w => .ok w.1

/-- R149: SCAT places key i of the source bank at the offset its digit's entry holds by then, and adds 1 to
the entry. If every offset is below N it succeeds; at the first that is not, it ends with SCATTER_BOUNDS, with
exactly the placements of the earlier keys. CAPACITY and BANK_CONFLICT come before any write; the first
UNWRITTEN word it reads is a fault. -/
def Obligations.ScatPlacesKeysAtTheirOffsets : Prop :=
  ∀ (k : BitVec 3) (sb db : BankId),
    (∀ v : Data, decodeCommand v = .ok (.scat k sb db) ↔ v = commandValue 0x04#8 k sb db) ∧
    ∀ s : State,
      (s.nMax < s.n → exec (.scat k sb db) s = .next (s.finish .capacity)) ∧
      (¬ s.nMax < s.n → sb = db → exec (.scat k sb db) s = .next (s.finish .bankConflict)) ∧
      ∀ (keys : List Key) (c : Digit → Idx), ¬ s.nMax < s.n → sb ≠ db → keys.length ≤ s.n.toNat →
        s.mem.Holds sb keys →
        (∀ key ∈ keys, s.mem.readCount (digit k key) = some (c (digit k key))) →
        (∀ i, i < keys.length → scatterOffset k c keys i < s.n.toNat) →
        (keys.length = s.n.toNat → ∃ m : Memory,
          exec (.scat k sb db) s = .next (State.finish { s with mem := m } .none) ∧
          ScatterEffect k sb db c keys s.mem m) ∧
        (∀ key, keys.length < s.n.toNat → s.mem.readKey sb keys.length = some key →
          s.mem.readCount (digit k key) = some (c (digit k key)) →
          s.n.toNat ≤ (c (digit k key)).toNat + histogram k keys (digit k key) → ∃ m : Memory,
            exec (.scat k sb db) s = .next (State.finish { s with mem := m } .scatterBounds) ∧
            ScatterEffect k sb db c keys s.mem m) ∧
        (keys.length < s.n.toNat → s.mem.readKey sb keys.length = none →
          exec (.scat k sb db) s = .fault (.unwrittenKey sb keys.length)) ∧
        (∀ key, keys.length < s.n.toNat → s.mem.readKey sb keys.length = some key →
          s.mem.readCount (digit k key) = none →
          exec (.scat k sb db) s = .fault (.unwrittenCount (digit k key)))

/-- R152: PASS is CLR, HIST, OFFS and SCAT, one after the other, once its checks have passed; a check that
fails ends it before CLR, with nothing changed but STATUS. -/
def Obligations.PassIsItsFourSteps : Prop :=
  ∀ (k : BitVec 3) (sb db : BankId),
    (∀ v : Data, decodeCommand v = .ok (.pass k sb db) ↔ v = commandValue 0x05#8 k sb db) ∧
    ∀ s : State,
      (s.nMax < s.n → exec (.pass k sb db) s = .next (s.finish .capacity)) ∧
      (¬ s.nMax < s.n → sb = db → exec (.pass k sb db) s = .next (s.finish .bankConflict)) ∧
      (¬ s.nMax < s.n → sb ≠ db →
        exec (.pass k sb db) s =
          thenExec (thenExec (thenExec (exec .clr s) (.hist k sb)) .offs) (.scat k sb db))

/-- R155: a scatter that starts from the exclusive prefix sums of the histogram of the same keys ends without
error and leaves in the destination the stable reordering of the keys by the digit. The j-th key of digit d
goes to index start(d) + j; no two keys go to one index, so each word below N is written once. -/
def Obligations.ScatWithMatchingOffsetsIsStable : Prop :=
  ∀ (k : BitVec 3) (sb db : BankId) (s : State) (keys : List Key),
    ¬ s.nMax < s.n → sb ≠ db → keys.length = s.n.toNat → s.mem.Holds sb keys →
    (∀ d, s.mem.readCount d = some (BitVec.ofNat 32 (startOf k keys d))) →
    ∃ (m : Memory) (sorted : List Key),
      exec (.scat k sb db) s = .next (State.finish { s with mem := m } .none) ∧
      StableBy (fun key => (digit k key).toNat) keys sorted ∧ sorted.length = keys.length ∧
      m.Holds db sorted ∧
      (∀ i j (hi : i < keys.length) (hj : j < keys.length), i ≠ j →
        startOf k keys (digit k keys[i]) + histogram k (keys.take i) (digit k keys[i]) ≠
          startOf k keys (digit k keys[j]) + histogram k (keys.take j) (digit k keys[j])) ∧
      (∀ i (h : i < keys.length),
        startOf k keys (digit k keys[i]) + histogram k (keys.take i) (digit k keys[i]) < keys.length ∧
        m.readKey db (startOf k keys (digit k keys[i]) + histogram k (keys.take i) (digit k keys[i])) =
          some keys[i])

/-- R156, R158: PASS on written keys completes; the destination bank holds their stable reordering by the
digit, a permutation of them; COUNT holds the end offsets, COUNT[255] = N; the source bank and every word at
or above N are unchanged. COUNT and the destination's words may be UNWRITTEN before it. -/
def Obligations.PassStablySortsByItsDigit : Prop :=
  ∀ (k : BitVec 3) (sb db : BankId) (s : State) (keys : List Key),
    ¬ s.nMax < s.n → sb ≠ db → keys.length = s.n.toNat → s.mem.Holds sb keys →
    ∃ (m : Memory) (sorted : List Key),
      exec (.pass k sb db) s = .next (State.finish { s with mem := m } .none) ∧
      StableBy (fun key => (digit k key).toNat) keys sorted ∧ sorted.Perm keys ∧
      m.Holds db sorted ∧
      m.bank sb = s.mem.bank sb ∧
      (∀ i, s.n.toNat ≤ i → m.readKey db i = s.mem.readKey db i) ∧
      (∀ d, m.readCount d = some (BitVec.ofNat 32 (endOf k keys d))) ∧
      m.readCount 255#8 = some s.n

/-- R157: SCATTER_BOUNDS never arises in PASS, WSORT, SORTI or SORTF, whatever the storage holds. -/
def Obligations.PassesNeverOverflow : Prop :=
  ∀ (i : Instr) (s t : State), exec i s = .next t →
    (i = .wsort ∨ i = .sorti ∨ i = .sortf ∨ ∃ k sb db, i = .pass k sb db) →
    t.status.err ≠ .scatterBounds

/-! ### The ping-pong controller (42_pingpong.md) -/

/-- R170, R171, R176: WSORT is eight passes, pass j by digit j from bank j mod 2 into the other; CAPACITY if
N > N_MAX, before the first pass. -/
def Obligations.WsortIsEightPingPongPasses : Prop :=
  (∀ v : Data, decodeCommand v = .ok .wsort ↔ v = 6#64) ∧
  ∀ s : State,
    (s.nMax < s.n → exec .wsort s = .next (s.finish .capacity)) ∧
    (¬ s.nMax < s.n →
      exec .wsort s =
        [Instr.pass 1#3 .b1 .b0, .pass 2#3 .b0 .b1, .pass 3#3 .b1 .b0, .pass 4#3 .b0 .b1,
          .pass 5#3 .b1 .b0, .pass 6#3 .b0 .b1, .pass 7#3 .b1 .b0].foldl thenExec
          (exec (.pass 0#3 .b0 .b1) s))

/-- R173: WSORT on written keys completes, and BANK[0][0..N-1] is then the unsigned-ascending permutation of
its starting contents. BANK[1] and COUNT may be UNWRITTEN before it. -/
def Obligations.WsortSortsUnsigned : Prop :=
  ∀ (s : State) (keys : List Key), ¬ s.nMax < s.n → keys.length = s.n.toNat → s.mem.Holds .b0 keys →
    ∃ (m : Memory) (sorted : List Key),
      exec .wsort s = .next (State.finish { s with mem := m } .none) ∧
      sorted.Perm keys ∧ UnsignedAscending sorted ∧ m.Holds .b0 sorted

/-- R174: after WSORT, BANK[1][0..N-1] holds the keys stably sorted by bits [55:0], and COUNT[d] is the number
of keys whose top byte is at most d. -/
def Obligations.WsortLeavesScratchAndCount : Prop :=
  ∀ (s : State) (keys : List Key), ¬ s.nMax < s.n → keys.length = s.n.toNat → s.mem.Holds .b0 keys →
    ∃ (m : Memory) (scratch : List Key),
      exec .wsort s = .next (State.finish { s with mem := m } .none) ∧
      StableBy (fun key => (key.extractLsb' 0 56).toNat) keys scratch ∧
      scratch.length = keys.length ∧ m.Holds .b1 scratch ∧
      (∀ d, m.readCount d = some (BitVec.ofNat 32 (endOf 7#3 keys d)))

/-- R175: WSORT of an unsigned-ascending sequence leaves it identical, and WSORT of any sequence leaves its
multiset unchanged. -/
def Obligations.WsortIsIdempotentAndPermutes : Prop :=
  ∀ (s t : State) (keys : List Key), keys.length = s.n.toNat → s.mem.Holds .b0 keys →
    exec .wsort s = .next t → t.status.err = .none →
    (UnsignedAscending keys → t.mem.Holds .b0 keys) ∧
    (∀ after : List Key, after.length = s.n.toNat → t.mem.Holds .b0 after → after.Perm keys)

/-! ### Reversal, rotation, sign boundary (43_sequence_ops.md) -/

/-- R180: REV reverses BANK[b][FROM..TO) in place and changes nothing else but STATUS; the middle word of an
odd range is not read. CAPACITY and RANGE come before any write; a word of the range that is read while
UNWRITTEN is a fault. -/
def Obligations.RevReversesTheRange : Prop :=
  ∀ b : BankId,
    (∀ v : Data, decodeCommand v = .ok (.rev b) ↔ v = commandValue 0x07#8 0#3 b .b0) ∧
    ∀ s : State,
      (s.nMax < s.n → exec (.rev b) s = .next (s.finish .capacity)) ∧
      (¬ s.nMax < s.n → ¬(s.fromReg ≤ s.toReg ∧ s.toReg ≤ s.n) →
        exec (.rev b) s = .next (s.finish .range)) ∧
      ∀ f t : Nat, f = s.fromReg.toNat → t = s.toReg.toNat → ¬ s.nMax < s.n → f ≤ t → t ≤ s.n.toNat →
        ((∀ q, q < t - f → 2 * q + 1 ≠ t - f → s.mem.readKey b (f + q) ≠ none) → ∃ m : Memory,
          exec (.rev b) s = .next (State.finish { s with mem := m } .none) ∧
          (∀ q, q < t - f → m.readKey b (f + q) = s.mem.readKey b (t - 1 - q)) ∧
          ChangesOnlyRange b f t s.mem m) ∧
        ((∃ q, q < t - f ∧ 2 * q + 1 ≠ t - f ∧ s.mem.readKey b (f + q) = none) →
          ∃ i, f ≤ i ∧ i < t ∧ s.mem.readKey b i = none ∧ exec (.rev b) s = .fault (.unwrittenKey b i))

/-- R183: ROT puts B = [MID, TO) before A = [FROM, MID), each block in its own order, and changes nothing else
but STATUS. CAPACITY and RANGE come before any write. An UNWRITTEN word that one of its reversals reads is a
fault (R22): any word of the range but an odd range's middle one, and that one too when neither block is empty.
With an empty block the middle word may be UNWRITTEN, and the range is unchanged (R180). -/
def Obligations.RotPutsTheSecondBlockFirst : Prop :=
  ∀ b : BankId,
    (∀ v : Data, decodeCommand v = .ok (.rot b) ↔ v = commandValue 0x08#8 0#3 b .b0) ∧
    ∀ s : State,
      (s.nMax < s.n → exec (.rot b) s = .next (s.finish .capacity)) ∧
      (¬ s.nMax < s.n → ¬(s.fromReg ≤ s.mid ∧ s.mid ≤ s.toReg ∧ s.toReg ≤ s.n) →
        exec (.rot b) s = .next (s.finish .range)) ∧
      ∀ f p t : Nat, f = s.fromReg.toNat → p = s.mid.toNat → t = s.toReg.toNat → ¬ s.nMax < s.n →
        f ≤ p → p ≤ t → t ≤ s.n.toNat →
        ((∀ i, RotReads f p t i → s.mem.readKey b i ≠ none) → ∃ m : Memory,
          exec (.rot b) s = .next (State.finish { s with mem := m } .none) ∧
          (∀ q, q < t - p → m.readKey b (f + q) = s.mem.readKey b (p + q)) ∧
          (∀ q, q < p - f → m.readKey b (f + (t - p) + q) = s.mem.readKey b (f + q)) ∧
          (f = p ∨ p = t → ∀ i, m.readKey b i = s.mem.readKey b i) ∧
          ChangesOnlyRange b f t s.mem m) ∧
        ((∃ i, RotReads f p t i ∧ s.mem.readKey b i = none) →
          ∃ i, RotReads f p t i ∧ s.mem.readKey b i = none ∧
            exec (.rot b) s = .fault (.unwrittenKey b i))

/-- R188: REV twice with the same FROM and TO restores the range, and a ROT is undone by a ROT with
MID = FROM + (TO - MID). -/
def Obligations.ReversalAndRotationAreUndone : Prop :=
  (∀ (b : BankId) (s t u : State), exec (.rev b) s = .next t → exec (.rev b) t = .next u →
    ∀ i, u.mem.readKey b i = s.mem.readKey b i) ∧
  (∀ (b : BankId) (s t u : State), exec (.rot b) s = .next t → t.status.err = .none →
    exec (.rot b) { t with mid := t.fromReg + (t.toReg - t.mid) } = .next u →
    u.status.err = .none ∧ ∀ i, u.mem.readKey b i = s.mem.readKey b i) ∧
  (∀ (b : BankId) (s t : State) (before after : List Key), exec (.rot b) s = .next t →
    before.length = s.n.toNat → after.length = s.n.toNat → s.mem.Holds b before → t.mem.Holds b after →
    after.Perm before)

/-- R186: SIGNB writes to RESULT the first index below N whose key has top bit 1, or N if there is none, and
reads no word after it; no key word or COUNT entry changes. CAPACITY leaves RESULT alone; an UNWRITTEN word it
reads is a fault. -/
def Obligations.SignbFindsTheFirstTopBit : Prop :=
  ∀ b : BankId,
    (∀ v : Data, decodeCommand v = .ok (.signb b) ↔ v = commandValue 0x09#8 0#3 b .b0) ∧
    ∀ s : State,
      (s.nMax < s.n → exec (.signb b) s = .next (s.finish .capacity)) ∧
      ∀ keys : List Key, ¬ s.nMax < s.n → keys.length ≤ s.n.toNat → s.mem.Holds b keys →
        (∀ key ∈ keys, key.getLsbD 63 = false) →
        (keys.length = s.n.toNat →
          exec (.signb b) s = .next (State.finish { s with result := s.n } .none)) ∧
        (∀ key, keys.length < s.n.toNat → s.mem.readKey b keys.length = some key →
          key.getLsbD 63 = true →
          exec (.signb b) s =
            .next (State.finish { s with result := BitVec.ofNat 32 keys.length } .none)) ∧
        (keys.length < s.n.toNat → s.mem.readKey b keys.length = none →
          exec (.signb b) s = .fault (.unwrittenKey b keys.length))

/-- R187: on an unsigned-ascending bank, RESULT separates the keys with top bit 0 from those with top bit 1,
and is the number of keys with top bit 0. -/
def Obligations.SignBoundarySeparatesSortedKeys : Prop :=
  ∀ (b : BankId) (s : State) (keys : List Key), ¬ s.nMax < s.n → keys.length = s.n.toNat →
    s.mem.Holds b keys → UnsignedAscending keys →
    ∃ r : Idx, exec (.signb b) s = .next (State.finish { s with result := r } .none) ∧
      r.toNat = keys.countP (fun key => !key.getLsbD 63) ∧
      (∀ i (h : i < keys.length), i < r.toNat → keys[i].getLsbD 63 = false) ∧
      (∀ i (h : i < keys.length), r.toNat ≤ i → keys[i].getLsbD 63 = true)

/-! ### The composite sorts (44_composite_sorts.md) -/

/-- R200, R201: SORTI on written keys leaves in BANK[0] the keys with top bit 1, then those with top bit 0,
each block unsigned-ascending: the signed-ascending permutation of the keys; RESULT is the number of
non-negative keys. Words at or above N are unchanged, and so is every register but RESULT and STATUS; BANK[1]
and COUNT are as the WSORT step leaves them. The first of the N key words that is UNWRITTEN is a fault (R22). -/
def Obligations.SortiSortsSigned : Prop :=
  (∀ v : Data, decodeCommand v = .ok .sorti ↔ v = 10#64) ∧
  ∀ s : State,
    (s.nMax < s.n → exec .sorti s = .next (s.finish .capacity)) ∧
    (∀ keys : List Key, ¬ s.nMax < s.n → keys.length = s.n.toNat → s.mem.Holds .b0 keys →
      ∃ (m : Memory) (blockB blockA : List Key),
        exec .sorti s = .next
          (State.finish { s with mem := m, result := BitVec.ofNat 32 blockA.length } .none) ∧
        (blockB ++ blockA).Perm keys ∧ m.Holds .b0 (blockB ++ blockA) ∧
        (∀ key ∈ blockB, key.getLsbD 63 = true) ∧ (∀ key ∈ blockA, key.getLsbD 63 = false) ∧
        UnsignedAscending blockB ∧ UnsignedAscending blockA ∧ SignedAscending (blockB ++ blockA) ∧
        blockA.length = keys.countP (fun key => !key.getLsbD 63) ∧
        (∀ b i, s.n.toNat ≤ i → m.readKey b i = s.mem.readKey b i) ∧
        (∃ u, exec .wsort s = .next u ∧ m.bank1 = u.mem.bank1 ∧ m.count = u.mem.count)) ∧
    (∀ keys : List Key, ¬ s.nMax < s.n → keys.length < s.n.toNat → s.mem.Holds .b0 keys →
      s.mem.readKey .b0 keys.length = none → exec .sorti s = .fault (.unwrittenKey .b0 keys.length))

/-- R204, R205: SORTF on written keys leaves in BANK[0] the keys with sign bit 1 in descending order of bit
pattern, then those with sign bit 0 in ascending order; RESULT is the number of keys with sign bit 0. Words at
or above N are unchanged, and so is every register but RESULT and STATUS; BANK[1] and COUNT are as the WSORT
step leaves them. The first of the N key words that is UNWRITTEN is a fault (R22). -/
def Obligations.SortfSortsInFloatOrder : Prop :=
  (∀ v : Data, decodeCommand v = .ok .sortf ↔ v = 11#64) ∧
  ∀ s : State,
    (s.nMax < s.n → exec .sortf s = .next (s.finish .capacity)) ∧
    (∀ keys : List Key, ¬ s.nMax < s.n → keys.length = s.n.toNat → s.mem.Holds .b0 keys →
      ∃ (m : Memory) (blockB blockA : List Key),
        exec .sortf s = .next
          (State.finish { s with mem := m, result := BitVec.ofNat 32 blockA.length } .none) ∧
        (blockB.reverse ++ blockA).Perm keys ∧ m.Holds .b0 (blockB.reverse ++ blockA) ∧
        (∀ key ∈ blockB, key.getLsbD 63 = true) ∧ (∀ key ∈ blockA, key.getLsbD 63 = false) ∧
        UnsignedAscending blockB ∧ UnsignedAscending blockA ∧
        blockA.length = keys.countP (fun key => !key.getLsbD 63) ∧
        (∀ b i, s.n.toNat ≤ i → m.readKey b i = s.mem.readKey b i) ∧
        (∃ u, exec .wsort s = .next u ∧ m.bank1 = u.mem.bank1 ∧ m.count = u.mem.count)) ∧
    (∀ keys : List Key, ¬ s.nMax < s.n → keys.length < s.n.toNat → s.mem.Holds .b0 keys →
      s.mem.readKey .b0 keys.length = none → exec .sortf s = .fault (.unwrittenKey .b0 keys.length))

/-- R207: after SORTF, when -0.0 (0x8000000000000000) and +0.0 are both among the keys, a -0.0 stands directly
before a +0.0, and no other pattern comes between the two: a -0.0 that another pattern follows is followed by
+0.0, and a +0.0 that another pattern precedes is preceded by -0.0. Keys with sign bit 1 precede keys with sign
bit 0; the former, the negative NaNs among them, are in descending bit pattern, and the latter, the positive
NaNs among them, in ascending bit pattern. -/
def Obligations.ZeroAndNanOrderAfterSortf : Prop :=
  ∀ (s t : State) (after : List Key), exec .sortf s = .next t → t.status.err = .none →
    after.length = s.n.toNat → t.mem.Holds .b0 after →
    (0x8000000000000000#64 ∈ after → 0#64 ∈ after →
      (∃ i, ∃ h : i + 1 < after.length, after[i] = 0x8000000000000000#64 ∧ after[i + 1] = 0#64) ∧
      (∀ i (h : i + 1 < after.length), after[i] = 0x8000000000000000#64 →
        after[i + 1] ≠ 0x8000000000000000#64 → after[i + 1] = 0#64) ∧
      (∀ i (h : i + 1 < after.length), after[i + 1] = 0#64 →
        after[i] ≠ 0#64 → after[i] = 0x8000000000000000#64)) ∧
    (∀ i j (hi : i < after.length) (hj : j < after.length), i < j →
      (after[j].getLsbD 63 = true → after[i].getLsbD 63 = true) ∧
      (after[i].getLsbD 63 = true → after[j].getLsbD 63 = true → after[j].toNat ≤ after[i].toNat) ∧
      (after[i].getLsbD 63 = false → after[j].getLsbD 63 = false → after[i].toNat ≤ after[j].toNat))

/-- The order of R206: after SORTF the keys that are no NaN ascend as binary64 values, every negative NaN comes
before all other keys and every positive NaN after them. The binary64 layout is general knowledge in the spec
(93_implementation_defined.md G1) and PRESUMED here (notes/assumptions/15.md). -/
def Obligations.SortfFollowsFloatValueAndNanSign : Prop :=
  ∀ (s t : State) (after : List Key), exec .sortf s = .next t → t.status.err = .none →
    after.length = s.n.toNat → t.mem.Holds .b0 after →
    ∀ i j (hi : i < after.length) (hj : j < after.length), i < j →
      (isNaN after[i] = false → isNaN after[j] = false → floatValue after[i] ≤ floatValue after[j]) ∧
      (isNaN after[j] = true → top after[j] = true → isNaN after[i] = true ∧ top after[i] = true) ∧
      (isNaN after[i] = true → top after[i] = false → isNaN after[j] = true ∧ top after[j] = false)

/-- R208: SORTI and SORTF leave in BANK[1] and COUNT what WSORT leaves there on the same state. -/
def Obligations.CompositeSortsLeaveWsortScratch : Prop :=
  ∀ (s t u : State) (i : Instr), i = .sorti ∨ i = .sortf → exec .wsort s = .next u →
    exec i s = .next t → t.mem.bank1 = u.mem.bank1 ∧ t.mem.count = u.mem.count

/-- R209: the host programs `WSORT; SIGNB b0; WR FROM, 0; WR MID, RESULT; WR TO, N; ROT b0` and, for SORTF,
`WR FROM, 0; WR TO, N - RESULT; REV b0` after it leave BANK[0], BANK[1], COUNT and RESULT as SORTI and SORTF
do. The programs leave their values in FROM, MID and TO; SORTI and SORTF do not write these. -/
def Obligations.CompositeSortsEqualTheirHostPrograms : Prop :=
  ∀ (s : State) (keys : List Key), ¬ s.nMax < s.n → keys.length = s.n.toNat → s.mem.Holds .b0 keys →
    ∃ t u v ti tf : State,
      thenExec (exec .wsort s) (.signb .b0) = .next t ∧
      [Instr.hwr 0x05#8 0#64, .hwr 0x06#8 (t.result.setWidth 64), .hwr 0x07#8 (s.n.setWidth 64),
        .rot .b0].foldl thenExec (.next t) = .next u ∧
      [Instr.hwr 0x05#8 0#64, .hwr 0x07#8 ((s.n - t.result).setWidth 64), .rev .b0].foldl thenExec
        (.next u) = .next v ∧
      exec .sorti s = .next ti ∧ ti.mem = u.mem ∧ ti.result = u.result ∧
      exec .sortf s = .next tf ∧ tf.mem = v.mem ∧ tf.result = v.result ∧
      u.fromReg = 0#32 ∧ u.mid = t.result ∧ u.toReg = s.n ∧
      v.fromReg = 0#32 ∧ v.mid = t.result ∧ v.toReg = s.n - t.result ∧
      ti.fromReg = s.fromReg ∧ ti.mid = s.mid ∧ ti.toReg = s.toReg ∧
      tf.fromReg = s.fromReg ∧ tf.mid = s.mid ∧ tf.toReg = s.toReg

/-! ### UNWRITTEN words -/

/-- A fault is always the read of a word that is UNWRITTEN in the state the step starts from, by the host or by
a command (R22); nothing else stops a step, and no step is refused. -/
def Obligations.StepsStopOnlyAtUnwrittenWords : Prop :=
  ∀ s : State,
    (∀ b i, step s = .fault (.unwrittenKey b i) → s.mem.readKey b i = none) ∧
    (∀ d, step s = .fault (.unwrittenCount d) → s.mem.readCount d = none) ∧
    (∀ r, step s ≠ .refused r)

/-- A busy engine that has no other turn scheduled before it completes: this is the model's choice
(notes/assumptions/2.md), its form of the weak fairness that R127 assumes and no rule of the spec. What R127
says, the second clause: the completion step, once taken, ends; the block is then idle with DONE = 1, unless a
word the command reads is UNWRITTEN. -/
def Obligations.BusyEngineCompletesOnItsTurn : Prop :=
  (∀ s : State, s.status.busy = true → s.turns = [] → s.nextTurn = .engine) ∧
  (∀ s : State, s.status.busy = true → s.nextTurn = .engine →
    (∃ t, step s = .next t ∧ t.status.busy = false ∧ t.status.done = true) ∨
    (∃ b i, s.mem.readKey b i = none ∧ step s = .fault (.unwrittenKey b i)) ∨
    (∃ d, s.mem.readCount d = none ∧ step s = .fault (.unwrittenCount d)))
end

