-- ==== Sys2Proof/Laws/State.lean ====
section
/-! SUPPORT. The fields of a state after each named update: one lemma per field, so that no proof unfolds an
update. -/

namespace Sys2Proof.Machine

variable (s : State)

/-! ### Status updates -/

@[simp] theorem Status.issued_busy (st : Status) : (st.issued).busy = true := rfl
@[simp] theorem Status.issued_done (st : Status) : (st.issued).done = false := rfl
@[simp] theorem Status.issued_ovr (st : Status) : (st.issued).ovr = st.ovr := rfl
@[simp] theorem Status.issued_kerr (st : Status) : (st.issued).kerr = st.kerr := rfl
@[simp] theorem Status.issued_err (st : Status) : (st.issued).err = .none := rfl

@[simp] theorem Status.finished_busy (st : Status) (code : ErrCode) :
    (st.finished code).busy = false := rfl
@[simp] theorem Status.finished_done (st : Status) (code : ErrCode) :
    (st.finished code).done = true := rfl
@[simp] theorem Status.finished_ovr (st : Status) (code : ErrCode) :
    (st.finished code).ovr = st.ovr := rfl
@[simp] theorem Status.finished_kerr (st : Status) (code : ErrCode) :
    (st.finished code).kerr = st.kerr := rfl
@[simp] theorem Status.finished_err (st : Status) (code : ErrCode) :
    (st.finished code).err = code := rfl

@[simp] theorem Status.acknowledged_busy (st : Status) (data : Data) :
    (st.acknowledged data).busy = st.busy := rfl
@[simp] theorem Status.acknowledged_done (st : Status) (data : Data) :
    (st.acknowledged data).done = (st.done && !data.getLsbD 1) := rfl
@[simp] theorem Status.acknowledged_ovr (st : Status) (data : Data) :
    (st.acknowledged data).ovr = (st.ovr && !data.getLsbD 2) := rfl
@[simp] theorem Status.acknowledged_kerr (st : Status) (data : Data) :
    (st.acknowledged data).kerr = (st.kerr && !data.getLsbD 3) := rfl
@[simp] theorem Status.acknowledged_err (st : Status) (data : Data) :
    (st.acknowledged data).err = st.err := rfl

@[simp] theorem Status.refusing_busy (st : Status) : (st.refusing).busy = st.busy := rfl
@[simp] theorem Status.refusing_done (st : Status) : (st.refusing).done = st.done := rfl
@[simp] theorem Status.refusing_ovr (st : Status) : (st.refusing).ovr = true := rfl
@[simp] theorem Status.refusing_kerr (st : Status) : (st.refusing).kerr = st.kerr := rfl
@[simp] theorem Status.refusing_err (st : Status) : (st.refusing).err = st.err := rfl

@[simp] theorem Status.keyError_busy (st : Status) : (st.keyError).busy = st.busy := rfl
@[simp] theorem Status.keyError_done (st : Status) : (st.keyError).done = st.done := rfl
@[simp] theorem Status.keyError_ovr (st : Status) : (st.keyError).ovr = st.ovr := rfl
@[simp] theorem Status.keyError_kerr (st : Status) : (st.keyError).kerr = true := rfl
@[simp] theorem Status.keyError_err (st : Status) : (st.keyError).err = st.err := rfl

/-- Finishing twice is finishing with the last code. -/
@[simp] theorem Status.finished_finished (st : Status) (code code' : ErrCode) :
    (st.finished code).finished code' = st.finished code' := rfl

/-! ### `State.finish` (R124) -/

@[simp] theorem State.finish_nMax (code : ErrCode) : (s.finish code).nMax = s.nMax := rfl
@[simp] theorem State.finish_ie (code : ErrCode) : (s.finish code).ie = s.ie := rfl
@[simp] theorem State.finish_status (code : ErrCode) :
    (s.finish code).status = s.status.finished code := rfl
@[simp] theorem State.finish_lastCmd (code : ErrCode) : (s.finish code).lastCmd = s.lastCmd := rfl
@[simp] theorem State.finish_n (code : ErrCode) : (s.finish code).n = s.n := rfl
@[simp] theorem State.finish_fromReg (code : ErrCode) : (s.finish code).fromReg = s.fromReg := rfl
@[simp] theorem State.finish_mid (code : ErrCode) : (s.finish code).mid = s.mid := rfl
@[simp] theorem State.finish_toReg (code : ErrCode) : (s.finish code).toReg = s.toReg := rfl
@[simp] theorem State.finish_result (code : ErrCode) : (s.finish code).result = s.result := rfl
@[simp] theorem State.finish_kbank (code : ErrCode) : (s.finish code).kbank = s.kbank := rfl
@[simp] theorem State.finish_kaddr (code : ErrCode) : (s.finish code).kaddr = s.kaddr := rfl
@[simp] theorem State.finish_caddr (code : ErrCode) : (s.finish code).caddr = s.caddr := rfl
@[simp] theorem State.finish_mem (code : ErrCode) : (s.finish code).mem = s.mem := rfl
@[simp] theorem State.finish_readData (code : ErrCode) :
    (s.finish code).readData = s.readData := rfl
@[simp] theorem State.finish_queue (code : ErrCode) : (s.finish code).queue = s.queue := rfl
@[simp] theorem State.finish_turns (code : ErrCode) : (s.finish code).turns = s.turns := rfl

/-! ### `State.acknowledge` (R29) -/

@[simp] theorem State.acknowledge_nMax (data : Data) : (s.acknowledge data).nMax = s.nMax := rfl
@[simp] theorem State.acknowledge_ie (data : Data) : (s.acknowledge data).ie = s.ie := rfl
@[simp] theorem State.acknowledge_status (data : Data) :
    (s.acknowledge data).status = s.status.acknowledged data := rfl
@[simp] theorem State.acknowledge_lastCmd (data : Data) :
    (s.acknowledge data).lastCmd = s.lastCmd := rfl
@[simp] theorem State.acknowledge_n (data : Data) : (s.acknowledge data).n = s.n := rfl
@[simp] theorem State.acknowledge_fromReg (data : Data) :
    (s.acknowledge data).fromReg = s.fromReg := rfl
@[simp] theorem State.acknowledge_mid (data : Data) : (s.acknowledge data).mid = s.mid := rfl
@[simp] theorem State.acknowledge_toReg (data : Data) : (s.acknowledge data).toReg = s.toReg := rfl
@[simp] theorem State.acknowledge_result (data : Data) :
    (s.acknowledge data).result = s.result := rfl
@[simp] theorem State.acknowledge_kbank (data : Data) : (s.acknowledge data).kbank = s.kbank := rfl
@[simp] theorem State.acknowledge_kaddr (data : Data) : (s.acknowledge data).kaddr = s.kaddr := rfl
@[simp] theorem State.acknowledge_caddr (data : Data) : (s.acknowledge data).caddr = s.caddr := rfl
@[simp] theorem State.acknowledge_mem (data : Data) : (s.acknowledge data).mem = s.mem := rfl
@[simp] theorem State.acknowledge_readData (data : Data) :
    (s.acknowledge data).readData = s.readData := rfl
@[simp] theorem State.acknowledge_queue (data : Data) : (s.acknowledge data).queue = s.queue := rfl
@[simp] theorem State.acknowledge_turns (data : Data) : (s.acknowledge data).turns = s.turns := rfl

/-! ### `State.issue` (R120) -/

@[simp] theorem State.issue_nMax (v : Data) : (s.issue v).nMax = s.nMax := rfl
@[simp] theorem State.issue_ie (v : Data) : (s.issue v).ie = s.ie := rfl
@[simp] theorem State.issue_status (v : Data) : (s.issue v).status = s.status.issued := rfl
@[simp] theorem State.issue_lastCmd (v : Data) : (s.issue v).lastCmd = v := rfl
@[simp] theorem State.issue_n (v : Data) : (s.issue v).n = s.n := rfl
@[simp] theorem State.issue_fromReg (v : Data) : (s.issue v).fromReg = s.fromReg := rfl
@[simp] theorem State.issue_mid (v : Data) : (s.issue v).mid = s.mid := rfl
@[simp] theorem State.issue_toReg (v : Data) : (s.issue v).toReg = s.toReg := rfl
@[simp] theorem State.issue_result (v : Data) : (s.issue v).result = s.result := rfl
@[simp] theorem State.issue_kbank (v : Data) : (s.issue v).kbank = s.kbank := rfl
@[simp] theorem State.issue_kaddr (v : Data) : (s.issue v).kaddr = s.kaddr := rfl
@[simp] theorem State.issue_caddr (v : Data) : (s.issue v).caddr = s.caddr := rfl
@[simp] theorem State.issue_mem (v : Data) : (s.issue v).mem = s.mem := rfl
@[simp] theorem State.issue_readData (v : Data) : (s.issue v).readData = s.readData := rfl
@[simp] theorem State.issue_queue (v : Data) : (s.issue v).queue = s.queue := rfl
@[simp] theorem State.issue_turns (v : Data) : (s.issue v).turns = s.turns := rfl

/-! ### `State.returning` (R60) -/

@[simp] theorem State.returning_nMax (v : Data) : (s.returning v).nMax = s.nMax := rfl
@[simp] theorem State.returning_ie (v : Data) : (s.returning v).ie = s.ie := rfl
@[simp] theorem State.returning_status (v : Data) : (s.returning v).status = s.status := rfl
@[simp] theorem State.returning_lastCmd (v : Data) : (s.returning v).lastCmd = s.lastCmd := rfl
@[simp] theorem State.returning_n (v : Data) : (s.returning v).n = s.n := rfl
@[simp] theorem State.returning_fromReg (v : Data) : (s.returning v).fromReg = s.fromReg := rfl
@[simp] theorem State.returning_mid (v : Data) : (s.returning v).mid = s.mid := rfl
@[simp] theorem State.returning_toReg (v : Data) : (s.returning v).toReg = s.toReg := rfl
@[simp] theorem State.returning_result (v : Data) : (s.returning v).result = s.result := rfl
@[simp] theorem State.returning_kbank (v : Data) : (s.returning v).kbank = s.kbank := rfl
@[simp] theorem State.returning_kaddr (v : Data) : (s.returning v).kaddr = s.kaddr := rfl
@[simp] theorem State.returning_caddr (v : Data) : (s.returning v).caddr = s.caddr := rfl
@[simp] theorem State.returning_mem (v : Data) : (s.returning v).mem = s.mem := rfl
@[simp] theorem State.returning_readData (v : Data) : (s.returning v).readData = v := rfl
@[simp] theorem State.returning_queue (v : Data) : (s.returning v).queue = s.queue := rfl
@[simp] theorem State.returning_turns (v : Data) : (s.returning v).turns = s.turns := rfl

/-! ### `State.refuseWrite` (R64) -/

@[simp] theorem State.refuseWrite_nMax : (s.refuseWrite).nMax = s.nMax := rfl
@[simp] theorem State.refuseWrite_ie : (s.refuseWrite).ie = s.ie := rfl
@[simp] theorem State.refuseWrite_status : (s.refuseWrite).status = s.status.refusing := rfl
@[simp] theorem State.refuseWrite_lastCmd : (s.refuseWrite).lastCmd = s.lastCmd := rfl
@[simp] theorem State.refuseWrite_n : (s.refuseWrite).n = s.n := rfl
@[simp] theorem State.refuseWrite_fromReg : (s.refuseWrite).fromReg = s.fromReg := rfl
@[simp] theorem State.refuseWrite_mid : (s.refuseWrite).mid = s.mid := rfl
@[simp] theorem State.refuseWrite_toReg : (s.refuseWrite).toReg = s.toReg := rfl
@[simp] theorem State.refuseWrite_result : (s.refuseWrite).result = s.result := rfl
@[simp] theorem State.refuseWrite_kbank : (s.refuseWrite).kbank = s.kbank := rfl
@[simp] theorem State.refuseWrite_kaddr : (s.refuseWrite).kaddr = s.kaddr := rfl
@[simp] theorem State.refuseWrite_caddr : (s.refuseWrite).caddr = s.caddr := rfl
@[simp] theorem State.refuseWrite_mem : (s.refuseWrite).mem = s.mem := rfl
@[simp] theorem State.refuseWrite_readData : (s.refuseWrite).readData = s.readData := rfl
@[simp] theorem State.refuseWrite_queue : (s.refuseWrite).queue = s.queue := rfl
@[simp] theorem State.refuseWrite_turns : (s.refuseWrite).turns = s.turns := rfl

/-! ### `State.refuseRead` (R64) -/

@[simp] theorem State.refuseRead_nMax : (s.refuseRead).nMax = s.nMax := rfl
@[simp] theorem State.refuseRead_ie : (s.refuseRead).ie = s.ie := rfl
@[simp] theorem State.refuseRead_status : (s.refuseRead).status = s.status.refusing := rfl
@[simp] theorem State.refuseRead_lastCmd : (s.refuseRead).lastCmd = s.lastCmd := rfl
@[simp] theorem State.refuseRead_n : (s.refuseRead).n = s.n := rfl
@[simp] theorem State.refuseRead_fromReg : (s.refuseRead).fromReg = s.fromReg := rfl
@[simp] theorem State.refuseRead_mid : (s.refuseRead).mid = s.mid := rfl
@[simp] theorem State.refuseRead_toReg : (s.refuseRead).toReg = s.toReg := rfl
@[simp] theorem State.refuseRead_result : (s.refuseRead).result = s.result := rfl
@[simp] theorem State.refuseRead_kbank : (s.refuseRead).kbank = s.kbank := rfl
@[simp] theorem State.refuseRead_kaddr : (s.refuseRead).kaddr = s.kaddr := rfl
@[simp] theorem State.refuseRead_caddr : (s.refuseRead).caddr = s.caddr := rfl
@[simp] theorem State.refuseRead_mem : (s.refuseRead).mem = s.mem := rfl
@[simp] theorem State.refuseRead_readData : (s.refuseRead).readData = 0#64 := rfl
@[simp] theorem State.refuseRead_queue : (s.refuseRead).queue = s.queue := rfl
@[simp] theorem State.refuseRead_turns : (s.refuseRead).turns = s.turns := rfl

/-! ### `State.takeTurn` (R75) -/

@[simp] theorem State.takeTurn_nMax : (s.takeTurn).nMax = s.nMax := rfl
@[simp] theorem State.takeTurn_ie : (s.takeTurn).ie = s.ie := rfl
@[simp] theorem State.takeTurn_status : (s.takeTurn).status = s.status := rfl
@[simp] theorem State.takeTurn_lastCmd : (s.takeTurn).lastCmd = s.lastCmd := rfl
@[simp] theorem State.takeTurn_n : (s.takeTurn).n = s.n := rfl
@[simp] theorem State.takeTurn_fromReg : (s.takeTurn).fromReg = s.fromReg := rfl
@[simp] theorem State.takeTurn_mid : (s.takeTurn).mid = s.mid := rfl
@[simp] theorem State.takeTurn_toReg : (s.takeTurn).toReg = s.toReg := rfl
@[simp] theorem State.takeTurn_result : (s.takeTurn).result = s.result := rfl
@[simp] theorem State.takeTurn_kbank : (s.takeTurn).kbank = s.kbank := rfl
@[simp] theorem State.takeTurn_kaddr : (s.takeTurn).kaddr = s.kaddr := rfl
@[simp] theorem State.takeTurn_caddr : (s.takeTurn).caddr = s.caddr := rfl
@[simp] theorem State.takeTurn_mem : (s.takeTurn).mem = s.mem := rfl
@[simp] theorem State.takeTurn_readData : (s.takeTurn).readData = s.readData := rfl
@[simp] theorem State.takeTurn_queue : (s.takeTurn).queue = s.queue := rfl
@[simp] theorem State.takeTurn_turns : (s.takeTurn).turns = s.turns.tail := rfl

/-! ### `State.withIssued` (the engine executes `v` next) -/

@[simp] theorem State.withIssued_nMax (v : Data) : (s.withIssued v).nMax = s.nMax := rfl
@[simp] theorem State.withIssued_ie (v : Data) : (s.withIssued v).ie = s.ie := rfl
@[simp] theorem State.withIssued_status (v : Data) :
    (s.withIssued v).status = s.status.issued := rfl
@[simp] theorem State.withIssued_lastCmd (v : Data) : (s.withIssued v).lastCmd = v := rfl
@[simp] theorem State.withIssued_n (v : Data) : (s.withIssued v).n = s.n := rfl
@[simp] theorem State.withIssued_fromReg (v : Data) : (s.withIssued v).fromReg = s.fromReg := rfl
@[simp] theorem State.withIssued_mid (v : Data) : (s.withIssued v).mid = s.mid := rfl
@[simp] theorem State.withIssued_toReg (v : Data) : (s.withIssued v).toReg = s.toReg := rfl
@[simp] theorem State.withIssued_result (v : Data) : (s.withIssued v).result = s.result := rfl
@[simp] theorem State.withIssued_kbank (v : Data) : (s.withIssued v).kbank = s.kbank := rfl
@[simp] theorem State.withIssued_kaddr (v : Data) : (s.withIssued v).kaddr = s.kaddr := rfl
@[simp] theorem State.withIssued_caddr (v : Data) : (s.withIssued v).caddr = s.caddr := rfl
@[simp] theorem State.withIssued_mem (v : Data) : (s.withIssued v).mem = s.mem := rfl
@[simp] theorem State.withIssued_readData (v : Data) : (s.withIssued v).readData = s.readData := rfl
@[simp] theorem State.withIssued_queue (v : Data) : (s.withIssued v).queue = s.queue := rfl
@[simp] theorem State.withIssued_turns (v : Data) :
    (s.withIssued v).turns = .engine :: s.turns := rfl

/-! ### `State.withTransaction` (the host makes `w` next) -/

@[simp] theorem State.withTransaction_nMax (w : TxnWord) :
    (s.withTransaction w).nMax = s.nMax := rfl
@[simp] theorem State.withTransaction_ie (w : TxnWord) : (s.withTransaction w).ie = s.ie := rfl
@[simp] theorem State.withTransaction_status (w : TxnWord) :
    (s.withTransaction w).status = s.status := rfl
@[simp] theorem State.withTransaction_lastCmd (w : TxnWord) :
    (s.withTransaction w).lastCmd = s.lastCmd := rfl
@[simp] theorem State.withTransaction_n (w : TxnWord) : (s.withTransaction w).n = s.n := rfl
@[simp] theorem State.withTransaction_fromReg (w : TxnWord) :
    (s.withTransaction w).fromReg = s.fromReg := rfl
@[simp] theorem State.withTransaction_mid (w : TxnWord) : (s.withTransaction w).mid = s.mid := rfl
@[simp] theorem State.withTransaction_toReg (w : TxnWord) :
    (s.withTransaction w).toReg = s.toReg := rfl
@[simp] theorem State.withTransaction_result (w : TxnWord) :
    (s.withTransaction w).result = s.result := rfl
@[simp] theorem State.withTransaction_kbank (w : TxnWord) :
    (s.withTransaction w).kbank = s.kbank := rfl
@[simp] theorem State.withTransaction_kaddr (w : TxnWord) :
    (s.withTransaction w).kaddr = s.kaddr := rfl
@[simp] theorem State.withTransaction_caddr (w : TxnWord) :
    (s.withTransaction w).caddr = s.caddr := rfl
@[simp] theorem State.withTransaction_mem (w : TxnWord) : (s.withTransaction w).mem = s.mem := rfl
@[simp] theorem State.withTransaction_readData (w : TxnWord) :
    (s.withTransaction w).readData = s.readData := rfl
@[simp] theorem State.withTransaction_queue (w : TxnWord) :
    (s.withTransaction w).queue = w :: s.queue := rfl
@[simp] theorem State.withTransaction_turns (w : TxnWord) :
    (s.withTransaction w).turns = .host :: s.turns := rfl

/-! ### `State.softReset` (R252, R253) -/

@[simp] theorem State.softReset_nMax : (s.softReset).nMax = s.nMax := rfl
@[simp] theorem State.softReset_ie : (s.softReset).ie = false := rfl
@[simp] theorem State.softReset_status : (s.softReset).status = .zero := rfl
@[simp] theorem State.softReset_lastCmd : (s.softReset).lastCmd = 0#64 := rfl
@[simp] theorem State.softReset_n : (s.softReset).n = 0#32 := rfl
@[simp] theorem State.softReset_fromReg : (s.softReset).fromReg = 0#32 := rfl
@[simp] theorem State.softReset_mid : (s.softReset).mid = 0#32 := rfl
@[simp] theorem State.softReset_toReg : (s.softReset).toReg = 0#32 := rfl
@[simp] theorem State.softReset_result : (s.softReset).result = 0#32 := rfl
@[simp] theorem State.softReset_kbank : (s.softReset).kbank = .b0 := rfl
@[simp] theorem State.softReset_kaddr : (s.softReset).kaddr = 0#32 := rfl
@[simp] theorem State.softReset_caddr : (s.softReset).caddr = 0#8 := rfl
@[simp] theorem State.softReset_mem : (s.softReset).mem = s.mem.softReset s.status.busy := rfl
@[simp] theorem State.softReset_readData : (s.softReset).readData = s.readData := rfl
@[simp] theorem State.softReset_queue : (s.softReset).queue = s.queue := rfl
@[simp] theorem State.softReset_turns : (s.softReset).turns = s.turns := rfl

/-! ### `State.powerOnReset` (R250) -/

@[simp] theorem State.powerOnReset_nMax : (s.powerOnReset).nMax = s.nMax := rfl
@[simp] theorem State.powerOnReset_ie : (s.powerOnReset).ie = false := rfl
@[simp] theorem State.powerOnReset_status : (s.powerOnReset).status = .zero := rfl
@[simp] theorem State.powerOnReset_lastCmd : (s.powerOnReset).lastCmd = 0#64 := rfl
@[simp] theorem State.powerOnReset_n : (s.powerOnReset).n = 0#32 := rfl
@[simp] theorem State.powerOnReset_fromReg : (s.powerOnReset).fromReg = 0#32 := rfl
@[simp] theorem State.powerOnReset_mid : (s.powerOnReset).mid = 0#32 := rfl
@[simp] theorem State.powerOnReset_toReg : (s.powerOnReset).toReg = 0#32 := rfl
@[simp] theorem State.powerOnReset_result : (s.powerOnReset).result = 0#32 := rfl
@[simp] theorem State.powerOnReset_kbank : (s.powerOnReset).kbank = .b0 := rfl
@[simp] theorem State.powerOnReset_kaddr : (s.powerOnReset).kaddr = 0#32 := rfl
@[simp] theorem State.powerOnReset_caddr : (s.powerOnReset).caddr = 0#8 := rfl
@[simp] theorem State.powerOnReset_mem : (s.powerOnReset).mem = .unwritten := rfl
@[simp] theorem State.powerOnReset_readData : (s.powerOnReset).readData = s.readData := rfl
@[simp] theorem State.powerOnReset_queue : (s.powerOnReset).queue = s.queue := rfl
@[simp] theorem State.powerOnReset_turns : (s.powerOnReset).turns = s.turns := rfl

end Sys2Proof.Machine
end

