-- ==== Sys2Proof/Laws/Storage.lean ====
section
/-! SUPPORT. The laws of storage: a read after a write, and the canonical form of the banks. -/

namespace Sys2Proof.Machine

/-! ### One bank -/

theorem bankRead_bankWrite (bank : Bank) (i j : Nat) (v : Key) :
    bankRead (bankWrite bank i v) j = if i = j then some v else bankRead bank j := by
  induction bank with
  | nil => simp [bankWrite, bankRead]
  | cons entry rest ih =>
    obtain ⟨a, w⟩ := entry
    simp only [bankWrite]
    split
    · simp [bankRead]
    · split
      · subst_vars
        by_cases h : a = j <;> simp [bankRead, h]
      · simp only [bankRead, ih]
        by_cases h : a = j
        · have hij : ¬ i = j := by omega
          simp [h, hij]
        · simp [h]

theorem mem_bankWrite {bank : Bank} {i : Nat} {v : Key} {entry : Nat × Key}
    (h : entry ∈ bankWrite bank i v) : entry = (i, v) ∨ entry ∈ bank := by
  induction bank with
  | nil => simpa [bankWrite] using h
  | cons e rest ih =>
    obtain ⟨a, w⟩ := e
    simp only [bankWrite] at h
    split at h
    · simpa using h
    · split at h
      · rcases List.mem_cons.mp h with h | h
        · exact .inl h
        · exact .inr (List.mem_cons_of_mem _ h)
      · rcases List.mem_cons.mp h with h | h
        · exact .inr (by simp [h])
        · rcases ih h with h | h
          · exact .inl h
          · exact .inr (List.mem_cons_of_mem _ h)

/-- A write keeps a bank in canonical form. -/
theorem bankWrite_wf {bank : Bank} (h : bankWf bank = true) (i : Nat) (v : Key) :
    bankWf (bankWrite bank i v) = true := by
  simp only [bankWf, decide_eq_true_eq] at *
  induction bank with
  | nil => simp [bankWrite]
  | cons e rest ih =>
    obtain ⟨a, w⟩ := e
    obtain ⟨hhead, htail⟩ := List.pairwise_cons.mp h
    simp only [bankWrite]
    split
    · refine List.pairwise_cons.mpr ⟨fun x hx => ?_, h⟩
      rcases List.mem_cons.mp hx with rfl | hx
      · assumption
      · have := hhead x hx
        simp only at this ⊢
        omega
    · split
      · subst_vars
        exact List.pairwise_cons.mpr ⟨fun x hx => hhead x hx, htail⟩
      · refine List.pairwise_cons.mpr ⟨fun x hx => ?_, ih htail⟩
        rcases mem_bankWrite hx with rfl | hx
        · simp only
          omega
        · exact hhead x hx

/-! ### The storage -/

@[simp] theorem Memory.bank_setBank (m : Memory) (b b' : BankId) (bank : Bank) :
    (m.setBank b bank).bank b' = if b = b' then bank else m.bank b' := by
  cases b <;> cases b' <;> rfl

@[simp] theorem Memory.count_setBank (m : Memory) (b : BankId) (bank : Bank) :
    (m.setBank b bank).count = m.count := by cases b <;> rfl

@[simp] theorem Memory.count_writeKey (m : Memory) (b : BankId) (i : Nat) (v : Key) :
    (m.writeKey b i v).count = m.count := by simp [Memory.writeKey]

@[simp] theorem Memory.bank_writeCount (m : Memory) (d : Digit) (v : Idx) (b : BankId) :
    (m.writeCount d v).bank b = m.bank b := by cases b <;> rfl

theorem Memory.bank_writeKey (m : Memory) (b b' : BankId) (i : Nat) (v : Key) :
    (m.writeKey b i v).bank b' = if b = b' then bankWrite (m.bank b) i v else m.bank b' := by
  simp [Memory.writeKey]

/-- A write of one bank leaves the other alone. -/
@[simp] theorem Memory.bank_writeKey_of_ne (m : Memory) {b b' : BankId} (h : b ≠ b') (i : Nat) (v : Key) :
    (m.writeKey b i v).bank b' = m.bank b' := by simp [Memory.bank_writeKey, h]

/-- A read after a write: the word written, and every other word as before. -/
@[simp] theorem Memory.readKey_writeKey (m : Memory) (b b' : BankId) (i j : Nat) (v : Key) :
    (m.writeKey b i v).readKey b' j = if b = b' ∧ i = j then some v else m.readKey b' j := by
  unfold Memory.readKey
  rw [Memory.bank_writeKey]
  by_cases h : b = b'
  · subst h
    simp [bankRead_bankWrite]
  · simp [h]

@[simp] theorem Memory.readKey_writeCount (m : Memory) (d : Digit) (v : Idx) (b : BankId) (i : Nat) :
    (m.writeCount d v).readKey b i = m.readKey b i := by simp [Memory.readKey]

@[simp] theorem Memory.readCount_writeKey (m : Memory) (b : BankId) (i : Nat) (v : Key) (d : Digit) :
    (m.writeKey b i v).readCount d = m.readCount d := by simp [Memory.readCount]

/-- A COUNT entry after a write: the entry written, and every other entry as before. -/
@[simp] theorem Memory.readCount_writeCount (m : Memory) (d d' : Digit) (v : Idx) :
    (m.writeCount d v).readCount d' = if d = d' then some v else m.readCount d' := by
  simp only [Memory.readCount, Memory.writeCount, Vector.getElem_set, BitVec.toNat_inj]

theorem Memory.readKey_congr {m m' : Memory} {b : BankId} (h : m.bank b = m'.bank b) (i : Nat) :
    m.readKey b i = m'.readKey b i := by simp [Memory.readKey, h]

theorem Memory.readCount_congr {m m' : Memory} (h : m.count = m'.count) (d : Digit) :
    m.readCount d = m'.readCount d := by simp [Memory.readCount, h]

/-- Tables that read the same are the same. -/
theorem Memory.count_ext {m m' : Memory} (h : ∀ d, m.readCount d = m'.readCount d) :
    m.count = m'.count := by
  apply Vector.ext
  intro i hi
  have := h (BitVec.ofNat 8 i)
  simpa [Memory.readCount, Nat.mod_eq_of_lt hi] using this

/-- Storages with the same banks and the same table are the same. -/
theorem Memory.ext_banks {m m' : Memory} (hb : ∀ b, m.bank b = m'.bank b) (hc : m.count = m'.count) :
    m = m' := by
  obtain ⟨b0, b1, c⟩ := m
  obtain ⟨b0', b1', c'⟩ := m'
  have h0 := hb .b0
  have h1 := hb .b1
  simp_all [Memory.bank]

theorem Memory.wf_iff (m : Memory) : m.wf = true ↔ ∀ b, bankWf (m.bank b) = true := by
  constructor
  · intro h b
    simp only [Memory.wf, Bool.and_eq_true] at h
    cases b
    · exact h.1
    · exact h.2
  · intro h
    simp only [Memory.wf, Bool.and_eq_true]
    exact ⟨h .b0, h .b1⟩

/-- A key write keeps the canonical form. -/
theorem Memory.writeKey_wf {m : Memory} (h : m.wf = true) (b : BankId) (i : Nat) (v : Key) :
    (m.writeKey b i v).wf = true := by
  rw [Memory.wf_iff] at *
  intro b'
  rw [Memory.bank_writeKey]
  split
  · exact bankWrite_wf (h b) i v
  · exact h b'

/-- A COUNT write keeps the canonical form. -/
theorem Memory.writeCount_wf {m : Memory} (h : m.wf = true) (d : Digit) (v : Idx) :
    (m.writeCount d v).wf = true := h

theorem Memory.unwritten_wf : Memory.unwritten.wf = true := rfl

/-- The storage at reset is in canonical form. -/
theorem State.reset_mem_wf : State.reset.mem.wf = true := rfl

@[simp] theorem Memory.unwritten_readKey (b : BankId) (i : Nat) :
    Memory.unwritten.readKey b i = none := by cases b <;> rfl

@[simp] theorem Memory.unwritten_readCount (d : Digit) : Memory.unwritten.readCount d = none := by
  simp [Memory.readCount, Memory.unwritten]

/-- A soft reset keeps the canonical form. -/
theorem Memory.softReset_wf {m : Memory} (h : m.wf = true) (busy : Bool) :
    (m.softReset busy).wf = true := by
  cases busy
  · exact h
  · rfl

end Sys2Proof.Machine
end

