-- ==== Sys2Proof/Laws/Pseudocode.lean ====
section
/-! SUPPORT. The laws of pseudocode: sequencing, loops (an invariant rule and a progress rule, each an
induction made once), and what a read can do. -/

namespace Sys2Proof.Machine

variable {α β γ : Type}

@[simp] theorem Run.andThen_ok (a : α) (f : α → Run β) : (Run.ok a).andThen f = f a := rfl

@[simp] theorem Run.andThen_raised (code : ErrCode) (m : Memory) (f : α → Run β) :
    (Run.raised code m).andThen f = .raised code m := rfl

@[simp] theorem Run.andThen_fault (e : Fault) (f : α → Run β) :
    (Run.fault e).andThen f = .fault e := rfl

theorem Run.andThen_assoc (r : Run α) (f : α → Run β) (g : β → Run γ) :
    (r.andThen f).andThen g = r.andThen fun a => (f a).andThen g := by cases r <;> rfl

/-- A sequence goes on to the end exactly when both parts do. -/
theorem Run.andThen_eq_ok {r : Run α} {f : α → Run β} {b : β} :
    r.andThen f = .ok b ↔ ∃ a, r = .ok a ∧ f a = .ok b := by cases r <;> simp

/-- A sequence raises an error in one of its parts. -/
theorem Run.andThen_eq_raised {r : Run α} {f : α → Run β} {code : ErrCode} {m : Memory} :
    r.andThen f = .raised code m ↔ r = .raised code m ∨ ∃ a, r = .ok a ∧ f a = .raised code m := by
  cases r <;> simp

/-- A sequence faults in one of its parts. -/
theorem Run.andThen_eq_fault {r : Run α} {f : α → Run β} {e : Fault} :
    r.andThen f = .fault e ↔ r = .fault e ∨ ∃ a, r = .ok a ∧ f a = .fault e := by
  cases r <;> simp

@[simp] theorem loopFrom_zero (body : Nat → α → Run α) (i : Nat) (a : α) :
    loopFrom body 0 i a = .ok a := rfl

theorem loopFrom_succ (body : Nat → α → Run α) (count i : Nat) (a : α) :
    loopFrom body (count + 1) i a = (body i a).andThen (loopFrom body count (i + 1)) := rfl

/-- A loop is its first iterations followed by the rest. -/
theorem loopFrom_add (body : Nat → α → Run α) (c c' i : Nat) (a : α) :
    loopFrom body (c + c') i a = (loopFrom body c i a).andThen (loopFrom body c' (i + c)) := by
  induction c generalizing i a with
  | zero => simp
  | succ c ih =>
    rw [Nat.add_right_comm, loopFrom_succ, loopFrom_succ, Run.andThen_assoc]
    congr 1
    funext a'
    rw [ih, Nat.add_right_comm, Nat.add_assoc]

/-- The progress rule: if every iteration goes on and keeps the property, the loop goes on and ends with it. -/
theorem loopFrom_ok {body : Nat → α → Run α} {P : Nat → α → Prop} {count i : Nat} {a : α}
    (start : P i a)
    (body_ok : ∀ j a, i ≤ j → j < i + count → P j a → ∃ a', body j a = .ok a' ∧ P (j + 1) a') :
    ∃ a', loopFrom body count i a = .ok a' ∧ P (i + count) a' := by
  induction count generalizing i a with
  | zero => exact ⟨a, rfl, start⟩
  | succ count ih =>
    obtain ⟨a₁, hb, h₁⟩ := body_ok i a le_rfl (by omega) start
    obtain ⟨a', hl, h'⟩ := ih h₁ fun j a hj hj' h => body_ok j a (by omega) (by omega) h
    exact ⟨a', by rw [loopFrom_succ, hb]; exact hl, by rwa [Nat.add_right_comm] at h'⟩

/-- The three ways a loop whose iterations keep a property can end: it goes on with the property, or an
iteration that starts from it raises an error or faults. -/
theorem loopFrom_cases {body : Nat → α → Run α} {P : Nat → α → Prop} {count i : Nat} {a : α}
    (start : P i a)
    (keeps : ∀ j a a', i ≤ j → j < i + count → P j a → body j a = .ok a' → P (j + 1) a') :
    (∃ a', loopFrom body count i a = .ok a' ∧ P (i + count) a') ∨
    (∃ j a' code m, i ≤ j ∧ j < i + count ∧ P j a' ∧ body j a' = .raised code m ∧
      loopFrom body count i a = .raised code m) ∨
    (∃ j a' e, i ≤ j ∧ j < i + count ∧ P j a' ∧ body j a' = .fault e ∧
      loopFrom body count i a = .fault e) := by
  induction count generalizing i a with
  | zero => exact .inl ⟨a, rfl, start⟩
  | succ count ih =>
    rw [loopFrom_succ]
    cases hb : body i a with
    | ok a₁ =>
      have h₁ := keeps i a a₁ le_rfl (by omega) start hb
      rcases ih h₁ fun j a a' hj hj' => keeps j a a' (by omega) (by omega) with
        ⟨a', hl, h'⟩ | ⟨j, a', code, m, hj, hj', h⟩ | ⟨j, a', e, hj, hj', h⟩
      · exact .inl ⟨a', hl, by rwa [Nat.add_right_comm] at h'⟩
      · exact .inr (.inl ⟨j, a', code, m, by omega, by omega, h⟩)
      · exact .inr (.inr ⟨j, a', e, by omega, by omega, h⟩)
    | raised code m => exact .inr (.inl ⟨i, a, code, m, le_rfl, by omega, start, hb, rfl⟩)
    | fault e => exact .inr (.inr ⟨i, a, e, le_rfl, by omega, start, hb, rfl⟩)

/-- The invariant rule: a loop that goes on ends with every property its iterations keep. -/
theorem loopFrom_keeps {body : Nat → α → Run α} {P : α → Prop} {count i : Nat} {a a' : α}
    (run : loopFrom body count i a = .ok a') (start : P a)
    (keeps : ∀ j a a', i ≤ j → j < i + count → P a → body j a = .ok a' → P a') : P a' := by
  rcases loopFrom_cases (P := fun _ => P) start keeps with
    ⟨a₁, hl, h⟩ | ⟨_, _, _, _, _, _, _, _, hl⟩ | ⟨_, _, _, _, _, _, _, hl⟩
  · rw [run] at hl
    cases hl
    exact h
  · rw [run] at hl
    cases hl
  · rw [run] at hl
    cases hl

theorem withKey_some {m : Memory} {b : BankId} {i : Nat} {key : Key} (h : m.readKey b i = some key)
    (f : Key → Run α) : withKey m b i f = f key := by simp [withKey, h]

theorem withKey_none {m : Memory} {b : BankId} {i : Nat} (h : m.readKey b i = none)
    (f : Key → Run α) : withKey m b i f = .fault (.unwrittenKey b i) := by simp [withKey, h]

theorem withCount_some {m : Memory} {d : Digit} {v : Idx} (h : m.readCount d = some v)
    (f : Idx → Run α) : withCount m d f = f v := by simp [withCount, h]

theorem withCount_none {m : Memory} {d : Digit} (h : m.readCount d = none)
    (f : Idx → Run α) : withCount m d f = .fault (.unwrittenCount d) := by simp [withCount, h]

/-- What going on with a key word can be: it is written and the rest runs on it, or it is UNWRITTEN and that
is the fault. -/
theorem withKey_cases (m : Memory) (b : BankId) (i : Nat) (f : Key → Run α) :
    (∃ key, m.readKey b i = some key ∧ withKey m b i f = f key) ∨
    (m.readKey b i = none ∧ withKey m b i f = .fault (.unwrittenKey b i)) := by
  cases h : m.readKey b i with
  | some key => exact .inl ⟨key, rfl, withKey_some h f⟩
  | none => exact .inr ⟨rfl, withKey_none h f⟩

/-- What going on with a COUNT entry can be, likewise. -/
theorem withCount_cases (m : Memory) (d : Digit) (f : Idx → Run α) :
    (∃ v, m.readCount d = some v ∧ withCount m d f = f v) ∨
    (m.readCount d = none ∧ withCount m d f = .fault (.unwrittenCount d)) := by
  cases h : m.readCount d with
  | some v => exact .inl ⟨v, rfl, withCount_some h f⟩
  | none => exact .inr ⟨rfl, withCount_none h f⟩

end Sys2Proof.Machine
end

