-- ==== Sys2Proof/Laws/Footprint.lean ====
section
/-! SUPPORT. What the pseudocode of the commands can write: key words below N, and COUNT. One lemma per body,
each saying what it keeps and which error it can raise. -/

namespace Sys2Proof.Machine

/-- `m'` is `m` after writes of key words below `n` and of COUNT entries: the canonical form is kept, no word
at or above `n` has changed, and no written word has become UNWRITTEN. -/
structure Memory.Within (n : Nat) (m m' : Memory) : Prop where
  wf : m.wf = true → m'.wf = true
  entries : ∀ b, ∀ entry ∈ m'.bank b, entry ∈ m.bank b ∨ entry.1 < n
  above : ∀ b i, n ≤ i → m'.readKey b i = m.readKey b i
  keysStay : ∀ b i, m'.readKey b i = none → m.readKey b i = none
  countsStay : ∀ d, m'.readCount d = none → m.readCount d = none

theorem Memory.Within.refl (n : Nat) (m : Memory) : Memory.Within n m m :=
  ⟨id, fun _ _ => .inl, fun _ _ _ => rfl, fun _ _ => id, fun _ => id⟩

theorem Memory.Within.trans {n : Nat} {m m' m'' : Memory} (h : Memory.Within n m m')
    (h' : Memory.Within n m' m'') : Memory.Within n m m'' where
  wf := h'.wf ∘ h.wf
  entries b e he := by
    rcases h'.entries b e he with he | he
    · exact h.entries b e he
    · exact .inr he
  above b i hi := (h'.above b i hi).trans (h.above b i hi)
  keysStay b i := h.keysStay b i ∘ h'.keysStay b i
  countsStay d := h.countsStay d ∘ h'.countsStay d

theorem Memory.Within.writeKey {n : Nat} (m : Memory) (b : BankId) {i : Nat} (hi : i < n) (v : Key) :
    Memory.Within n m (m.writeKey b i v) where
  wf h := Memory.writeKey_wf h b i v
  entries b' e he := by
    rw [Memory.bank_writeKey] at he
    split at he
    · subst_vars
      rcases mem_bankWrite he with rfl | he
      · exact .inr hi
      · exact .inl he
    · exact .inl he
  above b' j hj := by
    rw [Memory.readKey_writeKey, if_neg (by omega)]
  keysStay b' j h := by
    rw [Memory.readKey_writeKey] at h
    split at h
    · cases h
    · exact h
  countsStay d h := by simpa using h

theorem Memory.Within.writeCount {n : Nat} (m : Memory) (d : Digit) (v : Idx) :
    Memory.Within n m (m.writeCount d v) where
  wf h := h
  entries b e he := by simp at he; exact .inl he
  above b i _ := by simp
  keysStay b i h := by simpa using h
  countsStay d' h := by
    rw [Memory.readCount_writeCount] at h
    split at h
    · cases h
    · exact h

/-- Setting every entry of COUNT, likewise. -/
theorem Memory.Within.setCount {n : Nat} {m m' : Memory} (hb : ∀ b, m'.bank b = m.bank b)
    (hc : ∀ d, m'.readCount d ≠ none) : Memory.Within n m m' where
  wf h := by
    rw [Memory.wf_iff] at *
    intro b
    rw [hb]
    exact h b
  entries b e he := by rw [hb] at he; exact .inl he
  above b i _ := Memory.readKey_congr (hb b) i
  keysStay b i h := by rw [← Memory.readKey_congr (hb b)]; exact h
  countsStay d h := absurd h (hc d)

/-! ### CLR, HIST, OFFS -/

@[simp] theorem clrBody_bank (m : Memory) (b : BankId) : (clrBody m).bank b = m.bank b := by
  cases b <;> rfl

@[simp] theorem clrBody_readCount (m : Memory) (d : Digit) : (clrBody m).readCount d = some 0#32 := by
  simp [clrBody, Memory.readCount]

@[simp] theorem clrBody_readKey (m : Memory) (b : BankId) (i : Nat) :
    (clrBody m).readKey b i = m.readKey b i := Memory.readKey_congr (clrBody_bank m b) i

theorem clrBody_within (n : Nat) (m : Memory) : Memory.Within n m (clrBody m) :=
  .setCount (clrBody_bank m) (by simp)

/-- What one iteration of HIST can do. -/
theorem histStep_cases (k : BitVec 3) (sb : BankId) (i : Nat) (m : Memory) :
    (∃ key c, m.readKey sb i = some key ∧ m.readCount (digit k key) = some c ∧
      histStep k sb i m = .ok (m.writeCount (digit k key) (c + 1#32))) ∨
    (m.readKey sb i = none ∧ histStep k sb i m = .fault (.unwrittenKey sb i)) ∨
    (∃ key, m.readKey sb i = some key ∧ m.readCount (digit k key) = none ∧
      histStep k sb i m = .fault (.unwrittenCount (digit k key))) := by
  unfold histStep
  rcases withKey_cases m sb i (α := Memory) (fun key => withCount m (digit k key) fun c =>
    .ok (m.writeCount (digit k key) (c + 1#32))) with ⟨key, hk, h⟩ | ⟨hk, h⟩
  · rcases withCount_cases m (digit k key) (α := Memory) (fun c =>
      .ok (m.writeCount (digit k key) (c + 1#32))) with ⟨c, hc, h'⟩ | ⟨hc, h'⟩
    · exact .inl ⟨key, c, hk, hc, h.trans h'⟩
    · exact .inr (.inr ⟨key, hk, hc, h.trans h'⟩)
  · exact .inr (.inl ⟨hk, h⟩)

/-- What HIST can do: it counts, leaving the banks alone, or it reads an UNWRITTEN word, in the order of the
keys. -/
theorem histBody_cases (k : BitVec 3) (sb : BankId) (n : Nat) (m : Memory) :
    (∃ m', histBody k sb n m = .ok m' ∧ (∀ b, m'.bank b = m.bank b) ∧ Memory.Within n m m' ∧
      (∀ i, i < n → m.readKey sb i ≠ none)) ∨
    (∃ i, i < n ∧ m.readKey sb i = none ∧ (∀ j, j < i → m.readKey sb j ≠ none) ∧
      histBody k sb n m = .fault (.unwrittenKey sb i)) ∨
    (∃ d, m.readCount d = none ∧ histBody k sb n m = .fault (.unwrittenCount d)) := by
  have keeps := loopFrom_cases (body := histStep k sb) (count := n) (i := 0) (a := m)
    (P := fun i m' => (∀ b, m'.bank b = m.bank b) ∧ Memory.Within n m m' ∧
      ∀ j, j < i → m.readKey sb j ≠ none)
    ⟨fun _ => rfl, .refl n m, by simp⟩
  have all := keeps (by
    intro i m' m'' _ _ ⟨hb, hw, hr⟩ hstep
    rcases histStep_cases k sb i m' with ⟨key, c, hk, _, h⟩ | ⟨_, h⟩ | ⟨_, _, _, h⟩ <;>
      rw [h] at hstep <;> cases hstep
    refine ⟨fun b => by simp [hb], hw.trans (.writeCount ..), fun j hj => ?_⟩
    rcases Nat.lt_succ_iff_lt_or_eq.mp hj with hj | rfl
    · exact hr j hj
    · rw [← Memory.readKey_congr (hb sb), hk]
      simp)
  rcases all with ⟨m', hl, hb, hw, hr⟩ | ⟨i, m', code, m'', _, _, _, hstep, _⟩ |
      ⟨i, m', e, _, hi, ⟨hb, hw, hr⟩, hstep, hl⟩
  · exact .inl ⟨m', hl, hb, hw, by simpa using hr⟩
  · rcases histStep_cases k sb i m' with ⟨_, _, _, _, h⟩ | ⟨_, h⟩ | ⟨_, _, _, h⟩ <;>
      rw [h] at hstep <;> cases hstep
  · rcases histStep_cases k sb i m' with ⟨_, _, _, _, h⟩ | ⟨hk, h⟩ | ⟨key, _, hc, h⟩ <;>
      rw [h] at hstep <;> cases hstep
    · exact .inr (.inl ⟨i, by omega, hw.keysStay _ _ hk, hr, hl⟩)
    · exact .inr (.inr ⟨_, hw.countsStay _ hc, hl⟩)

theorem firstUnwritten_none {d : Nat} {entries : List (Option Idx)} :
    firstUnwritten d entries = none ↔ ∀ i (h : i < entries.length), entries[i] ≠ none := by
  induction entries generalizing d with
  | nil => simp [firstUnwritten]
  | cons t rest ih =>
    cases t with
    | none => simpa [firstUnwritten] using ⟨0, by simp, rfl⟩
    | some t =>
      rw [firstUnwritten, ih]
      constructor
      · rintro h (_ | i) hi
        · simp
        · simpa using h i (by simpa using hi)
      · intro h i hi
        have := h (i + 1) (by simpa using hi)
        rwa [List.getElem_cons_succ] at this

theorem firstUnwritten_some {d r : Nat} {entries : List (Option Idx)}
    (h : firstUnwritten d entries = some r) :
    ∃ i, ∃ hi : i < entries.length, r = d + i ∧ entries[i] = none ∧
      ∀ j (hj : j < i), entries[j] ≠ none := by
  induction entries generalizing d with
  | nil => simp [firstUnwritten] at h
  | cons t rest ih =>
    cases t with
    | none =>
      simp only [firstUnwritten, Option.some.injEq] at h
      exact ⟨0, by simp, by omega, rfl, by simp⟩
    | some t =>
      obtain ⟨i, hi, hr, hn, hb⟩ := ih h
      refine ⟨i + 1, by simpa using hi, by omega, by simpa using hn, fun j hj => ?_⟩
      cases j with
      | zero => simp
      | succ j => simpa using hb j (by omega)

/-- An entry of the prefix sum: the sum of the entries before it. -/
theorem sumsBefore_getElem (acc : Idx) (entries : List (Option Idx)) (i : Nat)
    (h : i < (sumsBefore acc entries).length) :
    (sumsBefore acc entries)[i] =
      some (acc + ((entries.take i).map (·.getD 0#32)).sum) := by
  induction entries generalizing acc i with
  | nil => simp [sumsBefore] at h
  | cons t rest ih =>
    cases i with
    | zero => simp [sumsBefore]
    | succ i =>
      simp only [sumsBefore, List.getElem_cons_succ, List.take_succ_cons, List.map_cons,
        List.sum_cons]
      rw [ih, BitVec.add_assoc]

theorem sumsOfTable_readCount (m : Memory) (d : Digit) :
    Memory.readCount { m with count := sumsOfTable m.count } d =
      some (((m.count.toList.take d.toNat).map (·.getD 0#32)).sum) := by
  have h : d.toNat < (sumsBefore 0#32 m.count.toList).length := by
    rw [sumsBefore_length]
    simpa using d.isLt
  have := sumsBefore_getElem 0#32 m.count.toList d.toNat h
  simpa [Memory.readCount, sumsOfTable] using this

/-- What OFFS can do: with every entry written, each becomes the sum of the entries before it; else the first
UNWRITTEN entry is a fault. -/
theorem offsBody_cases (m : Memory) :
    (offsBody m = .ok { m with count := sumsOfTable m.count } ∧ ∀ d, m.readCount d ≠ none) ∨
    (∃ d, m.readCount d = none ∧ (∀ e : Digit, e < d → m.readCount e ≠ none) ∧
      offsBody m = .fault (.unwrittenCount d)) := by
  unfold offsBody
  cases h : firstUnwritten 0 m.count.toList with
  | none =>
    refine .inl ⟨rfl, fun d => ?_⟩
    have := firstUnwritten_none.mp h d.toNat (by simpa using d.isLt)
    simpa [Memory.readCount] using this
  | some r =>
    obtain ⟨i, hi, hr, hn, hb⟩ := firstUnwritten_some h
    have hi' : i < 256 := by simpa using hi
    have hr' : r = i := by omega
    subst hr'
    refine .inr ⟨BitVec.ofNat 8 r, ?_, fun e he => ?_, rfl⟩
    · simpa [Memory.readCount, Nat.mod_eq_of_lt hi'] using hn
    · have he' : e.toNat < r := by
        simpa [BitVec.lt_def, Nat.mod_eq_of_lt hi'] using he
      simpa [Memory.readCount] using hb e.toNat he'

@[simp] theorem bank_with_count (m : Memory) (c : Counts) (b : BankId) :
    Memory.bank { m with count := c } b = m.bank b := by cases b <;> rfl

theorem sumsOfTable_within (n : Nat) (m : Memory) :
    Memory.Within n m { m with count := sumsOfTable m.count } :=
  .setCount (by simp) (by simp [sumsOfTable_readCount])

/-! ### SCAT and PASS -/

/-- What one iteration of SCAT can do. -/
theorem scatStep_cases (k : BitVec 3) (sb db : BankId) (n : Idx) (i : Nat) (m : Memory) :
    (∃ key p, m.readKey sb i = some key ∧ m.readCount (digit k key) = some p ∧ p < n ∧
      scatStep k sb db n i m =
        .ok ((m.writeKey db p.toNat key).writeCount (digit k key) (p + 1#32))) ∨
    (∃ key p, m.readKey sb i = some key ∧ m.readCount (digit k key) = some p ∧ n ≤ p ∧
      scatStep k sb db n i m = .raised .scatterBounds m) ∨
    (m.readKey sb i = none ∧ scatStep k sb db n i m = .fault (.unwrittenKey sb i)) ∨
    (∃ key, m.readKey sb i = some key ∧ m.readCount (digit k key) = none ∧
      scatStep k sb db n i m = .fault (.unwrittenCount (digit k key))) := by
  unfold scatStep
  cases hk : m.readKey sb i with
  | none => exact .inr (.inr (.inl ⟨rfl, withKey_none hk _⟩))
  | some key =>
    rw [withKey_some hk]
    cases hc : m.readCount (digit k key) with
    | none => exact .inr (.inr (.inr ⟨key, rfl, hc, withCount_none hc _⟩))
    | some p =>
      rw [withCount_some hc]
      by_cases hp : n ≤ p
      · exact .inr (.inl ⟨key, p, rfl, hc, hp, if_pos hp⟩)
      · exact .inl ⟨key, p, rfl, hc, BitVec.not_le.mp hp, if_neg hp⟩

/-- What SCAT can do, from one bank to the other: it goes on, it ends with SCATTER_BOUNDS at a key whose
offset is not below N, or it reads a word that was UNWRITTEN. -/
theorem scatBody_cases (k : BitVec 3) {sb db : BankId} (hne : sb ≠ db) (n : Idx) (m : Memory) :
    (∃ m', scatBody k sb db n m = .ok m' ∧ Memory.Within n.toNat m m' ∧ m'.bank sb = m.bank sb) ∨
    (∃ m' i key p, scatBody k sb db n m = .raised .scatterBounds m' ∧ Memory.Within n.toNat m m' ∧
      m'.bank sb = m.bank sb ∧ i < n.toNat ∧ m'.readKey sb i = some key ∧
      m'.readCount (digit k key) = some p ∧ n ≤ p) ∨
    (∃ i, i < n.toNat ∧ m.readKey sb i = none ∧
      scatBody k sb db n m = .fault (.unwrittenKey sb i)) ∨
    (∃ d, m.readCount d = none ∧ scatBody k sb db n m = .fault (.unwrittenCount d)) := by
  have keeps := loopFrom_cases (body := scatStep k sb db n) (count := n.toNat) (i := 0) (a := m)
    (P := fun _ m' => Memory.Within n.toNat m m' ∧ m'.bank sb = m.bank sb) ⟨.refl _ m, rfl⟩
  have all := keeps (by
    intro i m' m'' _ _ ⟨hw, hb⟩ hstep
    rcases scatStep_cases k sb db n i m' with ⟨key, p, _, _, hp, h⟩ | ⟨_, _, _, _, _, h⟩ |
      ⟨_, h⟩ | ⟨_, _, _, h⟩ <;> rw [h] at hstep <;> cases hstep
    refine ⟨hw.trans ((Memory.Within.writeKey m' db ?_ key).trans (.writeCount ..)), ?_⟩
    · exact BitVec.lt_def.mp hp
    · rw [Memory.bank_writeCount, Memory.bank_writeKey_of_ne _ (Ne.symm hne), hb])
  rcases all with ⟨m', hl, hw, hb⟩ | ⟨i, m', code, m'', _, hi, ⟨hw, hb⟩, hstep, hl⟩ |
      ⟨i, m', e, _, hi, ⟨hw, hb⟩, hstep, hl⟩
  · exact .inl ⟨m', hl, hw, hb⟩
  · rcases scatStep_cases k sb db n i m' with ⟨_, _, _, _, _, h⟩ | ⟨key, p, hk, hc, hp, h⟩ |
      ⟨_, h⟩ | ⟨_, _, _, h⟩ <;> rw [h] at hstep <;> cases hstep
    exact .inr (.inl ⟨m', i, key, p, hl, hw, hb, by omega, hk, hc, hp⟩)
  · rcases scatStep_cases k sb db n i m' with ⟨_, _, _, _, _, h⟩ | ⟨_, _, _, _, _, h⟩ |
      ⟨hk, h⟩ | ⟨key, _, hc, h⟩ <;> rw [h] at hstep <;> cases hstep
    · refine .inr (.inr (.inl ⟨i, by omega, ?_, hl⟩))
      rw [← Memory.readKey_congr hb]
      exact hk
    · exact .inr (.inr (.inr ⟨_, hw.countsStay _ hc, hl⟩))

/-! ### REV, ROT, SIGNB -/

/-- What one iteration of a reversal can do. -/
theorem reverseStep_cases (b : BankId) (f t q : Nat) (m : Memory) :
    (∃ lo hi, m.readKey b (f + q) = some lo ∧ m.readKey b (t - 1 - q) = some hi ∧
      reverseStep b f t q m = .ok ((m.writeKey b (f + q) hi).writeKey b (t - 1 - q) lo)) ∨
    (∃ i, (i = f + q ∨ i = t - 1 - q) ∧ m.readKey b i = none ∧
      reverseStep b f t q m = .fault (.unwrittenKey b i)) := by
  unfold reverseStep
  cases hlo : m.readKey b (f + q) with
  | none => exact .inr ⟨_, .inl rfl, hlo, withKey_none hlo _⟩
  | some lo =>
    rw [withKey_some hlo]
    cases hhi : m.readKey b (t - 1 - q) with
    | none => exact .inr ⟨_, .inr rfl, hhi, withKey_none hhi _⟩
    | some hi => exact .inl ⟨lo, hi, rfl, rfl, withKey_some hhi _⟩

/-- What a reversal can do: reverse the range and nothing else, every word of it but an odd range's middle one
being written; or stop at a word of the range that was UNWRITTEN. -/
theorem reverseRange_cases (b : BankId) (f t : Nat) (m : Memory) :
    (∃ m', reverseRange b f t m = .ok m' ∧ Memory.Within t m m' ∧ m'.count = m.count ∧
      m'.bank b.other = m.bank b.other ∧
      (∀ i, m'.readKey b i = if f ≤ i ∧ i < t then m.readKey b (f + (t - 1 - i)) else m.readKey b i) ∧
      (∀ i, f ≤ i → i < t → 2 * (i - f) + 1 ≠ t - f → m.readKey b i ≠ none)) ∨
    (∃ i, f ≤ i ∧ i < t ∧ 2 * (i - f) + 1 ≠ t - f ∧ m.readKey b i = none ∧
      reverseRange b f t m = .fault (.unwrittenKey b i)) := by
  have hother : b ≠ b.other := by cases b <;> simp [BankId.other]
  have keeps := loopFrom_cases (body := reverseStep b f t) (count := (t - f) / 2) (i := 0) (a := m)
    (P := fun q m' => Memory.Within t m m' ∧ m'.count = m.count ∧
      m'.bank b.other = m.bank b.other ∧
      (∀ i, m'.readKey b i = if (f ≤ i ∧ i < f + q) ∨ (t - q ≤ i ∧ i < t ∧ f ≤ i)
        then m.readKey b (f + (t - 1 - i)) else m.readKey b i) ∧
      (∀ i, (f ≤ i ∧ i < f + q) ∨ (t - q ≤ i ∧ i < t ∧ f ≤ i) → m.readKey b i ≠ none))
    ⟨.refl _ m, rfl, rfl, fun i => by rw [if_neg (by omega)], fun i hi => by omega⟩
  have all := keeps (by
    intro q m' m'' _ hq ⟨hw, hc, ho, hr, hs⟩ hstep
    rcases reverseStep_cases b f t q m' with ⟨lo, hi, hlo, hhi, h⟩ | ⟨_, _, _, h⟩ <;>
      rw [h] at hstep <;> cases hstep
    rw [hr, if_neg (by omega)] at hlo hhi
    refine ⟨(hw.trans (.writeKey _ _ (by omega) _)).trans (.writeKey _ _ (by omega) _), by simpa using hc,
      by rw [Memory.bank_writeKey_of_ne _ hother, Memory.bank_writeKey_of_ne _ hother, ho], fun i => ?_,
      fun i hi => ?_⟩
    · rw [Memory.readKey_writeKey, Memory.readKey_writeKey]
      by_cases h1 : i = t - 1 - q
      · rw [if_pos ⟨rfl, h1.symm⟩, if_pos (by omega), ← hlo]
        congr 1
        omega
      · rw [if_neg (by omega)]
        by_cases h2 : i = f + q
        · rw [if_pos ⟨rfl, h2.symm⟩, if_pos (by omega), ← hhi]
          congr 1
          omega
        · rw [if_neg (by omega), hr]
          by_cases h3 : (f ≤ i ∧ i < f + q) ∨ (t - q ≤ i ∧ i < t ∧ f ≤ i)
          · rw [if_pos h3, if_pos (by omega)]
          · rw [if_neg h3, if_neg (by omega)]
    · by_cases h1 : i = t - 1 - q
      · rw [h1, hhi]; simp
      · by_cases h2 : i = f + q
        · rw [h2, hlo]; simp
        · exact hs i (by omega))
  rcases all with ⟨m', hl, hw, hc, ho, hr, hs⟩ | ⟨i, m', code, m'', _, hi, _, hstep, hl⟩ |
      ⟨q, m', e, _, hq, ⟨hw, hc, ho, hr, hs⟩, hstep, hl⟩
  · refine .inl ⟨m', hl, hw, hc, ho, fun i => ?_, fun i hi hi' hmid => hs i (by omega)⟩
    rw [hr]
    by_cases hmid : f ≤ i ∧ i < t ∧ 2 * (i - f) + 1 = t - f
    · rw [if_neg (by omega), if_pos (by omega)]
      congr 1
      omega
    · by_cases hin : f ≤ i ∧ i < t
      · rw [if_pos (by omega), if_pos hin]
      · rw [if_neg (by omega), if_neg hin]
  · rcases reverseStep_cases b f t i m' with ⟨_, _, _, _, h⟩ | ⟨_, _, _, h⟩ <;>
      rw [h] at hstep <;> cases hstep
  · rcases reverseStep_cases b f t q m' with ⟨_, _, _, _, h⟩ | ⟨i, hi, hk, h⟩ <;>
      rw [h] at hstep <;> cases hstep
    refine .inr ⟨i, by omega, by omega, by omega, ?_, hl⟩
    rw [hr, if_neg (by omega)] at hk
    exact hk

/-- What the sign-boundary loop can do: stop at the first key with top bit 1 or at the end, or at an UNWRITTEN
word after keys with top bit 0. -/
theorem scanFrom_cases (m : Memory) (b : BankId) (count i : Nat) :
    (∃ r, i ≤ r ∧ r ≤ i + count ∧ scanFrom m b count i = .ok r ∧
      (∀ j, i ≤ j → j < r → ∃ key, m.readKey b j = some key ∧ top key = false) ∧
      (r < i + count → ∃ key, m.readKey b r = some key ∧ top key = true)) ∨
    (∃ j, i ≤ j ∧ j < i + count ∧ m.readKey b j = none ∧
      (∀ j', i ≤ j' → j' < j → ∃ key, m.readKey b j' = some key ∧ top key = false) ∧
      scanFrom m b count i = .fault (.unwrittenKey b j)) := by
  induction count generalizing i with
  | zero => exact .inl ⟨i, le_rfl, le_rfl, rfl, by omega, by omega⟩
  | succ count ih =>
    unfold scanFrom
    cases hk : m.readKey b i with
    | none => exact .inr ⟨i, le_rfl, by omega, hk, by omega, withKey_none hk _⟩
    | some key =>
      rw [withKey_some hk]
      cases ht : top key with
      | true => exact .inl ⟨i, le_rfl, by omega, rfl, by omega, fun _ => ⟨key, hk, ht⟩⟩
      | false =>
        rcases ih (i + 1) with ⟨r, h1, h2, hs, hb, ha⟩ | ⟨j, h1, h2, hn, hb, hs⟩
        · refine .inl ⟨r, by omega, by omega, by simpa using hs, fun j hj hj' => ?_,
            fun h => ha (by omega)⟩
          rcases Nat.eq_or_lt_of_le hj with rfl | hj
          · exact ⟨key, hk, ht⟩
          · exact hb j hj hj'
        · refine .inr ⟨j, by omega, by omega, hn, fun j' hj hj' => ?_, by simpa using hs⟩
          rcases Nat.eq_or_lt_of_le hj with rfl | hj
          · exact ⟨key, hk, ht⟩
          · exact hb j' hj hj'

end Sys2Proof.Machine
end

