-- ==== Sys2Proof/Laws/Sorting.lean ====
section
/-! SUPPORT. Facts about lists of keys: digits and low digits, the stable reordering by a digit as buckets put
together, and why stable passes by rising digits sort (42_pingpong.md rule R173). -/

namespace Sys2Proof.Machine

variable {g h : Key → Nat} {xs ys zs : List Key}

/-! ### Adjacent order and pairwise order -/

/-- A sequence ascending at every neighbour is ascending at every pair. -/
theorem pairwise_of_ascending (asc : ∀ i (h : i + 1 < xs.length), g xs[i] ≤ g xs[i + 1]) :
    xs.Pairwise (g · ≤ g ·) := by
  rw [List.pairwise_iff_getElem]
  intro i j hi hj hij
  induction j with
  | zero => omega
  | succ j ih =>
    rcases Nat.lt_succ_iff_lt_or_eq.mp hij with hij | rfl
    · exact (ih (by omega) hij).trans (asc j hj)
    · exact asc i hj

theorem ascending_of_pairwise (h : xs.Pairwise (g · ≤ g ·)) :
    ∀ i (_ : i + 1 < xs.length), g xs[i] ≤ g xs[i + 1] := fun i hi =>
  List.pairwise_iff_getElem.mp h i (i + 1) (by omega) hi (by omega)

theorem unsignedAscending_iff : UnsignedAscending xs ↔ xs.Pairwise (·.toNat ≤ ·.toNat) :=
  ⟨pairwise_of_ascending (g := BitVec.toNat), ascending_of_pairwise (g := BitVec.toNat)⟩

/-! ### Stable reorderings -/

theorem stableBy_iff : StableBy g xs ys ↔
    ys.Pairwise (g · ≤ g ·) ∧
      ∀ v, ys.filter (fun key => g key = v) = xs.filter (fun key => g key = v) :=
  ⟨fun h => ⟨pairwise_of_ascending h.1, h.2⟩, fun h => ⟨ascending_of_pairwise h.1, h.2⟩⟩

/-- A stable reordering is a permutation. -/
theorem StableBy.perm (h : StableBy g xs ys) : ys.Perm xs := by
  rw [List.perm_iff_count]
  intro a
  have hc := congrArg (List.count a) (h.2 (g a))
  have keep : ∀ l : List Key, List.count a (l.filter (fun key => g key = g a)) = List.count a l :=
    fun l => List.count_filter (by simp)
  rwa [keep, keep] at hc

theorem StableBy.length (h : StableBy g xs ys) : ys.length = xs.length := h.perm.length_eq

/-- Every sequence is the stable reordering of itself by a constant. -/
theorem StableBy.const (xs : List Key) (c : Nat) : StableBy (fun _ => c) xs xs :=
  ⟨fun _ _ => le_rfl, fun _ => rfl⟩

/-- A stable reordering by `h` of a stable reordering by `g < b` is the stable reordering by `h * b + g`: the
step of the induction of rule R173. -/
theorem StableBy.refine {b : Nat} (hb : 0 < b) (lt : ∀ key, g key < b) (first : StableBy g xs ys)
    (second : StableBy h ys zs) : StableBy (fun key => h key * b + g key) xs zs := by
  rw [stableBy_iff] at *
  constructor
  · rw [List.pairwise_iff_forall_sublist] at *
    intro x y hxy
    have hle := second.1 hxy
    rcases Nat.lt_or_eq_of_le hle with hlt | heq
    · have hx := lt x
      have : (h x + 1) * b ≤ h y * b := Nat.mul_le_mul_right b hlt
      rw [Nat.add_mul] at this
      omega
    · have hs : [x, y].Sublist ys := by
        have hf := hxy.filter (fun key => decide (h key = h y))
        rw [second.2 (h y)] at hf
        simp only [heq, decide_true, List.filter_cons_of_pos, List.filter_nil] at hf
        exact hf.trans List.filter_sublist
      have := first.1 hs
      rw [heq]
      omega
  · intro v
    have split : ∀ l : List Key, l.filter (fun key => decide (h key * b + g key = v)) =
        (l.filter (fun key => decide (h key = v / b))).filter (fun key => decide (g key = v % b)) := by
      intro l
      rw [List.filter_filter]
      apply List.filter_congr
      intro key _
      have := lt key
      rw [← Bool.decide_and, decide_eq_decide]
      constructor
      · rintro rfl
        have hd : (h key * b + g key) / b = h key := by
          rw [Nat.add_comm, Nat.add_mul_div_right _ _ hb, Nat.div_eq_of_lt this, Nat.zero_add]
        have hm : (h key * b + g key) % b = g key := by
          rw [Nat.add_comm, Nat.add_mul_mod_self_right, Nat.mod_eq_of_lt this]
        exact ⟨hm.symm, hd.symm⟩
      · rintro ⟨h1, h2⟩
        rw [h1, h2, Nat.mul_comm]
        exact Nat.div_add_mod v b
    have swap : ∀ l : List Key,
        (l.filter (fun key => decide (h key = v / b))).filter (fun key => decide (g key = v % b)) =
        (l.filter (fun key => decide (g key = v % b))).filter (fun key => decide (h key = v / b)) := by
      intro l
      rw [List.filter_filter, List.filter_filter]
      exact List.filter_congr fun _ _ => Bool.and_comm _ _
    rw [split zs, second.2, swap ys, first.2, ← swap xs, ← split xs]

/-! ### Buckets -/

/-- The buckets of digit `k` in ascending order, each in input order. -/
def buckets (k : BitVec 3) (keys : List Key) : List Key :=
  (List.range 256).flatMap fun d => keys.filter fun key => (digit k key).toNat = d

/-- The element at a bucket's start plus `j` is the bucket's `j`-th. -/
theorem getElem?_flatMap_range (f : Nat → List Key) (count d j : Nat) (hd : d < count)
    (hj : j < (f d).length) :
    ((List.range count).flatMap f)[((List.range d).map fun e => (f e).length).sum + j]? = (f d)[j]? := by
  induction count with
  | zero => omega
  | succ count ih =>
    rw [List.range_succ, List.flatMap_append, List.flatMap_singleton]
    have len : ∀ c, ((List.range c).flatMap f).length = ((List.range c).map fun e => (f e).length).sum :=
      fun c => List.length_flatMap
    rcases Nat.lt_succ_iff_lt_or_eq.mp hd with hlt | rfl
    · rw [List.getElem?_append_left, ih hlt]
      rw [len]
      have sub : ((List.range (d + 1)).map fun e => (f e).length).sum ≤
          ((List.range count).map fun e => (f e).length).sum :=
        ((List.range_sublist.mpr hlt).map _).sum_le_sum fun _ _ => Nat.zero_le _
      rw [List.range_succ, List.map_append, List.sum_append] at sub
      simp only [List.map_cons, List.map_nil, List.sum_cons, List.sum_nil] at sub
      omega
    · rw [List.getElem?_append_right (by rw [len]; omega), len]
      congr 1
      omega

theorem countP_lt_succ (f : Key → Nat) (keys : List Key) (n : Nat) :
    keys.countP (fun key => f key < n + 1) =
      keys.countP (fun key => f key < n) + keys.countP (fun key => f key = n) := by
  induction keys with
  | nil => rfl
  | cons key rest ih =>
    simp only [List.countP_cons, ih, decide_eq_true_eq]
    split <;> split <;> split <;> omega

theorem histogram_eq (k : BitVec 3) (keys : List Key) (d : Digit) :
    histogram k keys d = keys.countP fun key => (digit k key).toNat = d.toNat := by
  simp only [histogram, ← BitVec.toNat_inj]

/-- The start of a bucket is the sum of the lengths of the buckets before it. -/
theorem startOf_eq_sum (k : BitVec 3) (keys : List Key) (d : Digit) :
    startOf k keys d = ((List.range d.toNat).map fun e =>
      (keys.filter fun key => (digit k key).toNat = e).length).sum := by
  unfold startOf
  generalize d.toNat = n
  induction n with
  | zero => simp
  | succ n ih =>
    rw [List.range_succ, List.map_append, List.sum_append, ← ih,
      countP_lt_succ fun key => (digit k key).toNat]
    simp [List.countP_eq_length_filter]

theorem endOf_eq (k : BitVec 3) (keys : List Key) (d : Digit) :
    endOf k keys d = startOf k keys d + histogram k keys d := by
  rw [histogram_eq, startOf, ← countP_lt_succ fun key => (digit k key).toNat]
  simp only [endOf, Nat.lt_succ_iff]

theorem endOf_le_length (k : BitVec 3) (keys : List Key) (d : Digit) :
    endOf k keys d ≤ keys.length := List.countP_le_length

theorem endOf_last (k : BitVec 3) (keys : List Key) : endOf k keys 255#8 = keys.length := by
  rw [endOf, List.countP_eq_length]
  intro key _
  have := (digit k key).isLt
  simp only [BitVec.toNat_ofNat, decide_eq_true_eq]
  omega

/-- A bucket ends where a later one starts, at the latest. -/
theorem endOf_le_startOf (k : BitVec 3) (keys : List Key) {d e : Digit} (h : d.toNat < e.toNat) :
    endOf k keys d ≤ startOf k keys e :=
  List.countP_mono_left fun key _ hd => by simp only [decide_eq_true_eq] at *; omega

theorem histogram_take_succ {k : BitVec 3} {keys : List Key} {i : Nat} (h : i < keys.length)
    (d : Digit) : histogram k (keys.take (i + 1)) d =
      histogram k (keys.take i) d + if digit k keys[i] = d then 1 else 0 := by
  unfold histogram
  rw [List.take_succ_eq_append_getElem h, List.countP_append, List.countP_singleton]
  simp

theorem histogram_take_mono {k : BitVec 3} {keys : List Key} {i j : Nat} (h : i ≤ j) (d : Digit) :
    histogram k (keys.take i) d ≤ histogram k (keys.take j) d :=
  List.Sublist.countP_le (List.take_sublist_take_left h)

theorem histogram_take_lt {k : BitVec 3} {keys : List Key} {i : Nat} (h : i < keys.length) :
    histogram k (keys.take i) (digit k keys[i]) < histogram k keys (digit k keys[i]) := by
  have hs := histogram_take_succ (k := k) h (digit k keys[i])
  have hm := histogram_take_mono (k := k) (keys := keys) (i := i + 1) (j := keys.length) h
    (digit k keys[i])
  rw [List.take_length] at hm
  simp only [if_true] at hs
  omega

/-- The filtered list holds element `i`, if it is kept, behind the kept ones before it. -/
theorem getElem?_filter_countP (p : Key → Bool) (keys : List Key) (i : Nat) (h : i < keys.length)
    (hp : p keys[i] = true) : (keys.filter p)[(keys.take i).countP p]? = some keys[i] := by
  conv_lhs => rw [← List.take_append_drop i keys, List.filter_append]
  rw [List.countP_eq_length_filter, List.take_append_drop,
    List.getElem?_append_right le_rfl, Nat.sub_self, List.drop_eq_getElem_cons h,
    List.filter_cons_of_pos hp]
  rfl

/-- Key `i` stands in the buckets at its bucket's start, behind the earlier keys of its digit (R155). -/
theorem getElem?_buckets (k : BitVec 3) (keys : List Key) (i : Nat) (h : i < keys.length) :
    (buckets k keys)[startOf k keys (digit k keys[i]) +
      histogram k (keys.take i) (digit k keys[i])]? = some keys[i] := by
  have hp : decide ((digit k keys[i]).toNat = (digit k keys[i]).toNat) = true := by simp
  have hf := getElem?_filter_countP
    (fun key => decide ((digit k key).toNat = (digit k keys[i]).toNat)) keys i h hp
  rw [histogram_eq, startOf_eq_sum]
  unfold buckets
  rw [getElem?_flatMap_range (fun e => keys.filter fun key => (digit k key).toNat = e) 256
    (digit k keys[i]).toNat _ (digit k keys[i]).isLt, hf]
  exact (List.getElem?_eq_some_iff.mp hf).1

/-- The buckets put together are the stable reordering by the digit. -/
theorem stableBy_buckets (k : BitVec 3) (keys : List Key) :
    StableBy (fun key => (digit k key).toNat) keys (buckets k keys) := by
  rw [stableBy_iff]
  constructor
  · rw [buckets, List.pairwise_flatMap]
    constructor
    · intro d _
      rw [List.pairwise_filter]
      refine List.Pairwise.imp_of_mem (R := fun _ _ => True) ?_ (List.pairwise_of_forall fun _ _ => trivial)
      intro a b _ _ _ ha hb
      simp only [decide_eq_true_eq] at ha hb
      omega
    · refine List.Pairwise.imp ?_ List.pairwise_lt_range
      intro d e hde x hx y hy
      simp only [List.mem_filter, decide_eq_true_eq] at hx hy
      omega
  · intro v
    rw [buckets]
    by_cases hv : v < 256
    · have : ∀ n, ((List.range n).flatMap fun d => keys.filter fun key => (digit k key).toNat = d).filter
          (fun key => (digit k key).toNat = v) =
          if v < n then keys.filter (fun key => (digit k key).toNat = v) else [] := by
        intro n
        induction n with
        | zero => simp
        | succ n ih =>
          rw [List.range_succ, List.flatMap_append, List.filter_append, ih, List.flatMap_singleton,
            List.filter_filter]
          by_cases hvn : v = n
          · subst hvn
            rw [if_neg (by omega), if_pos (by omega), List.nil_append]
            exact List.filter_congr fun _ _ => Bool.and_self _
          · have hnil : keys.filter (fun key => decide ((digit k key).toNat = v) &&
                decide ((digit k key).toNat = n)) = [] := by
              rw [List.filter_eq_nil_iff]
              intro key _
              simp only [Bool.and_eq_true, decide_eq_true_eq, not_and]
              omega
            rw [hnil, List.append_nil]
            by_cases hlt : v < n
            · rw [if_pos hlt, if_pos (by omega)]
            · rw [if_neg hlt, if_neg (by omega)]
      rw [this, if_pos hv]
    · have hnil : ∀ l : List Key, l.filter (fun key => decide ((digit k key).toNat = v)) = [] := by
        intro l
        rw [List.filter_eq_nil_iff]
        intro key _
        have := (digit k key).isLt
        simp only [decide_eq_true_eq]
        omega
      rw [hnil, hnil]

/-! ### Low digits -/

/-- The value of the low `j` digits of a key. -/
def lowDigits (j : Nat) (key : Key) : Nat := key.toNat % 2 ^ (8 * j)

theorem lowDigits_lt (j : Nat) (key : Key) : lowDigits j key < 2 ^ (8 * j) :=
  Nat.mod_lt _ (Nat.two_pow_pos _)

theorem lowDigits_succ {j : Nat} (hj : j < 8) (key : Key) :
    lowDigits (j + 1) key = (digit (passDigit j) key).toNat * 2 ^ (8 * j) + lowDigits j key := by
  have hd : (digit (passDigit j) key).toNat = key.toNat / 2 ^ (8 * j) % 2 ^ 8 := by
    have hk : (passDigit j).toNat = j := by simp [passDigit, Nat.mod_eq_of_lt hj]
    simp [digit, hk, BitVec.extractLsb'_toNat, Nat.shiftRight_eq_div_pow]
  rw [hd, lowDigits, lowDigits, Nat.mul_add, Nat.mul_one, Nat.pow_add, Nat.mod_mul,
    Nat.mul_comm (2 ^ (8 * j)), Nat.add_comm]

theorem lowDigits_eight (key : Key) : lowDigits 8 key = key.toNat :=
  Nat.mod_eq_of_lt key.isLt

theorem lowDigits_zero (key : Key) : lowDigits 0 key = 0 := Nat.mod_one _

/-- One more pass: keys stably sorted by their low `j` digits and then by digit `j` are stably sorted by their
low `j + 1` digits (R173). -/
theorem StableBy.pass {j : Nat} (hj : j < 8) (first : StableBy (lowDigits j) xs ys)
    (second : StableBy (fun key => (digit (passDigit j) key).toNat) ys zs) :
    StableBy (lowDigits (j + 1)) xs zs := by
  have := first.refine (Nat.two_pow_pos _) (lowDigits_lt j) second
  rwa [show (fun key => (digit (passDigit j) key).toNat * 2 ^ (8 * j) + lowDigits j key) =
    lowDigits (j + 1) from funext fun key => (lowDigits_succ hj key).symm] at this

/-- Unsigned-ascending permutations of the same keys are equal (R173: the sorted sequence is unique). -/
theorem unsignedAscending_unique (hx : UnsignedAscending xs) (hy : UnsignedAscending ys)
    (h : xs.Perm ys) : xs = ys :=
  h.eq_of_pairwise (fun _ _ _ _ hab hba => BitVec.eq_of_toNat_eq (Nat.le_antisymm hab hba))
    (unsignedAscending_iff.mp hx) (unsignedAscending_iff.mp hy)

end Sys2Proof.Machine
end

