-- ==== Sys2Proof/Laws/Passes.lean ====
section
/-! SUPPORT. What HIST, OFFS, SCAT, a whole pass and WSORT compute on written keys (41_counting_pass.md,
42_pingpong.md): one lemma per body, each used by the bodies built from it. -/

namespace Sys2Proof.Machine

/-! ### Keys in a bank -/

theorem Memory.Holds.congr {m m' : Memory} {b : BankId} {keys : List Key} (h : m.Holds b keys)
    (heq : ∀ i, i < keys.length → m'.readKey b i = m.readKey b i) : m'.Holds b keys :=
  fun i hi => (heq i hi).trans (h i hi)

/-- Written words are some list of keys. -/
theorem Memory.exists_holds {m : Memory} {b : BankId} {n : Nat}
    (h : ∀ i, i < n → m.readKey b i ≠ none) : ∃ keys : List Key, keys.length = n ∧ m.Holds b keys := by
  refine ⟨List.ofFn fun i : Fin n => (m.readKey b i).getD 0#64, by simp, fun i hi => ?_⟩
  have hi' : i < n := by simpa using hi
  obtain ⟨key, hk⟩ := Option.ne_none_iff_exists'.mp (h i hi')
  simp [hk]

/-- A bank holds one list of keys of a given length. -/
theorem Memory.Holds.unique {m : Memory} {b : BankId} {xs ys : List Key} (hx : m.Holds b xs)
    (hy : m.Holds b ys) (hl : xs.length = ys.length) : xs = ys :=
  List.ext_getElem hl fun i h h' => Option.some.inj ((hx i h).symm.trans (hy i h'))

/-! ### HIST -/

/-- HIST over keys whose entries are written: each entry goes up by the number of keys of its digit. -/
theorem histLoop_prefix (k : BitVec 3) (sb : BankId) {m : Memory} {keys : List Key}
    (hold : m.Holds sb keys) (written : ∀ key ∈ keys, m.readCount (digit k key) ≠ none) :
    ∃ m', loopFrom (histStep k sb) keys.length 0 m = .ok m' ∧ (∀ b, m'.bank b = m.bank b) ∧
      ∀ d, m'.readCount d =
        (m.readCount d).map fun v => v + BitVec.ofNat 32 (histogram k keys d) := by
  have := loopFrom_ok (body := histStep k sb) (count := keys.length) (i := 0) (a := m)
    (P := fun i m' => (∀ b, m'.bank b = m.bank b) ∧ ∀ d, m'.readCount d =
      (m.readCount d).map fun v => v + BitVec.ofNat 32 (histogram k (keys.take i) d))
    ⟨fun _ => rfl, fun d => by cases m.readCount d <;> simp [histogram]⟩ (by
    intro i m' _ hi ⟨hb, hc⟩
    have hi' : i < keys.length := by omega
    have hk : m'.readKey sb i = some keys[i] := (Memory.readKey_congr (hb sb) i).trans (hold i hi')
    obtain ⟨c, hcd⟩ := Option.ne_none_iff_exists'.mp (written keys[i] (List.getElem_mem hi'))
    have hcd' := hc (digit k keys[i])
    rw [hcd, Option.map_some] at hcd'
    refine ⟨_, by rw [histStep, withKey_some hk, withCount_some hcd'], fun b => by simp [hb],
      fun d => ?_⟩
    rw [Memory.readCount_writeCount, histogram_take_succ hi']
    by_cases hd : digit k keys[i] = d
    · subst hd
      rw [if_pos rfl, if_pos rfl, hcd, Option.map_some, BitVec.ofNat_add, BitVec.add_assoc]
    · rw [if_neg hd, if_neg hd, hc, Nat.add_zero])
  obtain ⟨m', hl, hb, hc⟩ := this
  exact ⟨m', hl, hb, by simpa using hc⟩

/-! ### OFFS -/

/-- The sum of the entries below `d`, modulo 2^32. -/
theorem sum_take_count {m : Memory} {c : Digit → Idx} (hc : ∀ d, m.readCount d = some (c d)) (n : Nat)
    (hn : n ≤ 256) : ((m.count.toList.take n).map (·.getD 0#32)).sum =
      BitVec.ofNat 32 (∑ e ∈ Finset.range n, (c (BitVec.ofNat 8 e)).toNat) := by
  induction n with
  | zero => rfl
  | succ n ih =>
    have hlt : n < m.count.toList.length := by simpa using hn
    have hget : m.count.toList[n] = some (c (BitVec.ofNat 8 n)) := by
      have := hc (BitVec.ofNat 8 n)
      simpa [Memory.readCount, Nat.mod_eq_of_lt (show n < 256 by omega)] using this
    rw [List.take_succ_eq_append_getElem hlt, List.map_append, List.sum_append, ih (by omega),
      Finset.sum_range_succ, BitVec.ofNat_add, hget]
    simp

/-- OFFS of a written table: each entry becomes the sum of the entries below it. -/
theorem offsBody_sums {m : Memory} {c : Digit → Idx} (hc : ∀ d, m.readCount d = some (c d)) :
    ∃ m', offsBody m = .ok m' ∧ (∀ b, m'.bank b = m.bank b) ∧ ∀ d, m'.readCount d =
      some (BitVec.ofNat 32 (∑ e ∈ Finset.range d.toNat, (c (BitVec.ofNat 8 e)).toNat)) := by
  rcases offsBody_cases m with ⟨h, _⟩ | ⟨d, hd, _⟩
  · refine ⟨_, h, by simp, fun d => ?_⟩
    rw [sumsOfTable_readCount, sum_take_count hc _ (le_of_lt d.isLt)]
  · rw [hc] at hd
    cases hd

/-! ### SCAT -/

theorem scatterOffset_eq {k : BitVec 3} {c : Digit → Idx} {keys : List Key} {i : Nat}
    (h : i < keys.length) : scatterOffset k c keys i =
      (c (digit k keys[i])).toNat + histogram k (keys.take i) (digit k keys[i]) := by
  simp [scatterOffset, h]

theorem scatterOffset_take {k : BitVec 3} {c : Digit → Idx} {keys : List Key} {i j : Nat}
    (hij : i < j) : scatterOffset k c (keys.take j) i = scatterOffset k c keys i := by
  unfold scatterOffset
  rw [List.getElem?_take_of_lt hij, List.take_take, Nat.min_eq_left (le_of_lt hij)]

/-- The offset a scatter has reached, while every offset used is below N. -/
theorem offset_no_wrap {k : BitVec 3} {c : Digit → Idx} {keys : List Key} {n : Idx} {d : Digit} {i : Nat}
    (hi : i ≤ keys.length) (below : ∀ j, j < keys.length → scatterOffset k c keys j < n.toNat)
    (hd : histogram k (keys.take i) d ≠ 0) :
    (c d).toNat + histogram k (keys.take i) d ≤ n.toNat := by
  induction i with
  | zero => simp [histogram] at hd
  | succ i ih =>
    have hlt : i < keys.length := hi
    rw [histogram_take_succ hlt] at hd ⊢
    by_cases hk : digit k keys[i] = d
    · have := below i hlt
      rw [scatterOffset_eq hlt, hk] at this
      rw [if_pos hk]
      omega
    · rw [if_neg hk] at hd ⊢
      exact ih (by omega) (by simpa using hd)

/-- SCAT over keys whose entries are written and whose offsets are below N. -/
theorem scatLoop_prefix (k : BitVec 3) {sb db : BankId} (hne : sb ≠ db) (n : Idx) {m : Memory}
    {keys : List Key} {c : Digit → Idx} (hold : m.Holds sb keys)
    (written : ∀ key ∈ keys, m.readCount (digit k key) = some (c (digit k key)))
    (below : ∀ i, i < keys.length → scatterOffset k c keys i < n.toNat) :
    ∃ m', loopFrom (scatStep k sb db n) keys.length 0 m = .ok m' ∧
      ScatterEffect k sb db c keys m m' := by
  have := loopFrom_ok (body := scatStep k sb db n) (count := keys.length) (i := 0) (a := m)
    (P := fun i m' => ScatterEffect k sb db c (keys.take i) m m')
    ⟨fun i h => by simp at h, fun _ _ => rfl, rfl,
      fun d => by cases m.readCount d <;> simp [histogram]⟩ (by
    intro i m' _ hi eff
    have hi' : i < keys.length := by omega
    have hk : m'.readKey sb i = some keys[i] :=
      (Memory.readKey_congr eff.source i).trans (hold i hi')
    have hcd := written keys[i] (List.getElem_mem hi')
    have hcd' := eff.counts (digit k keys[i])
    rw [hcd, Option.map_some] at hcd'
    have hoff := below i hi'
    rw [scatterOffset_eq hi'] at hoff
    have hp : (c (digit k keys[i]) +
        BitVec.ofNat 32 (histogram k (keys.take i) (digit k keys[i]))).toNat =
        scatterOffset k c keys i := by
      have hn := n.isLt
      rw [scatterOffset_eq hi', BitVec.toNat_add, BitVec.toNat_ofNat]
      have h1 : histogram k (keys.take i) (digit k keys[i]) < 2 ^ 32 := by omega
      rw [Nat.mod_eq_of_lt h1, Nat.mod_eq_of_lt (by omega)]
    have hlt : ¬ n ≤ c (digit k keys[i]) +
        BitVec.ofNat 32 (histogram k (keys.take i) (digit k keys[i])) := by
      rw [BitVec.le_def, hp, scatterOffset_eq hi']
      omega
    refine ⟨_, by rw [scatStep, withKey_some hk, withCount_some hcd', if_neg hlt], ?_⟩
    rw [hp]
    have hlen : (keys.take (i + 1)).length = i + 1 := by
      rw [List.length_take]
      omega
    have hlen' : (keys.take i).length = i := by
      rw [List.length_take]
      omega
    constructor
    · intro j hj later
      rw [hlen] at hj later
      rw [scatterOffset_take hj, Memory.readKey_writeCount, Memory.readKey_writeKey,
        List.getElem_take]
      by_cases hji : j = i
      · subst hji
        rw [if_pos ⟨rfl, rfl⟩]
      · have hne' := later i (by omega) (by omega)
        rw [scatterOffset_take hj, scatterOffset_take (by omega)] at hne'
        rw [if_neg (fun h => hne' h.2)]
        have := eff.placed j (by omega) (fun j' h1 h2 => by
          have := later j' h1 (by omega)
          rw [scatterOffset_take (by omega), scatterOffset_take (by omega)] at this ⊢
          exact this)
        rw [scatterOffset_take (by omega), List.getElem_take] at this
        exact this
    · intro p hp'
      rw [hlen] at hp'
      have hpi := hp' i (by omega)
      rw [scatterOffset_take (by omega)] at hpi
      rw [Memory.readKey_writeCount, Memory.readKey_writeKey, if_neg (fun h => hpi h.2)]
      refine eff.elsewhere p fun j hj => ?_
      have := hp' j (by omega)
      rw [scatterOffset_take (by omega)] at this ⊢
      exact this
    · rw [Memory.bank_writeCount, Memory.bank_writeKey_of_ne _ (Ne.symm hne), eff.source]
    · intro d
      rw [Memory.readCount_writeCount, histogram_take_succ hi']
      by_cases hd : digit k keys[i] = d
      · subst hd
        rw [if_pos rfl, if_pos rfl, hcd, Option.map_some, BitVec.ofNat_add, BitVec.add_assoc]
      · rw [if_neg hd, if_neg hd, Memory.readCount_writeKey, eff.counts, Nat.add_zero])
  obtain ⟨m', hl, eff⟩ := this
  exact ⟨m', hl, by simpa using eff⟩

/-- With the table of starting offsets, the offset of key `i` is its place in the stable reordering. -/
theorem scatterOffset_start {k : BitVec 3} {keys : List Key} {n : Idx} (hn : keys.length = n.toNat)
    {i : Nat} (h : i < keys.length) :
    scatterOffset k (fun d => BitVec.ofNat 32 (startOf k keys d)) keys i =
      startOf k keys (digit k keys[i]) + histogram k (keys.take i) (digit k keys[i]) := by
  have := n.isLt
  have hs : startOf k keys (digit k keys[i]) ≤ keys.length := List.countP_le_length
  rw [scatterOffset_eq h, BitVec.toNat_ofNat, Nat.mod_eq_of_lt (by omega)]

/-- SCAT from the starting offsets of the same keys (R155): no error, the destination holds the buckets put
together, and COUNT holds the end offsets. -/
theorem scatBody_stable (k : BitVec 3) {sb db : BankId} (hne : sb ≠ db) {n : Idx} {m : Memory}
    {keys : List Key} (hn : keys.length = n.toNat) (hold : m.Holds sb keys)
    (starts : ∀ d, m.readCount d = some (BitVec.ofNat 32 (startOf k keys d))) :
    ∃ m', scatBody k sb db n m = .ok m' ∧ m'.Holds db (buckets k keys) ∧ m'.bank sb = m.bank sb ∧
      (∀ i (h : i < keys.length), m'.readKey db (startOf k keys (digit k keys[i]) +
        histogram k (keys.take i) (digit k keys[i])) = some keys[i]) ∧
      ∀ d, m'.readCount d = some (BitVec.ofNat 32 (endOf k keys d)) := by
  have hoff : ∀ i (h : i < keys.length), _ := fun i h => scatterOffset_start (k := k) hn h
  have below : ∀ i, i < keys.length →
      scatterOffset k (fun d => BitVec.ofNat 32 (startOf k keys d)) keys i < n.toNat := by
    intro i h
    have h1 := histogram_take_lt (k := k) h
    have h2 := endOf_eq k keys (digit k keys[i])
    have h3 := endOf_le_length k keys (digit k keys[i])
    rw [hoff i h]
    omega
  obtain ⟨m', hl, eff⟩ := scatLoop_prefix k hne n hold (fun key _ => starts _) below
  have inj : ∀ i j, i < keys.length → j < keys.length → i < j →
      scatterOffset k (fun d => BitVec.ofNat 32 (startOf k keys d)) keys j ≠
      scatterOffset k (fun d => BitVec.ofNat 32 (startOf k keys d)) keys i := by
    intro i j hi hj hij
    rw [hoff i hi, hoff j hj]
    have hi1 := histogram_take_lt (k := k) hi
    have hj1 := histogram_take_lt (k := k) hj
    have hi2 := endOf_eq k keys (digit k keys[i])
    have hj2 := endOf_eq k keys (digit k keys[j])
    rcases Nat.lt_trichotomy (digit k keys[i]).toNat (digit k keys[j]).toNat with hd | hd | hd
    · have := endOf_le_startOf k keys hd
      omega
    · have hd' := BitVec.eq_of_toNat_eq hd
      have hs := histogram_take_succ (k := k) hi (digit k keys[i])
      have hm := histogram_take_mono (k := k) (keys := keys) (i := i + 1) (j := j) hij
        (digit k keys[i])
      simp only [if_true] at hs
      rw [← hd']
      omega
    · have := endOf_le_startOf k keys hd
      omega
  have place : ∀ i (h : i < keys.length), m'.readKey db (startOf k keys (digit k keys[i]) +
      histogram k (keys.take i) (digit k keys[i])) = some keys[i] := by
    intro i h
    have := eff.placed i h fun j hij hj => inj i j h hj hij
    rwa [hoff i h] at this
  refine ⟨m', by rw [scatBody, ← hn]; exact hl, ?_, eff.source, place, fun d => ?_⟩
  · intro p hp
    rw [(stableBy_buckets k keys).length] at hp
    let off : Fin keys.length → Fin keys.length := fun i =>
      ⟨scatterOffset k (fun d => BitVec.ofNat 32 (startOf k keys d)) keys i, lt_of_lt_of_eq (below i i.isLt) hn.symm⟩
    have offInj : Function.Injective off := by
      intro i j hij
      have hval := congrArg Fin.val hij
      rcases Nat.lt_trichotomy i.val j.val with h | h | h
      · exact absurd hval.symm (inj i j i.isLt j.isLt h)
      · exact Fin.ext h
      · exact absurd hval (inj j i j.isLt i.isLt h)
    obtain ⟨i, hi⟩ := Finite.surjective_of_injective offInj ⟨p, hp⟩
    have hp' := congrArg Fin.val hi
    simp only [off] at hp'
    rw [hoff i i.isLt] at hp'
    have hget := getElem?_buckets k keys i i.isLt
    have hread := place i i.isLt
    rw [hp'] at hget hread
    rw [hread, ← hget, List.getElem?_eq_getElem]
  · rw [eff.counts, starts, Option.map_some, ← BitVec.ofNat_add, ← endOf_eq]

/-! ### PASS -/

/-- A pass over written keys (R152, R155, R156, R158): no error, the destination holds the buckets put
together, the source is unchanged, COUNT holds the end offsets. -/
theorem passBody_sorts (k : BitVec 3) {sb db : BankId} (hne : sb ≠ db) {n : Idx} {m : Memory}
    {keys : List Key} (hn : keys.length = n.toNat) (hold : m.Holds sb keys) :
    ∃ m', passBody k sb db n m = .ok m' ∧ m'.Holds db (buckets k keys) ∧ m'.bank sb = m.bank sb ∧
      Memory.Within n.toNat m m' ∧
      ∀ d, m'.readCount d = some (BitVec.ofNat 32 (endOf k keys d)) := by
  have hnlt := n.isLt
  obtain ⟨m₁, h1, b1, c1⟩ := histLoop_prefix k sb (m := clrBody m) (keys := keys)
    (hold.congr fun i _ => clrBody_readKey m sb i) (by simp)
  have c1' : ∀ d, m₁.readCount d = some (BitVec.ofNat 32 (histogram k keys d)) := fun d => by
    rw [c1, clrBody_readCount, Option.map_some, BitVec.zero_add]
  obtain ⟨m₂, h2, b2, c2⟩ := offsBody_sums c1'
  have starts : ∀ d, m₂.readCount d = some (BitVec.ofNat 32 (startOf k keys d)) := by
    intro d
    rw [c2]
    congr 2
    have hd := d.isLt
    unfold startOf
    generalize d.toNat = e at hd
    induction e with
    | zero => simp
    | succ e ih =>
      have he : (BitVec.ofNat 8 e).toNat = e := by simp; omega
      have hh : histogram k keys (BitVec.ofNat 8 e) ≤ keys.length := List.countP_le_length
      rw [Finset.sum_range_succ, ih (by omega), countP_lt_succ fun key => (digit k key).toNat,
        BitVec.toNat_ofNat, Nat.mod_eq_of_lt (by omega), histogram_eq, he]
  have hb2 : m₂.bank sb = m.bank sb := by rw [b2, b1, clrBody_bank]
  obtain ⟨m₃, h3, hold3, s3, -, c3⟩ := scatBody_stable k hne (m := m₂) hn
    (hold.congr fun i _ => Memory.readKey_congr hb2 i) starts
  have w3 : Memory.Within n.toNat m₂ m₃ := by
    rcases scatBody_cases k hne n m₂ with ⟨m', h, hw, _⟩ | ⟨_, _, _, _, h, _⟩ | ⟨_, _, _, h⟩ |
      ⟨_, _, h⟩ <;> rw [h3] at h <;> cases h
    exact hw
  have w2 : Memory.Within n.toNat m m₂ :=
    .setCount (fun b => by rw [b2, b1, clrBody_bank]) (fun d => by rw [starts]; simp)
  refine ⟨m₃, ?_, hold3, by rw [s3, hb2], w2.trans w3, c3⟩
  rw [passBody, histBody, ← hn, h1, Run.andThen_ok, h2, Run.andThen_ok, h3]

/-- What a pass can do, from one bank to the other: it sorts by its digit, or it reads a key word that was
UNWRITTEN. It raises no error (R157). -/
theorem passBody_cases (k : BitVec 3) {sb db : BankId} (hne : sb ≠ db) (n : Idx) (m : Memory) :
    (∃ m' keys, passBody k sb db n m = .ok m' ∧ Memory.Within n.toNat m m' ∧
      keys.length = n.toNat ∧ m.Holds sb keys ∧ m'.Holds db (buckets k keys) ∧
      m'.bank sb = m.bank sb) ∨
    (∃ i, i < n.toNat ∧ m.readKey sb i = none ∧ (∀ j, j < i → m.readKey sb j ≠ none) ∧
      passBody k sb db n m = .fault (.unwrittenKey sb i)) := by
  rcases histBody_cases k sb n.toNat (clrBody m) with
    ⟨m', _, _, _, hr⟩ | ⟨i, hi, hk, hb, h⟩ | ⟨d, hd, _⟩
  · obtain ⟨keys, hlen, hold⟩ := Memory.exists_holds (m := m) (b := sb) (n := n.toNat)
      (fun i hi => by simpa using hr i hi)
    obtain ⟨m', h, hold', hb, hw, _⟩ := passBody_sorts k hne hlen hold
    exact .inl ⟨m', keys, h, hw, hlen, hold, hold', hb⟩
  · exact .inr ⟨i, hi, by simpa using hk, by simpa using hb, by rw [passBody, h, Run.andThen_fault]⟩
  · simp at hd

/-! ### WSORT -/

theorem BankId.ne_other (b : BankId) : b ≠ b.other := by cases b <;> simp [BankId.other]

/-- The source bank of pass `j`: bank j mod 2 (R171). -/
def passSource (j : Nat) : BankId := if j % 2 = 0 then .b0 else .b1

theorem passSource_succ (j : Nat) : passSource (j + 1) = (passSource j).other := by
  unfold passSource
  by_cases h : j % 2 = 0
  · rw [if_neg (by omega), if_pos h]
    rfl
  · rw [if_pos (by omega), if_neg h]
    rfl

theorem endOf_perm {xs ys : List Key} (h : xs.Perm ys) (k : BitVec 3) (d : Digit) :
    endOf k xs d = endOf k ys d := h.countP_eq _

/-- WSORT over written keys (R173, R174): no error, BANK[0] holds the keys in unsigned order, BANK[1] the
keys stably sorted by their low seven digits, COUNT the end offsets of the top byte. -/
theorem wsortBody_sorts {n : Idx} {m : Memory} {keys : List Key} (hn : keys.length = n.toNat)
    (hold : m.Holds .b0 keys) :
    ∃ m' sorted scratch, wsortBody n m = .ok m' ∧ m'.Holds .b0 sorted ∧
      StableBy BitVec.toNat keys sorted ∧ m'.Holds .b1 scratch ∧
      StableBy (lowDigits 7) keys scratch ∧ Memory.Within n.toNat m m' ∧
      ∀ d, m'.readCount d = some (BitVec.ofNat 32 (endOf 7#3 keys d)) := by
  have := loopFrom_ok (body := wsortStep n) (count := 8) (i := 0) (a := (m, BankId.b0))
    (P := fun j w => w.2 = passSource j ∧ Memory.Within n.toNat m w.1 ∧
      (∃ ys, w.1.Holds w.2 ys ∧ StableBy (lowDigits j) keys ys) ∧
      (1 ≤ j → (∃ zs, w.1.Holds w.2.other zs ∧ StableBy (lowDigits (j - 1)) keys zs) ∧
        ∀ d, w.1.readCount d = some (BitVec.ofNat 32 (endOf (passDigit (j - 1)) keys d))))
    ⟨rfl, .refl _ m, ⟨keys, hold, by
      rw [show lowDigits 0 = fun _ => 0 from funext lowDigits_zero]
      exact .const keys 0⟩, by omega⟩ (by
    intro j w _ hj ⟨hsrc, hw, ⟨ys, hys, hst⟩, _⟩
    obtain ⟨m', h, hz, hb, hw', hc⟩ := passBody_sorts (passDigit j) (BankId.ne_other w.2)
      (hst.length.trans hn) hys
    refine ⟨(m', w.2.other), by rw [wsortStep, h, Run.andThen_ok], by rw [hsrc, passSource_succ],
      hw.trans hw', ⟨_, hz, hst.pass (by omega) (stableBy_buckets _ ys)⟩, fun _ => ⟨⟨ys, ?_, hst⟩, ?_⟩⟩
    · have hoo : w.2.other.other = w.2 := by cases w.2 <;> rfl
      rw [hoo]
      exact hys.congr fun i _ => Memory.readKey_congr hb i
    · intro d
      rw [hc, endOf_perm hst.perm]
      rfl)
  obtain ⟨⟨m', src⟩, hl, hsrc, hw, ⟨ys, hys, hst⟩, hrest⟩ := this
  obtain ⟨⟨zs, hzs, hst'⟩, hc⟩ := hrest (by omega)
  subst hsrc
  rw [show lowDigits (0 + 8) = BitVec.toNat from funext lowDigits_eight] at hst
  exact ⟨m', ys, zs, by rw [wsortBody, hl, Run.andThen_ok], hys, hst, hzs, hst', hw, hc⟩

/-- What WSORT can do: it sorts, or it reads a key word of BANK[0] that was UNWRITTEN. It raises no error
(R157). -/
theorem wsortBody_cases (n : Idx) (m : Memory) :
    (∃ m' keys sorted, wsortBody n m = .ok m' ∧ Memory.Within n.toNat m m' ∧
      keys.length = n.toNat ∧ m.Holds .b0 keys ∧ m'.Holds .b0 sorted ∧
      StableBy BitVec.toNat keys sorted) ∨
    (∃ i, i < n.toNat ∧ m.readKey .b0 i = none ∧ (∀ j, j < i → m.readKey .b0 j ≠ none) ∧
      wsortBody n m = .fault (.unwrittenKey .b0 i)) := by
  rcases passBody_cases (passDigit 0) (BankId.ne_other .b0) n m with
    ⟨_, keys, _, _, hlen, hold, _, _⟩ | ⟨i, hi, hk, hb, h⟩
  · obtain ⟨m', sorted, _, h, hs, hst, _, _, hw, _⟩ := wsortBody_sorts hlen hold
    exact .inl ⟨m', keys, sorted, h, hw, hlen, hold, hs, hst⟩
  · refine .inr ⟨i, hi, hk, hb, ?_⟩
    rw [wsortBody, loopFrom_succ, wsortStep, h]
    rfl

end Sys2Proof.Machine
end

