-- ==== Sys2Proof/Laws/Composites.lean ====
section
/-! SUPPORT. What a rotation, the sign-boundary scan and the two composite sorts compute (43_sequence_ops.md,
44_composite_sorts.md). -/

namespace Sys2Proof.Machine

theorem Memory.Within.mono {n n' : Nat} {m m' : Memory} (h : Memory.Within n m m') (hn : n ≤ n') :
    Memory.Within n' m m' where
  wf := h.wf
  entries b e he := (h.entries b e he).imp_right fun h => by omega
  above b i hi := h.above b i (by omega)
  keysStay := h.keysStay
  countsStay := h.countsStay

/-- What a rotation can do: put the second block before the first and nothing else, every word it reads being
written; or stop at a word it reads that was UNWRITTEN (R183). -/
theorem rotateRange_cases (b : BankId) {f p t : Nat} (hfp : f ≤ p) (hpt : p ≤ t) (m : Memory) :
    (∃ m', rotateRange b f p t m = .ok m' ∧ Memory.Within t m m' ∧ m'.count = m.count ∧
      m'.bank b.other = m.bank b.other ∧
      (∀ i, m'.readKey b i =
        if f ≤ i ∧ i < f + (t - p) then m.readKey b (p + (i - f))
        else if f + (t - p) ≤ i ∧ i < t then m.readKey b (f + (i - (f + (t - p))))
        else m.readKey b i) ∧
      (∀ i, RotReads f p t i → m.readKey b i ≠ none)) ∨
    (∃ i, RotReads f p t i ∧ m.readKey b i = none ∧
      rotateRange b f p t m = .fault (.unwrittenKey b i)) := by
  unfold rotateRange
  rcases reverseRange_cases b f t m with ⟨m₁, h1, w1, c1, o1, r1, s1⟩ | ⟨i, hi, hi', hm, hn, h⟩
  · rw [h1, Run.andThen_ok]
    -- after the first reversal only the middle word of an odd range can be UNWRITTEN, and it is where it was
    have mid : ∀ i, f ≤ i → i < t → 2 * (i - f) + 1 = t - f → m₁.readKey b i = m.readKey b i := by
      intro i hi hi' hmid
      rw [r1, if_pos ⟨hi, hi'⟩, show f + (t - 1 - i) = i by omega]
    have back : ∀ i, f ≤ i → i < t → m₁.readKey b i = none →
        2 * (i - f) + 1 = t - f ∧ m.readKey b i = none := by
      intro i hi hi' hn
      by_cases hmid : 2 * (i - f) + 1 = t - f
      · exact ⟨hmid, by rwa [mid i hi hi' hmid] at hn⟩
      · rw [r1, if_pos ⟨hi, hi'⟩] at hn
        exact absurd hn (s1 _ (by omega) (by omega) (by omega))
    rcases reverseRange_cases b f (f + (t - p)) m₁ with ⟨m₂, h2, w2, c2, o2, r2, s2⟩ |
        ⟨i, hi, hi', hm, hn, h⟩
    · rw [h2, Run.andThen_ok]
      rcases reverseRange_cases b (f + (t - p)) t m₂ with ⟨m₃, h3, w3, c3, o3, r3, s3⟩ |
          ⟨i, hi, hi', hm, hn, h⟩
      · refine .inl ⟨m₃, h3, (w1.trans (w2.mono (by omega))).trans w3, by rw [c3, c2, c1],
          by rw [o3, o2, o1], fun i => ?_, fun i ⟨hi, hi', hr⟩ => ?_⟩
        · rw [r3]
          by_cases ha : f + (t - p) ≤ i ∧ i < t
          · rw [if_pos ha, r2, if_neg (by omega), r1, if_pos (by omega), if_neg (by omega),
              if_pos ha]
            congr 1
            omega
          · rw [if_neg ha, r2]
            by_cases hb : f ≤ i ∧ i < f + (t - p)
            · rw [if_pos hb, r1, if_pos (by omega), if_pos hb]
              congr 1
              omega
            · rw [if_neg hb, r1, if_neg (by omega), if_neg hb, if_neg ha]
        · by_cases hmid : 2 * (i - f) + 1 = t - f
          · rw [← mid i hi hi' hmid]
            by_cases ha : i < f + (t - p)
            · exact s2 i hi ha (by omega)
            · have := s3 i (by omega) hi' (by omega)
              rwa [r2, if_neg (by omega)] at this
          · exact s1 i hi hi' hmid
      · rw [r2, if_neg (by omega)] at hn
        obtain ⟨hmid, hn⟩ := back i (by omega) hi' hn
        exact .inr ⟨i, ⟨by omega, hi', .inr (by omega)⟩, hn, h⟩
    · obtain ⟨hmid, hn⟩ := back i hi (by omega) hn
      exact .inr ⟨i, ⟨hi, by omega, .inr (by omega)⟩, hn, by rw [h, Run.andThen_fault]⟩
  · exact .inr ⟨i, ⟨hi, hi', .inl hm⟩, hn, by rw [h, Run.andThen_fault]⟩

/-- What a scan of `n` words can do (R186). -/
theorem scan_cases (b : BankId) (n : Idx) (m : Memory) :
    (∃ r : Idx, r.toNat ≤ n.toNat ∧ scan b n m = .ok r ∧
      (∀ j, j < r.toNat → ∃ key, m.readKey b j = some key ∧ top key = false) ∧
      (r.toNat < n.toNat → ∃ key, m.readKey b r.toNat = some key ∧ top key = true)) ∨
    (∃ j, j < n.toNat ∧ m.readKey b j = none ∧
      (∀ j', j' < j → ∃ key, m.readKey b j' = some key ∧ top key = false) ∧
      scan b n m = .fault (.unwrittenKey b j)) := by
  have hn := n.isLt
  rcases scanFrom_cases m b n.toNat 0 with ⟨r, _, hr, h, hb, ha⟩ | ⟨j, _, hj, hk, hb, h⟩
  · have hr' : (BitVec.ofNat 32 r).toNat = r := by
      rw [BitVec.toNat_ofNat, Nat.mod_eq_of_lt (by omega)]
    refine .inl ⟨BitVec.ofNat 32 r, by omega, by rw [scan, h, Run.andThen_ok], fun j hj => ?_,
      fun hlt => ?_⟩
    · exact hb j (by omega) (by omega)
    · rw [hr'] at hlt ⊢
      exact ha (by omega)
  · exact .inr ⟨j, by omega, hk, fun j' hj' => hb j' (by omega) hj',
      by rw [scan, h, Run.andThen_fault]⟩

/-! ### Blocks -/

theorem top_iff (key : Key) : top key = true ↔ 2 ^ 63 ≤ key.toNat := by
  have h : top key = key.msb := by rw [top, BitVec.msb_eq_getLsbD_last]
  rw [h, BitVec.msb_eq_decide]
  simp

/-- In unsigned order the keys with top bit 0 come before those with top bit 1 (R187). -/
theorem top_mono {keys : List Key} (h : keys.Pairwise (·.toNat ≤ ·.toNat)) {i j : Nat} (hij : i ≤ j)
    (hj : j < keys.length) (ht : top keys[i] = true) : top keys[j] = true := by
  rcases Nat.lt_or_eq_of_le hij with hlt | rfl
  · have := List.pairwise_iff_getElem.mp h i j (by omega) hj hlt
    rw [top_iff] at ht ⊢
    exact ht.trans this
  · exact ht

/-- The boundary of an unsigned-ascending sequence splits it into block A, with top bit 0, and block B, with
top bit 1. -/
theorem boundary_splits {keys : List Key} (h : keys.Pairwise (·.toNat ≤ ·.toNat)) {r : Nat}
    (hr : r ≤ keys.length) (below : ∀ j (hj : j < keys.length), j < r → top keys[j] = false)
    (atr : ∀ hlt : r < keys.length, top keys[r] = true) :
    (∀ key ∈ keys.take r, top key = false) ∧ (∀ key ∈ keys.drop r, top key = true) ∧
      r = keys.countP fun key => !top key := by
  have hA : ∀ key ∈ keys.take r, top key = false := by
    intro key hk
    obtain ⟨i, hi, rfl⟩ := List.getElem_of_mem hk
    rw [List.getElem_take]
    rw [List.length_take] at hi
    exact below i (by omega) (by omega)
  have hB : ∀ key ∈ keys.drop r, top key = true := by
    intro key hk
    obtain ⟨i, hi, rfl⟩ := List.getElem_of_mem hk
    rw [List.getElem_drop]
    rw [List.length_drop] at hi
    exact top_mono h (by omega) (by omega) (atr (by omega))
  refine ⟨hA, hB, ?_⟩
  conv_rhs => rw [← List.take_append_drop r keys]
  rw [List.countP_append, List.countP_eq_length.mpr (fun key hk => by simp [hA key hk]),
    List.countP_eq_zero.mpr (fun key hk => by simp [hB key hk]), List.length_take]
  omega

/-- A scan of held unsigned-ascending keys finds the boundary. -/
theorem scan_sorted {b : BankId} {n : Idx} {m : Memory} {keys : List Key} (hn : keys.length = n.toNat)
    (hold : m.Holds b keys) (h : keys.Pairwise (·.toNat ≤ ·.toNat)) :
    ∃ r : Idx, scan b n m = .ok r ∧ r.toNat ≤ keys.length ∧
      (∀ key ∈ keys.take r.toNat, top key = false) ∧ (∀ key ∈ keys.drop r.toNat, top key = true) ∧
      r.toNat = keys.countP fun key => !top key := by
  rcases scan_cases b n m with ⟨r, hr, hs, below, atr⟩ | ⟨j, hj, hk, _⟩
  · refine ⟨r, hs, by omega, boundary_splits h (by omega) (fun j hj hlt => ?_) (fun hlt => ?_)⟩
    · obtain ⟨key, hk, ht⟩ := below j hlt
      rw [hold j hj] at hk
      cases hk
      exact ht
    · obtain ⟨key, hk, ht⟩ := atr (by omega)
      rw [hold _ hlt] at hk
      cases hk
      exact ht
  · rw [hold j (by omega)] at hk
    cases hk

/-- The reversal of held keys from index 0. -/
theorem Memory.Holds.reversed {m m' : Memory} {b : BankId} {xs ys : List Key}
    (hold : m.Holds b (xs ++ ys))
    (hr : ∀ i, m'.readKey b i = if 0 ≤ i ∧ i < xs.length then m.readKey b (0 + (xs.length - 1 - i))
      else m.readKey b i) : m'.Holds b (xs.reverse ++ ys) := by
  intro i hi
  rw [List.length_append, List.length_reverse] at hi
  rw [hr]
  by_cases h : i < xs.length
  · rw [if_pos (by omega), hold _ (by rw [List.length_append]; omega),
      List.getElem_append_left (by omega), List.getElem_append_left (by simpa using h),
      List.getElem_reverse]
    congr 2
    omega
  · rw [if_neg (by omega), hold _ (by rw [List.length_append]; omega),
      List.getElem_append_right (by omega), List.getElem_append_right (by simpa using h)]
    simp

/-- SORTI over written keys (R200, R201, R208): block B before block A, each in unsigned order. The scratch
bank and COUNT are as WSORT left them. -/
theorem sortiBody_sorts {n : Idx} {m : Memory} {keys : List Key} (hn : keys.length = n.toNat)
    (hold : m.Holds .b0 keys) :
    ∃ m' m₁ blockA blockB, sortiBody n m = .ok (m', BitVec.ofNat 32 blockA.length) ∧
      m'.Holds .b0 (blockB ++ blockA) ∧ StableBy BitVec.toNat keys (blockA ++ blockB) ∧
      (∀ key ∈ blockA, top key = false) ∧ (∀ key ∈ blockB, top key = true) ∧
      blockA.length = (keys.countP fun key => !top key) ∧
      Memory.Within n.toNat m m' ∧ wsortBody n m = .ok m₁ ∧ m'.bank1 = m₁.bank1 ∧
      m'.count = m₁.count := by
  obtain ⟨m₁, sorted, _, h1, hs, hst, _, _, w1, _⟩ := wsortBody_sorts hn hold
  have hpw := (stableBy_iff.mp hst).1
  have hlen : sorted.length = n.toNat := hst.length.trans hn
  obtain ⟨r, h2, hr, hA, hB, hcount⟩ := scan_sorted hlen hs hpw
  rcases rotateRange_cases .b0 (f := 0) (p := r.toNat) (t := n.toNat) (by omega) (by omega) m₁ with
    ⟨m', h3, w3, c3, o3, r3, _⟩ | ⟨i, ⟨_, hi, _⟩, hk, _⟩
  · have hAlen : (sorted.take r.toNat).length = r.toNat := by
      rw [List.length_take]
      omega
    have hBlen : (sorted.drop r.toNat).length = n.toNat - r.toNat := by
      rw [List.length_drop, hlen]
    refine ⟨m', m₁, sorted.take r.toNat, sorted.drop r.toNat, ?_, ?_, ?_, hA, hB, ?_, w1.trans w3, h1,
      o3, c3⟩
    · rw [sortiBody, h1, Run.andThen_ok, h2, Run.andThen_ok, h3, Run.andThen_ok, hAlen,
        BitVec.ofNat_toNat, BitVec.setWidth_eq]
    · intro i hi
      rw [List.length_append, hAlen, hBlen] at hi
      rw [r3]
      by_cases hlt : i < n.toNat - r.toNat
      · rw [if_pos (by omega), hs _ (by omega), List.getElem_append_left (by omega),
          List.getElem_drop]
        congr 2
      · rw [if_neg (by omega), if_pos (by omega), hs _ (by omega),
          List.getElem_append_right (by omega), List.getElem_take]
        congr 2
        omega
    · rwa [List.take_append_drop]
    · rw [hAlen, hcount]
      exact hst.perm.countP_eq _
  · rw [hs i (by omega)] at hk
    cases hk

/-- SORTF over written keys (R204, R205, R208): block B in descending order before block A. -/
theorem sortfBody_sorts {n : Idx} {m : Memory} {keys : List Key} (hn : keys.length = n.toNat)
    (hold : m.Holds .b0 keys) :
    ∃ m' m₁ blockA blockB, sortfBody n m = .ok (m', BitVec.ofNat 32 blockA.length) ∧
      m'.Holds .b0 (blockB.reverse ++ blockA) ∧ StableBy BitVec.toNat keys (blockA ++ blockB) ∧
      (∀ key ∈ blockA, top key = false) ∧ (∀ key ∈ blockB, top key = true) ∧
      blockA.length = (keys.countP fun key => !top key) ∧
      Memory.Within n.toNat m m' ∧ wsortBody n m = .ok m₁ ∧ m'.bank1 = m₁.bank1 ∧
      m'.count = m₁.count := by
  obtain ⟨m₂, m₁, blockA, blockB, h2, hs, hst, hA, hB, hcount, w2, h1, hb, hc⟩ :=
    sortiBody_sorts hn hold
  have hnlt := n.isLt
  have hlen := hst.length
  rw [List.length_append] at hlen
  have hb' : (BitVec.ofNat 32 blockA.length).toNat = blockA.length := by
    rw [BitVec.toNat_ofNat, Nat.mod_eq_of_lt (by omega)]
  rcases reverseRange_cases .b0 0 (n.toNat - blockA.length) m₂ with
    ⟨m', h3, w3, c3, o3, r3, _⟩ | ⟨i, _, hi, _, hk, _⟩
  · rw [show n.toNat - blockA.length = blockB.length by omega] at r3
    refine ⟨m', m₁, blockA, blockB, ?_, hs.reversed r3, hst, hA, hB, hcount,
      w2.trans (w3.mono (by omega)), h1, o3.trans hb, c3.trans hc⟩
    rw [sortfBody, h2, Run.andThen_ok]
    simp only [hb', h3, Run.andThen_ok]
  · rw [hs i (by rw [List.length_append]; omega)] at hk
    cases hk

/-- What SORTI can do: it sorts, or it stops at the first key word of BANK[0] that was UNWRITTEN. -/
theorem sortiBody_cases (n : Idx) (m : Memory) :
    (∃ keys, keys.length = n.toNat ∧ m.Holds .b0 keys) ∨
    (∃ i, i < n.toNat ∧ m.readKey .b0 i = none ∧ (∀ j, j < i → m.readKey .b0 j ≠ none) ∧
      sortiBody n m = .fault (.unwrittenKey .b0 i)) := by
  rcases wsortBody_cases n m with ⟨_, keys, _, _, _, hlen, hold, _⟩ | ⟨i, hi, hk, hb, h⟩
  · exact .inl ⟨keys, hlen, hold⟩
  · exact .inr ⟨i, hi, hk, hb, by rw [sortiBody, h, Run.andThen_fault]⟩

/-- What SORTF can do, likewise. -/
theorem sortfBody_cases (n : Idx) (m : Memory) :
    (∃ keys, keys.length = n.toNat ∧ m.Holds .b0 keys) ∨
    (∃ i, i < n.toNat ∧ m.readKey .b0 i = none ∧ (∀ j, j < i → m.readKey .b0 j ≠ none) ∧
      sortfBody n m = .fault (.unwrittenKey .b0 i)) := by
  rcases sortiBody_cases n m with h | ⟨i, hi, hk, hb, h⟩
  · exact .inl h
  · exact .inr ⟨i, hi, hk, hb, by rw [sortfBody, h, Run.andThen_fault]⟩

end Sys2Proof.Machine
end

