-- ==== Sys2Proof/Laws/Commands.lean ====
section
/-! SUPPORT. What `exec`, a host transaction and a step can do, said once: every command is its checks and its
body, every host transaction one of the register map's cases, every step one turn. -/

namespace Sys2Proof.Machine

/-! ### Checks -/

theorem checkCapacity_none {s : State} : checkCapacity s = none ↔ ¬ s.nMax < s.n := by
  simp [checkCapacity]

theorem checkCapacity_some {s : State} {code : ErrCode} :
    checkCapacity s = some code ↔ s.nMax < s.n ∧ code = .capacity := by
  unfold checkCapacity
  by_cases h : s.nMax < s.n <;> simp [h, eq_comm]

theorem checkBanks_none {sb db : BankId} : checkBanks sb db = none ↔ sb ≠ db := by
  simp [checkBanks]

theorem checkBanks_some {sb db : BankId} {code : ErrCode} :
    checkBanks sb db = some code ↔ sb = db ∧ code = .bankConflict := by
  unfold checkBanks
  by_cases h : sb = db <;> simp [h, eq_comm]

theorem checkRevRange_none {s : State} :
    checkRevRange s = none ↔ s.fromReg ≤ s.toReg ∧ s.toReg ≤ s.n := by
  unfold checkRevRange
  split <;> simp_all

theorem checkRevRange_some {s : State} {code : ErrCode} :
    checkRevRange s = some code ↔ ¬(s.fromReg ≤ s.toReg ∧ s.toReg ≤ s.n) ∧ code = .range := by
  unfold checkRevRange
  by_cases h : s.fromReg ≤ s.toReg ∧ s.toReg ≤ s.n
  · simp [h]
  · simp only [h, if_false, Option.some.injEq, not_false_eq_true, true_and]
    exact eq_comm

theorem checkRotRange_none {s : State} :
    checkRotRange s = none ↔ s.fromReg ≤ s.mid ∧ s.mid ≤ s.toReg ∧ s.toReg ≤ s.n := by
  unfold checkRotRange
  split <;> simp_all

theorem checkRotRange_some {s : State} {code : ErrCode} :
    checkRotRange s = some code ↔
      ¬(s.fromReg ≤ s.mid ∧ s.mid ≤ s.toReg ∧ s.toReg ≤ s.n) ∧ code = .range := by
  unfold checkRotRange
  by_cases h : s.fromReg ≤ s.mid ∧ s.mid ≤ s.toReg ∧ s.toReg ≤ s.n
  · simp [h]
  · simp only [h, if_false, Option.some.injEq, not_false_eq_true, true_and]
    exact eq_comm

/-- Of two checks, made in this order, the first that fails gives the code (R122). -/
theorem or_eq_some {x y : Option ErrCode} {code : ErrCode} :
    x.or y = some code ↔ x = some code ∨ x = none ∧ y = some code := by cases x <;> simp

/-! ### Commands -/

/-- The checks of a command (R121). -/
def commandChecks (i : Instr) (s : State) : Option ErrCode :=
  match i with
  | .nop => none
  | .clr => none
  | .hist _ _ => checkCapacity s
  | .offs => none
  | .scat _ sb db => (checkCapacity s).or (checkBanks sb db)
  | .pass _ sb db => (checkCapacity s).or (checkBanks sb db)
  | .wsort => checkCapacity s
  | .rev _ => (checkCapacity s).or (checkRevRange s)
  | .rot _ => (checkCapacity s).or (checkRotRange s)
  | .signb _ => checkCapacity s
  | .sorti => checkCapacity s
  | .sortf => checkCapacity s
  | .hwr _ _ => none
  | .hrd _ => none

/-- The storage and RESULT a command's pseudocode leaves. -/
def commandBody (i : Instr) (s : State) : Run (Memory × Idx) :=
  let keep (r : Run Memory) : Run (Memory × Idx) := r.andThen fun m => .ok (m, s.result)
  match i with
  | .nop => keep (.ok s.mem)
  | .clr => keep (.ok (clrBody s.mem))
  | .hist k sb => keep (histBody k sb s.n.toNat s.mem)
  | .offs => keep (offsBody s.mem)
  | .scat k sb db => keep (scatBody k sb db s.n s.mem)
  | .pass k sb db => keep (passBody k sb db s.n s.mem)
  | .wsort => keep (wsortBody s.n s.mem)
  | .rev b => keep (reverseRange b s.fromReg.toNat s.toReg.toNat s.mem)
  | .rot b => keep (rotateRange b s.fromReg.toNat s.mid.toNat s.toReg.toNat s.mem)
  | .signb b => (scan b s.n s.mem).andThen fun r => .ok (s.mem, r)
  | .sorti => sortiBody s.n s.mem
  | .sortf => sortfBody s.n s.mem
  | .hwr _ _ => .ok (s.mem, s.result)
  | .hrd _ => .ok (s.mem, s.result)

/-- Every command is its checks, its body and `finish`. -/
theorem exec_command {i : Instr} (h : i.isCommand = true) (s : State) :
    exec i s = s.runCommand (commandChecks i s) (commandBody i s) := by
  cases i <;> first | rfl | simp [Instr.isCommand] at h

/-- How a command that goes on has ended: a check failed and nothing but STATUS changed; or its body ran to
the end; or its body raised an error. -/
theorem runCommand_next {s t : State} {checks : Option ErrCode} {body : Run (Memory × Idx)}
    (h : s.runCommand checks body = .next t) :
    (∃ code, checks = some code ∧ t = s.finish code) ∨
    (∃ m r, checks = none ∧ body = .ok (m, r) ∧
      t = State.finish { s with mem := m, result := r } .none) ∨
    (∃ code m, checks = none ∧ body = .raised code m ∧ t = State.finish { s with mem := m } code) := by
  unfold State.runCommand at h
  cases checks with
  | some code =>
    simp only [Host.Outcome.next.injEq] at h
    exact .inl ⟨code, rfl, h.symm⟩
  | none =>
    match body, h with
    | .ok (m, r), h =>
      simp only [Host.Outcome.next.injEq] at h
      exact .inr (.inl ⟨m, r, rfl, rfl, h.symm⟩)
    | .raised code m, h =>
      simp only [Host.Outcome.next.injEq] at h
      exact .inr (.inr ⟨code, m, rfl, rfl, h.symm⟩)

/-- A command faults only in its body, after its checks. -/
theorem runCommand_fault {s : State} {checks : Option ErrCode} {body : Run (Memory × Idx)} {f : Fault}
    (h : s.runCommand checks body = .fault f) : checks = none ∧ body = .fault f := by
  unfold State.runCommand at h
  cases checks with
  | some code => cases h
  | none =>
    match body, h with
    | .fault e, h =>
      cases h
      exact ⟨rfl, rfl⟩

theorem runCommand_not_refused {s : State} {checks : Option ErrCode} {body : Run (Memory × Idx)}
    {r : Refusal} : s.runCommand checks body ≠ .refused r := by
  unfold State.runCommand
  intro h
  cases checks with
  | some code => cases h
  | none =>
    match body, h with
    | .fault e, h => cases h

/-- A storage command whose body goes on. -/
theorem runStorage_ok {s : State} {m : Memory} {body : Run Memory} (h : body = .ok m) :
    s.runStorageCommand none body = .next (State.finish { s with mem := m } .none) := by
  rw [h]
  rfl

/-- A storage command whose body raises an error. -/
theorem runStorage_raised {s : State} {m : Memory} {code : ErrCode} {body : Run Memory}
    (h : body = .raised code m) :
    s.runStorageCommand none body = .next (State.finish { s with mem := m } code) := by
  rw [h]
  rfl

/-- A storage command whose body faults. -/
theorem runStorage_fault {s : State} {f : Fault} {body : Run Memory} (h : body = .fault f) :
    s.runStorageCommand none body = .fault f := by
  rw [h]
  rfl

/-- What the body of a command can do once its checks have passed: it goes on, changing storage below N only,
and RESULT only in SIGNB, SORTI and SORTF; SCAT alone can raise SCATTER_BOUNDS; or it reads a word that was
UNWRITTEN. -/
theorem commandBody_cases {i : Instr} {s : State} (hc : commandChecks i s = none) :
    (∃ m r, commandBody i s = .ok (m, r) ∧ Memory.Within s.n.toNat s.mem m ∧
      (r = s.result ∨ (r.toNat ≤ s.n.toNat ∧ ¬ s.nMax < s.n ∧
        (i = .sorti ∨ i = .sortf ∨ ∃ b, i = .signb b))) ∧
      (i ∈ [.sorti, .sortf, .signb .b0, .signb .b1] → r.toNat ≤ s.n.toNat)) ∨
    (∃ k sb db m j key p, i = .scat k sb db ∧ sb ≠ db ∧ ¬ s.nMax < s.n ∧
      commandBody i s = .raised .scatterBounds m ∧ Memory.Within s.n.toNat s.mem m ∧
      j < s.n.toNat ∧ m.readKey sb j = some key ∧ m.readCount (digit k key) = some p ∧ s.n ≤ p) ∨
    (∃ b j, s.mem.readKey b j = none ∧ commandBody i s = .fault (.unwrittenKey b j)) ∨
    (∃ d, s.mem.readCount d = none ∧ commandBody i s = .fault (.unwrittenCount d)) := by
  have hnlt := s.n.isLt
  cases i with
  | nop => exact .inl ⟨_, _, rfl, .refl _ _, .inl rfl, by simp⟩
  | clr => exact .inl ⟨_, _, rfl, clrBody_within _ _, .inl rfl, by simp⟩
  | hist k sb =>
    rcases histBody_cases k sb s.n.toNat s.mem with ⟨m, h, _, hw, _⟩ | ⟨j, _, hk, _, h⟩ | ⟨d, hd, h⟩
    · exact .inl ⟨m, _, by simp only [commandBody, h]; rfl, hw, .inl rfl, by simp⟩
    · exact .inr (.inr (.inl ⟨_, _, hk, by simp only [commandBody, h]; rfl⟩))
    · exact .inr (.inr (.inr ⟨_, hd, by simp only [commandBody, h]; rfl⟩))
  | offs =>
    rcases offsBody_cases s.mem with ⟨h, _⟩ | ⟨d, hd, _, h⟩
    · exact .inl ⟨_, _, by simp only [commandBody, h]; rfl, sumsOfTable_within _ _, .inl rfl, by simp⟩
    · exact .inr (.inr (.inr ⟨_, hd, by simp only [commandBody, h]; rfl⟩))
  | scat k sb db =>
    simp only [commandChecks, Option.or_eq_none_iff, checkBanks_none, checkCapacity_none] at hc
    rcases scatBody_cases k hc.2 s.n s.mem with
      ⟨m, h, hw, _⟩ | ⟨m, j, key, p, h, hw, _, hj, hk, hp, hle⟩ | ⟨j, _, hk, h⟩ | ⟨d, hd, h⟩
    · exact .inl ⟨m, _, by simp only [commandBody, h]; rfl, hw, .inl rfl, by simp⟩
    · exact .inr (.inl ⟨k, sb, db, m, j, key, p, rfl, hc.2, hc.1, by simp only [commandBody, h]; rfl, hw,
        hj, hk, hp, hle⟩)
    · exact .inr (.inr (.inl ⟨_, _, hk, by simp only [commandBody, h]; rfl⟩))
    · exact .inr (.inr (.inr ⟨_, hd, by simp only [commandBody, h]; rfl⟩))
  | pass k sb db =>
    simp only [commandChecks, Option.or_eq_none_iff, checkBanks_none, checkCapacity_none] at hc
    rcases passBody_cases k hc.2 s.n s.mem with ⟨m, _, h, hw, _⟩ | ⟨j, _, hk, _, h⟩
    · exact .inl ⟨m, _, by simp only [commandBody, h]; rfl, hw, .inl rfl, by simp⟩
    · exact .inr (.inr (.inl ⟨_, _, hk, by simp only [commandBody, h]; rfl⟩))
  | wsort =>
    rcases wsortBody_cases s.n s.mem with ⟨m, _, _, h, hw, _⟩ | ⟨j, _, hk, _, h⟩
    · exact .inl ⟨m, _, by simp only [commandBody, h]; rfl, hw, .inl rfl, by simp⟩
    · exact .inr (.inr (.inl ⟨_, _, hk, by simp only [commandBody, h]; rfl⟩))
  | rev b =>
    simp only [commandChecks, Option.or_eq_none_iff, checkRevRange_none] at hc
    have hto := BitVec.le_def.mp hc.2.2
    rcases reverseRange_cases b s.fromReg.toNat s.toReg.toNat s.mem with
      ⟨m, h, hw, _⟩ | ⟨j, _, _, _, hk, h⟩
    · exact .inl ⟨m, _, by simp only [commandBody, h]; rfl, hw.mono hto, .inl rfl, by simp⟩
    · exact .inr (.inr (.inl ⟨_, _, hk, by simp only [commandBody, h]; rfl⟩))
  | rot b =>
    simp only [commandChecks, Option.or_eq_none_iff, checkRotRange_none] at hc
    have hto := BitVec.le_def.mp hc.2.2.2
    rcases rotateRange_cases b (BitVec.le_def.mp hc.2.1) (BitVec.le_def.mp hc.2.2.1) s.mem with
      ⟨m, h, hw, _⟩ | ⟨j, _, hk, h⟩
    · exact .inl ⟨m, _, by simp only [commandBody, h]; rfl, hw.mono hto, .inl rfl, by simp⟩
    · exact .inr (.inr (.inl ⟨_, _, hk, by simp only [commandBody, h]; rfl⟩))
  | signb b =>
    simp only [commandChecks, checkCapacity_none] at hc
    rcases scan_cases b s.n s.mem with ⟨r, hr, h, _⟩ | ⟨j, _, hk, _, h⟩
    · exact .inl ⟨_, r, by simp only [commandBody, h]; rfl, .refl _ _,
        .inr ⟨hr, hc, .inr (.inr ⟨b, rfl⟩)⟩, fun _ => hr⟩
    · exact .inr (.inr (.inl ⟨_, _, hk, by simp only [commandBody, h]; rfl⟩))
  | sorti =>
    simp only [commandChecks, checkCapacity_none] at hc
    rcases sortiBody_cases s.n s.mem with ⟨keys, hlen, hold⟩ | ⟨j, _, hk, _, h⟩
    · obtain ⟨m, _, A, _, h, _, _, _, _, hA, hw, _⟩ := sortiBody_sorts hlen hold
      have hle : (BitVec.ofNat 32 A.length).toNat ≤ s.n.toNat := by
        have := List.countP_le_length (p := fun key => !top key) (l := keys)
        rw [BitVec.toNat_ofNat, Nat.mod_eq_of_lt (by omega)]
        omega
      exact .inl ⟨m, _, h, hw, .inr ⟨hle, hc, .inl rfl⟩, fun _ => hle⟩
    · exact .inr (.inr (.inl ⟨_, _, hk, h⟩))
  | sortf =>
    simp only [commandChecks, checkCapacity_none] at hc
    rcases sortfBody_cases s.n s.mem with ⟨keys, hlen, hold⟩ | ⟨j, _, hk, _, h⟩
    · obtain ⟨m, _, A, _, h, _, _, _, _, hA, hw, _⟩ := sortfBody_sorts hlen hold
      have hle : (BitVec.ofNat 32 A.length).toNat ≤ s.n.toNat := by
        have := List.countP_le_length (p := fun key => !top key) (l := keys)
        rw [BitVec.toNat_ofNat, Nat.mod_eq_of_lt (by omega)]
        omega
      exact .inl ⟨m, _, h, hw, .inr ⟨hle, hc, .inr (.inl rfl)⟩, fun _ => hle⟩
    · exact .inr (.inr (.inl ⟨_, _, hk, h⟩))
  | hwr addr data => exact .inl ⟨_, _, rfl, .refl _ _, .inl rfl, by simp⟩
  | hrd addr => exact .inl ⟨_, _, rfl, .refl _ _, .inl rfl, by simp⟩

/-- A command that passes its checks with N above the capacity reads no N: it leaves the banks alone. -/
theorem commandBody_banks {i : Instr} {s : State} {m : Memory} {r : Idx} (hc : commandChecks i s = none)
    (hn : s.nMax < s.n) (h : commandBody i s = .ok (m, r)) (b : BankId) : m.bank b = s.mem.bank b := by
  cases i with
  | nop | hwr _ _ | hrd _ =>
    cases h
    rfl
  | clr =>
    cases h
    exact clrBody_bank s.mem b
  | offs =>
    rcases offsBody_cases s.mem with ⟨h', _⟩ | ⟨d, _, _, h'⟩ <;> simp only [commandBody, h'] at h <;>
      cases h
    cases b <;> rfl
  | hist _ _ | wsort | signb _ | sorti | sortf => exact absurd hn (checkCapacity_none.mp hc)
  | scat _ _ _ | pass _ _ _ | rev _ | rot _ =>
    exact absurd hn (checkCapacity_none.mp (Option.or_eq_none_iff.mp hc).1)

/-! ### Host transactions -/

/-- The register at an address, as an equation of the address (R24). -/
theorem regAt_eq_iff (addr : RegAddr) :
    (regAt addr = .caps ↔ addr = 0x00#8) ∧ (regAt addr = .ctrl ↔ addr = 0x01#8) ∧
    (regAt addr = .status ↔ addr = 0x02#8) ∧ (regAt addr = .cmd ↔ addr = 0x03#8) ∧
    (regAt addr = .n ↔ addr = 0x04#8) ∧ (regAt addr = .fromReg ↔ addr = 0x05#8) ∧
    (regAt addr = .mid ↔ addr = 0x06#8) ∧ (regAt addr = .toReg ↔ addr = 0x07#8) ∧
    (regAt addr = .result ↔ addr = 0x08#8) ∧ (regAt addr = .kbank ↔ addr = 0x09#8) ∧
    (regAt addr = .kaddr ↔ addr = 0x0A#8) ∧ (regAt addr = .kdata ↔ addr = 0x0B#8) ∧
    (regAt addr = .caddr ↔ addr = 0x0C#8) ∧ (regAt addr = .cdata ↔ addr = 0x0D#8) ∧
    (regAt addr = .reserved ↔ 0x0E ≤ addr.toNat) := by
  revert addr
  decide

/-- The state a host write leaves (R60). -/
def hostWrite (addr : RegAddr) (data : Data) (s : State) : State :=
  match regAt addr with
  | .caps => s
  | .ctrl => writeCtrl s data
  | .status => s.acknowledge data
  | .cmd => s.writeUnlessBusy (s.issue data)
  | .n => s.writeUnlessBusy { s with n := low32 data }
  | .fromReg => s.writeUnlessBusy { s with fromReg := low32 data }
  | .mid => s.writeUnlessBusy { s with mid := low32 data }
  | .toReg => s.writeUnlessBusy { s with toReg := low32 data }
  | .result => s
  | .kbank => s.writeUnlessBusy { s with kbank := lowBank data }
  | .kaddr => s.writeUnlessBusy { s with kaddr := low32 data }
  | .kdata => writeKdata s data
  | .caddr => s.writeUnlessBusy { s with caddr := low8 data }
  | .cdata => writeCdata s data
  | .reserved => s

/-- A host write always takes effect (R61). -/
theorem exec_hwr (addr : RegAddr) (data : Data) (s : State) :
    exec (.hwr addr data) s = .next (hostWrite addr data s) := by
  simp only [exec, execHwr, hostWrite]
  cases regAt addr <;> rfl

theorem writeUnlessBusy_busy {s : State} (h : s.status.busy = true) (t : State) :
    s.writeUnlessBusy t = s.refuseWrite := by simp [State.writeUnlessBusy, h]

theorem writeUnlessBusy_idle {s : State} (h : s.status.busy = false) (t : State) :
    s.writeUnlessBusy t = t := by simp [State.writeUnlessBusy, h]

/-- What a host read can do: return a value and change nothing; be refused; go through KDATA, in range or out
of it, or CDATA; or fault at an UNWRITTEN word. -/
theorem exec_hrd_cases (addr : RegAddr) (s : State) :
    (addr ≠ 0x0B#8 ∧ addr ≠ 0x0D#8 ∧ ∃ v, exec (.hrd addr) s = .next (s.returning v)) ∨
    ((addr = 0x0B#8 ∨ addr = 0x0D#8) ∧ s.status.busy = true ∧
      exec (.hrd addr) s = .next s.refuseRead) ∨
    (addr = 0x0B#8 ∧ s.status.busy = false ∧ s.kaddr < s.nMax ∧
      ∃ key, s.mem.readKey s.kbank s.kaddr.toNat = some key ∧
        exec (.hrd addr) s = .next (State.returning { s with kaddr := s.kaddr + 1#32 } key)) ∨
    (addr = 0x0B#8 ∧ s.status.busy = false ∧ s.kaddr < s.nMax ∧
      s.mem.readKey s.kbank s.kaddr.toNat = none ∧
      exec (.hrd addr) s = .fault (.unwrittenKey s.kbank s.kaddr.toNat)) ∨
    (addr = 0x0B#8 ∧ s.status.busy = false ∧ ¬ s.kaddr < s.nMax ∧ exec (.hrd addr) s =
      .next (State.returning { s with kaddr := s.kaddr + 1#32, status := s.status.keyError } 0#64)) ∨
    (addr = 0x0D#8 ∧ s.status.busy = false ∧ ∃ v, s.mem.readCount s.caddr = some v ∧
      exec (.hrd addr) s = .next (State.returning { s with caddr := s.caddr + 1#8 } (zext v))) ∨
    (addr = 0x0D#8 ∧ s.status.busy = false ∧ s.mem.readCount s.caddr = none ∧
      exec (.hrd addr) s = .fault (.unwrittenCount s.caddr)) := by
  by_cases hk : addr = 0x0B#8
  · have he : exec (.hrd addr) s = readKdata s := by
      subst hk
      rfl
    rw [he]
    unfold readKdata
    cases hb : s.status.busy with
    | true => exact .inr (.inl ⟨.inl hk, rfl, by simp⟩)
    | false =>
      by_cases hr : s.kaddr < s.nMax
      · cases hm : s.mem.readKey s.kbank s.kaddr.toNat with
        | some key => exact .inr (.inr (.inl ⟨hk, rfl, hr, key, rfl, by simp [hr]⟩))
        | none => exact .inr (.inr (.inr (.inl ⟨hk, rfl, hr, rfl, by simp [hr]⟩)))
      · exact .inr (.inr (.inr (.inr (.inl ⟨hk, rfl, hr, by simp [hr]⟩))))
  · by_cases hc : addr = 0x0D#8
    · have he : exec (.hrd addr) s = readCdata s := by
        subst hc
        rfl
      rw [he]
      unfold readCdata
      cases hb : s.status.busy with
      | true => exact .inr (.inl ⟨.inr hc, rfl, by simp⟩)
      | false =>
        cases hm : s.mem.readCount s.caddr with
        | some v => exact .inr (.inr (.inr (.inr (.inr (.inl ⟨hc, rfl, v, rfl, by simp⟩)))))
        | none => exact .inr (.inr (.inr (.inr (.inr (.inr ⟨hc, rfl, rfl, by simp⟩)))))
    · refine .inl ⟨hk, hc, ?_⟩
      have hk' : regAt addr ≠ .kdata := fun h => hk ((regAt_eq_iff addr).2.2.2.2.2.2.2.2.2.2.2.1.mp h)
      have hc' : regAt addr ≠ .cdata :=
        fun h => hc ((regAt_eq_iff addr).2.2.2.2.2.2.2.2.2.2.2.2.2.1.mp h)
      simp only [exec, execHrd]
      cases hreg : regAt addr <;> first | exact ⟨_, rfl⟩ | contradiction

/-! ### Steps -/

/-- What a step can do: reset; the engine idling or ending an illegal command or executing a command; the host
idling or making a transaction. -/
theorem step_cases (s : State) :
    (s.nextTurn = .reset ∧ step s = .next s.takeTurn.powerOnReset) ∨
    (s.nextTurn = .engine ∧ s.status.busy = false ∧ step s = .next s.takeTurn) ∨
    (s.nextTurn = .engine ∧ s.status.busy = true ∧ (∃ e, decodeCommand s.lastCmd = .error e) ∧
      step s = .next (s.takeTurn.finish .illegalCmd)) ∨
    (∃ i, s.nextTurn = .engine ∧ s.status.busy = true ∧ decodeCommand s.lastCmd = .ok i ∧
      step s = exec i s.takeTurn) ∨
    (s.nextTurn = .host ∧ s.queue = [] ∧ step s = .next s.takeTurn) ∨
    (∃ w rest, s.nextTurn = .host ∧ s.queue = w :: rest ∧
      step s = exec (decodeTransaction w) { s.takeTurn with queue := rest }) := by
  have he : step s = s.takeTurn.runTurn s.nextTurn := rfl
  rw [he]
  cases s.nextTurn with
  | reset => exact .inl ⟨rfl, rfl⟩
  | engine =>
    have hr : s.takeTurn.runTurn .engine = if s.status.busy then
        match decodeCommand s.lastCmd with
        | .ok i => exec i s.takeTurn
        | .error _ => .next (s.takeTurn.finish .illegalCmd)
      else .next s.takeTurn := rfl
    rw [hr]
    cases s.status.busy with
    | false => exact .inr (.inl ⟨rfl, rfl, rfl⟩)
    | true =>
      cases decodeCommand s.lastCmd with
      | error e => exact .inr (.inr (.inl ⟨rfl, rfl, ⟨e, rfl⟩, rfl⟩))
      | ok i => exact .inr (.inr (.inr (.inl ⟨i, rfl, rfl, rfl, rfl⟩)))
  | host =>
    have hr : s.takeTurn.runTurn .host = match s.queue with
        | w :: rest => exec (decodeTransaction w) { s.takeTurn with queue := rest }
        | [] => .next s.takeTurn := rfl
    rw [hr]
    cases s.queue with
    | nil => exact .inr (.inr (.inr (.inr (.inl ⟨rfl, rfl, rfl⟩))))
    | cons w rest => exact .inr (.inr (.inr (.inr (.inr ⟨w, rest, rfl, rfl, rfl⟩))))

end Sys2Proof.Machine
end

