-- ==== Sys2Proof/Laws/Agreement.lean ====
section
/-! SUPPORT. What the pseudocode of the commands reads: COUNT and key words below N, and nothing else. Two
storages that agree there make a body end alike and leave storages that again agree there
(20_memory.md rule R74). -/

namespace Sys2Proof.Machine

variable {α β : Type}

theorem Memory.AgreesBelow.refl (n : Nat) (m : Memory) : Memory.AgreesBelow n m m :=
  ⟨rfl, fun _ _ _ => rfl⟩

theorem Memory.AgreesBelow.readCount {n : Nat} {m m' : Memory} (h : Memory.AgreesBelow n m m') (d : Digit) :
    m'.readCount d = m.readCount d := Memory.readCount_congr h.1.symm d

theorem Memory.AgreesBelow.readKey {n : Nat} {m m' : Memory} (h : Memory.AgreesBelow n m m') (b : BankId)
    {i : Nat} (hi : i < n) : m'.readKey b i = m.readKey b i := (h.2 b i hi).symm

theorem Memory.AgreesBelow.writeKey {n : Nat} {m m' : Memory} (h : Memory.AgreesBelow n m m') (b : BankId)
    (i : Nat) (v : Key) : Memory.AgreesBelow n (m.writeKey b i v) (m'.writeKey b i v) := by
  refine ⟨by simpa using h.1, fun b' j hj => ?_⟩
  simp only [Memory.readKey_writeKey]
  split
  · rfl
  · exact h.2 b' j hj

theorem Memory.AgreesBelow.writeCount {n : Nat} {m m' : Memory} (h : Memory.AgreesBelow n m m') (d : Digit)
    (v : Idx) : Memory.AgreesBelow n (m.writeCount d v) (m'.writeCount d v) :=
  ⟨by simp only [Memory.writeCount, h.1], fun b j hj => by simpa using h.2 b j hj⟩

theorem Memory.AgreesBelow.setCount {n : Nat} {m m' : Memory} (h : Memory.AgreesBelow n m m') (c : Counts) :
    Memory.AgreesBelow n { m with count := c } { m' with count := c } :=
  ⟨rfl, fun b j hj => by
    cases b
    · exact h.2 .b0 j hj
    · exact h.2 .b1 j hj⟩

/-- Two pieces of pseudocode end alike: with related values, with one error and storages that agree, or with
one fault. -/
def Run.Agree (n : Nat) (R : α → β → Prop) : Run α → Run β → Prop
  | .ok a, .ok b => R a b
  | .raised code m, .raised code' m' => code = code' ∧ Memory.AgreesBelow n m m'
  | .fault e, .fault e' => e = e'
  | _, _ => False

theorem Run.Agree.andThen {γ δ : Type} {n : Nat} {R : α → β → Prop} {S : γ → δ → Prop} {r : Run α}
    {r' : Run β} {f : α → Run γ} {f' : β → Run δ} (h : Run.Agree n R r r')
    (hf : ∀ a b, R a b → Run.Agree n S (f a) (f' b)) : Run.Agree n S (r.andThen f) (r'.andThen f') := by
  cases r <;> cases r' <;> first | exact hf _ _ h | exact h | exact h.elim

theorem loopFrom_agree {n : Nat} {R : α → β → Prop} {body : Nat → α → Run α} {body' : Nat → β → Run β}
    {count i : Nat} {a : α} {b : β} (start : R a b)
    (step : ∀ j a b, i ≤ j → j < i + count → R a b → Run.Agree n R (body j a) (body' j b)) :
    Run.Agree n R (loopFrom body count i a) (loopFrom body' count i b) := by
  induction count generalizing i a b with
  | zero => exact start
  | succ count ih =>
    rw [loopFrom_succ, loopFrom_succ]
    exact (step i a b le_rfl (by omega) start).andThen fun a' b' h =>
      ih h fun j a b hj hj' => step j a b (by omega) (by omega)

variable {n : Nat} {m m' : Memory}

theorem withKey_agree {R : α → β → Prop} (h : Memory.AgreesBelow n m m') {b : BankId} {i : Nat} (hi : i < n)
    {f : Key → Run α} {f' : Key → Run β} (hf : ∀ key, Run.Agree n R (f key) (f' key)) :
    Run.Agree n R (withKey m b i f) (withKey m' b i f') := by
  simp only [withKey, h.readKey b hi]
  cases m.readKey b i with
  | some key => exact hf key
  | none => exact rfl

theorem withCount_agree {R : α → β → Prop} (h : Memory.AgreesBelow n m m') {d : Digit}
    {f : Idx → Run α} {f' : Idx → Run β} (hf : ∀ v, Run.Agree n R (f v) (f' v)) :
    Run.Agree n R (withCount m d f) (withCount m' d f') := by
  simp only [withCount, h.readCount d]
  cases m.readCount d with
  | some v => exact hf v
  | none => exact rfl

theorem histBody_agree (h : Memory.AgreesBelow n m m') (k : BitVec 3) (sb : BankId) :
    Run.Agree n (Memory.AgreesBelow n) (histBody k sb n m) (histBody k sb n m') :=
  loopFrom_agree h fun _ _ _ _ hj h =>
    withKey_agree h (by omega) fun _ => withCount_agree h fun _ => h.writeCount ..

theorem offsBody_agree (h : Memory.AgreesBelow n m m') :
    Run.Agree n (Memory.AgreesBelow n) (offsBody m) (offsBody m') := by
  simp only [offsBody, ← h.1]
  cases firstUnwritten 0 m.count.toList with
  | some d => exact rfl
  | none => exact h.setCount _

theorem scatBody_agree {n : Idx} (h : Memory.AgreesBelow n.toNat m m') (k : BitVec 3) (sb db : BankId) :
    Run.Agree n.toNat (Memory.AgreesBelow n.toNat) (scatBody k sb db n m) (scatBody k sb db n m') := by
  refine loopFrom_agree h fun _ _ _ _ hj h =>
    withKey_agree h (by omega) fun _ => withCount_agree h fun p => ?_
  by_cases hp : n ≤ p
  · rw [if_pos hp, if_pos hp]
    exact ⟨rfl, h⟩
  · rw [if_neg hp, if_neg hp]
    exact (h.writeKey ..).writeCount ..

theorem passBody_agree {n : Idx} (h : Memory.AgreesBelow n.toNat m m') (k : BitVec 3) (sb db : BankId) :
    Run.Agree n.toNat (Memory.AgreesBelow n.toNat) (passBody k sb db n m) (passBody k sb db n m') :=
  (histBody_agree (h.setCount _) k sb).andThen fun _ _ h =>
    (offsBody_agree h).andThen fun _ _ h => scatBody_agree h k sb db

theorem wsortBody_agree {n : Idx} (h : Memory.AgreesBelow n.toNat m m') :
    Run.Agree n.toNat (Memory.AgreesBelow n.toNat) (wsortBody n m) (wsortBody n m') :=
  Run.Agree.andThen (R := fun w w' : Memory × BankId => Memory.AgreesBelow n.toNat w.1 w'.1 ∧ w.2 = w'.2)
    (loopFrom_agree ⟨h, rfl⟩ fun _ w w' _ _ h => by
      obtain ⟨m, b⟩ := w
      obtain ⟨m', b'⟩ := w'
      obtain ⟨h, rfl⟩ := h
      exact (passBody_agree h _ _ _).andThen fun _ _ h => ⟨h, rfl⟩)
    fun _ _ h => h.1

theorem reverseRange_agree (h : Memory.AgreesBelow n m m') (b : BankId) {f t : Nat} (ht : t ≤ n) :
    Run.Agree n (Memory.AgreesBelow n) (reverseRange b f t m) (reverseRange b f t m') :=
  loopFrom_agree h fun _ _ _ _ hj h =>
    withKey_agree h (by omega) fun _ => withKey_agree h (by omega) fun _ => (h.writeKey ..).writeKey ..

theorem rotateRange_agree (h : Memory.AgreesBelow n m m') (b : BankId) {f p t : Nat} (hf : f ≤ p)
    (hp : p ≤ t) (ht : t ≤ n) :
    Run.Agree n (Memory.AgreesBelow n) (rotateRange b f p t m) (rotateRange b f p t m') :=
  (reverseRange_agree h b ht).andThen fun _ _ h =>
    (reverseRange_agree h b (by omega)).andThen fun _ _ h => reverseRange_agree h b ht

theorem scanFrom_agree (h : Memory.AgreesBelow n m m') (b : BankId) {count i : Nat} (hi : i + count ≤ n) :
    Run.Agree n (fun r r' => r = r' ∧ r ≤ i + count) (scanFrom m b count i) (scanFrom m' b count i) := by
  induction count generalizing i with
  | zero => exact ⟨rfl, le_rfl⟩
  | succ count ih =>
    refine withKey_agree h (by omega) fun key => ?_
    cases top key with
    | true => exact ⟨rfl, by omega⟩
    | false =>
      have := ih (i := i + 1) (by omega)
      rwa [Nat.add_right_comm, Nat.add_assoc] at this

theorem scan_agree {n : Idx} (h : Memory.AgreesBelow n.toNat m m') (b : BankId) :
    Run.Agree n.toNat (fun r r' : Idx => r = r' ∧ r.toNat ≤ n.toNat) (scan b n m) (scan b n m') :=
  (scanFrom_agree h b (by omega)).andThen fun r r' hr =>
    ⟨by rw [hr.1], by have := n.isLt; rw [BitVec.toNat_ofNat, Nat.mod_eq_of_lt] <;> omega⟩

theorem sortiBody_agree {n : Idx} (h : Memory.AgreesBelow n.toNat m m') :
    Run.Agree n.toNat (fun w w' => Memory.AgreesBelow n.toNat w.1 w'.1 ∧ w.2 = w'.2)
      (sortiBody n m) (sortiBody n m') :=
  (wsortBody_agree h).andThen fun _ _ h => (scan_agree h .b0).andThen fun r r' hr => by
    obtain ⟨rfl, hr⟩ := hr
    exact (rotateRange_agree h .b0 (Nat.zero_le _) hr le_rfl).andThen fun _ _ h => ⟨h, rfl⟩

theorem sortfBody_agree {n : Idx} (h : Memory.AgreesBelow n.toNat m m') :
    Run.Agree n.toNat (fun w w' => Memory.AgreesBelow n.toNat w.1 w'.1 ∧ w.2 = w'.2)
      (sortfBody n m) (sortfBody n m') :=
  (sortiBody_agree h).andThen fun w w' hw => by
    obtain ⟨h, hr⟩ := hw
    rw [← hr]
    exact (reverseRange_agree h .b0 (Nat.sub_le _ _)).andThen fun _ _ h => ⟨h, rfl⟩

/-- The body of every command, once its checks have passed. -/
theorem commandBody_agree {i : Instr} {s : State} (hc : commandChecks i s = none)
    (h : Memory.AgreesBelow s.n.toNat s.mem m) :
    Run.Agree s.n.toNat (fun w w' => Memory.AgreesBelow s.n.toNat w.1 w'.1 ∧ w.2 = w'.2)
      (commandBody i s) (commandBody i { s with mem := m }) := by
  have keep {r r' : Run Memory} (hr : Run.Agree s.n.toNat (Memory.AgreesBelow s.n.toNat) r r') :
      Run.Agree s.n.toNat (fun w w' => Memory.AgreesBelow s.n.toNat w.1 w'.1 ∧ w.2 = w'.2)
        (r.andThen fun m => .ok (m, s.result)) (r'.andThen fun m => .ok (m, s.result)) :=
    hr.andThen fun _ _ h => ⟨h, rfl⟩
  cases i with
  | nop => exact keep (r := .ok _) (r' := .ok _) h
  | clr => exact keep (r := .ok _) (r' := .ok _) (h.setCount _)
  | hist k sb => exact keep (histBody_agree h k sb)
  | offs => exact keep (offsBody_agree h)
  | scat k sb db => exact keep (scatBody_agree h k sb db)
  | pass k sb db => exact keep (passBody_agree h k sb db)
  | wsort => exact keep (wsortBody_agree h)
  | rev b =>
    simp only [commandChecks, Option.or_eq_none_iff, checkRevRange_none] at hc
    exact keep (reverseRange_agree h b (BitVec.le_def.mp hc.2.2))
  | rot b =>
    simp only [commandChecks, Option.or_eq_none_iff, checkRotRange_none] at hc
    exact keep (rotateRange_agree h b (BitVec.le_def.mp hc.2.1) (BitVec.le_def.mp hc.2.2.1)
      (BitVec.le_def.mp hc.2.2.2))
  | signb b => exact (scan_agree h b).andThen fun _ _ hr => ⟨h, hr.1⟩
  | sorti => exact sortiBody_agree h
  | sortf => exact sortfBody_agree h
  | hwr addr data => exact ⟨h, rfl⟩
  | hrd addr => exact ⟨h, rfl⟩

end Sys2Proof.Machine
end

