-- ==== Sys2Proof/Laws/PerInstr.lean ====
section
/-! SUPPORT. Facts about the instructions as syntax, one lemma per constructor. -/

namespace Sys2Proof.Laws.Legal

/-- An instruction is encoded as what it is: a command as a CMD value that is legal by rule R95, a host
transaction as 73 bits with the W bit of rule R96. -/
def Statement (i : Instr) : Prop :=
  match encode i with
  | .command v => i.isCommand = true ∧ legalCommand v = true
  | .transaction w => i.isCommand = false ∧ (w.getLsbD 72 = true ↔ ∃ addr data, i = .hwr addr data)

theorem nop : Statement .nop := ⟨rfl, by decide⟩

theorem clr : Statement .clr := ⟨rfl, by decide⟩

theorem hist (k : BitVec 3) (sb : BankId) : Statement (.hist k sb) :=
  ⟨rfl, by cases sb <;> (revert k; decide)⟩

theorem offs : Statement .offs := ⟨rfl, by decide⟩

theorem scat (k : BitVec 3) (sb db : BankId) : Statement (.scat k sb db) :=
  ⟨rfl, by cases sb <;> cases db <;> (revert k; decide)⟩

theorem pass (k : BitVec 3) (sb db : BankId) : Statement (.pass k sb db) :=
  ⟨rfl, by cases sb <;> cases db <;> (revert k; decide)⟩

theorem wsort : Statement .wsort := ⟨rfl, by decide⟩

theorem rev (b : BankId) : Statement (.rev b) := ⟨rfl, by cases b <;> decide⟩

theorem rot (b : BankId) : Statement (.rot b) := ⟨rfl, by cases b <;> decide⟩

theorem signb (b : BankId) : Statement (.signb b) := ⟨rfl, by cases b <;> decide⟩

theorem sorti : Statement .sorti := ⟨rfl, by decide⟩

theorem sortf : Statement .sortf := ⟨rfl, by decide⟩

/-- Bit 72 of a transaction is its W bit (R96). -/
theorem transaction_bit (w : BitVec 1) (addr : RegAddr) (data : Data) :
    (w ++ addr ++ data).getLsbD 72 = w.getLsbD 0 := by
  rw [BitVec.getLsbD_append, BitVec.getLsbD_append]
  rfl

theorem hwr (addr : RegAddr) (data : Data) : Statement (.hwr addr data) :=
  ⟨rfl, fun _ => ⟨addr, data, rfl⟩, fun _ => transaction_bit 1#1 addr data⟩

theorem hrd (addr : RegAddr) : Statement (.hrd addr) :=
  ⟨rfl, fun h => Bool.noConfusion ((transaction_bit 0#1 addr 0#64).symm.trans h),
    fun ⟨_, _, h⟩ => Instr.noConfusion h⟩

end Sys2Proof.Laws.Legal
end

