-- ==== Sys2Proof/Tests/Slice0.lean ====
section
/-! SUPPORT. The model's own tests: ill-formed words that are refused, words written out bit by bit from the
encodings of 30_encoding.md, one step of each instruction with the result 95_test_vectors.md gives, and for each
statement with hypotheses a state and operands that meet them. -/

set_option maxRecDepth 100000

namespace Sys2Proof.Tests

open Sys2Proof.Machine

/-! ### Ill-formed command words (30_encoding.md rule R95; vectors V-ILL-1 to V-ILL-9) -/

theorem test_wf_opcode_above_the_map : legalCommand 0x0C#64 = false ∧ legalCommand 0xFF#64 = false ∧
    legalCommand 0x0B#64 = true := by decide

theorem test_wf_reserved_bit : legalCommand 0x801#64 = false ∧ legalCommand 0x4005#64 = false ∧
    legalCommand 0x80000000#64 = false := by decide

theorem test_wf_unused_k : legalCommand 0x107#64 = false ∧ legalCommand 0x10A#64 = false := by decide

theorem test_wf_unused_sb : legalCommand 0x1006#64 = false ∧ legalCommand 0x1007#64 = true := by decide

theorem test_wf_unused_db : legalCommand 0x2002#64 = false ∧ legalCommand 0x2007#64 = false ∧
    legalCommand 0x2004#64 = true := by decide

theorem test_wf_upper_word : legalCommand 0x100000001#64 = false := by decide

theorem test_decode_refuses_each_kind :
    decodeCommand 0x0C#64 = .error .undefinedOpcode ∧ decodeCommand 0xFF#64 = .error .undefinedOpcode ∧
    decodeCommand 0x801#64 = .error .reservedBits ∧ decodeCommand 0x4005#64 = .error .reservedBits ∧
    decodeCommand 0x107#64 = .error .unusedField ∧ decodeCommand 0x1006#64 = .error .unusedField ∧
    decodeCommand 0x2002#64 = .error .unusedField ∧ decodeCommand 0x10A#64 = .error .unusedField ∧
    decodeCommand 0x100000001#64 = .error .upperWord := by decide

/-! ### Words written out bit by bit (30_encoding.md rules R91, R94, R96)

A command word is [31:14] zero, DB, SB, zero, K, OPC; a transaction is W, ADDR, DATA. -/

/-- A command word from its six fields, most significant first, as a CMD value. -/
def word (zero : BitVec 18) (db sb bit11 : BitVec 1) (k : BitVec 3) (opc : BitVec 8) : Data :=
  0#32 ++ zero ++ db ++ sb ++ bit11 ++ k ++ opc

theorem test_decode_nop : decodeCommand (word 0 0b0 0b0 0 0b000 0b00000000) = .ok .nop := by decide

theorem test_decode_clr : decodeCommand (word 0 0b0 0b0 0 0b000 0b00000001) = .ok .clr := by decide

theorem test_decode_hist :
    decodeCommand (word 0 0b0 0b1 0 0b011 0b00000010) = .ok (.hist 3#3 .b1) := by decide

theorem test_decode_offs : decodeCommand (word 0 0b0 0b0 0 0b000 0b00000011) = .ok .offs := by decide

theorem test_decode_scat :
    decodeCommand (word 0 0b1 0b0 0 0b110 0b00000100) = .ok (.scat 6#3 .b0 .b1) := by decide

theorem test_decode_pass :
    decodeCommand (word 0 0b0 0b1 0 0b001 0b00000101) = .ok (.pass 1#3 .b1 .b0) := by decide

theorem test_decode_wsort : decodeCommand (word 0 0b0 0b0 0 0b000 0b00000110) = .ok .wsort := by decide

theorem test_decode_rev : decodeCommand (word 0 0b0 0b1 0 0b000 0b00000111) = .ok (.rev .b1) := by decide

theorem test_decode_rot : decodeCommand (word 0 0b0 0b1 0 0b000 0b00001000) = .ok (.rot .b1) := by decide

theorem test_decode_signb :
    decodeCommand (word 0 0b0 0b1 0 0b000 0b00001001) = .ok (.signb .b1) := by decide

theorem test_decode_sorti : decodeCommand (word 0 0b0 0b0 0 0b000 0b00001010) = .ok .sorti := by decide

theorem test_decode_sortf : decodeCommand (word 0 0b0 0b0 0 0b000 0b00001011) = .ok .sortf := by decide

theorem test_decode_hwr : decodeTransaction (0b1#1 ++ 0b00001011#8 ++ 0x8000000000000001#64) =
    .hwr 0x0B#8 0x8000000000000001#64 := by decide

theorem test_decode_hrd : decodeTransaction (0b0#1 ++ 0b00001101#8 ++ 0xFFFFFFFFFFFFFFFF#64) =
    .hrd 0x0D#8 := by decide

theorem test_table_words : decodeTableWord 32 0x3704 = some (.scat 7#3 .b1 .b1) ∧
    decodeTableWord 32 0x0C = none ∧ decodeTableWord 80 0x1040000000000000005 = some (.hwr 0x04#8 5#64) ∧
    decodeTableWord 73 0x0B0000000000000000 = some (.hrd 0x0B#8) := by decide

/-! ### One step of each instruction -/

/-- The bank with these keys at the indices from `i` up. -/
def cells : Nat → List Key → Bank
  | _, [] => []
  | i, key :: rest => (i, key) :: cells (i + 1) rest

/-- The table with every entry `rest` but the listed ones. -/
def table (rest : Option Idx) (entries : List (Digit × Idx)) : Counts :=
  entries.foldl (fun c e => c.set e.1.toNat (some e.2) e.1.isLt) (Vector.replicate 256 rest)

/-- An idle block of capacity 8 with these contents. -/
def machine (n : Idx) (bank0 bank1 : List Key) (count : Counts) : State :=
  { State.powerOn 8#32 with n := n, mem := { bank0 := cells 0 bank0, bank1 := cells 0 bank1, count := count } }

/-- Two tables hold the same entries. -/
def sameCounts (c c' : Counts) : Bool := c.toList == c'.toList

/-- Two storages hold the same words. -/
def sameWords (m m' : Memory) : Bool := m.bank0 == m'.bank0 && m.bank1 == m'.bank1 && sameCounts m.count m'.count

/-- The table of an idle block after reset. -/
def noCounts : Counts := Vector.replicate 256 none

/-- The outcome is a next state with a property. -/
def nextIs (o : Host.Outcome State Fault Refusal) (p : State → Bool) : Bool :=
  match o with
  | .next s => p s
  | _ => false

/-- The outcome is this fault. -/
def faultIs (o : Host.Outcome State Fault Refusal) (f : Fault) : Bool :=
  match o with
  | .fault e => e == f
  | _ => false

/-- What STATUS reads as. -/
def statusOf (s : State) : Data := s.status.word s.ie

/-- Start S4 of 95_test_vectors.md. -/
def s4 (count : Counts) : State := machine 4#32 [0x0102#64, 0x0201#64, 0x0101#64, 0x0302#64] [] count

/-- Start Q5 of 95_test_vectors.md with FROM, MID and TO. -/
def q5 (f p t : Idx) : State :=
  { machine 5#32 [1#64, 2#64, 3#64, 4#64, 5#64] [] noCounts with fromReg := f, mid := p, toReg := t }

/-- Vectors V-NOP-2 and V-NOP-6: IE = 1, N above the capacity. -/
theorem test_nop : nextIs
    (step (State.withFetchWord { machine 0xFFFFFFFF#32 [] [] noCounts with ie := true } 32 0x0)) (fun t =>
      statusOf t == 0x12#64 && t.lastCmd == 0#64 && irqOf t.status.done t.ie) = true := by decide

/-- Vectors V-CLR-1 and V-CLR-2. -/
theorem test_clr : nextIs (step ((machine 9#32 [] [] noCounts).withFetchWord 32 0x1)) (fun t =>
    sameCounts t.mem.count (table (some 0#32) []) && statusOf t == 0x2#64) = true := by decide

/-- Vector V-HIST-2. -/
theorem test_hist : nextIs (step ((s4 (table (some 0#32) [])).withFetchWord 32 0x102)) (fun t =>
    sameCounts t.mem.count (table (some 0#32) [(1#8, 2#32), (2#8, 1#32), (3#8, 1#32)]) &&
    statusOf t == 0x2#64) = true := by decide

/-- Vector V-HIST-7. -/
theorem test_hist_wraps : nextIs
    (step ((machine 1#32 [0x05#64] [] (table (some 0#32) [(5#8, 0xFFFFFFFF#32)])).withFetchWord 32 0x2))
    (fun t => sameCounts t.mem.count (table (some 0#32) []) && statusOf t == 0x2#64) = true := by decide

/-- Vector V-OFFS-1. -/
theorem test_offs : nextIs
    (step ((machine 0#32 [] [] (table (some 0#32) [(0#8, 1#32), (1#8, 2#32), (2#8, 3#32)])).withFetchWord 32 0x3))
    (fun t => sameCounts t.mem.count (table (some 6#32) [(0#8, 0#32), (1#8, 1#32), (2#8, 3#32)])) = true := by
  decide

/-- Vector V-OFFS-4. -/
theorem test_offs_wraps : nextIs
    (step ((machine 0#32 [] [] (table (some 0#32) [(0#8, 0xFFFFFFFF#32), (1#8, 1#32)])).withFetchWord 32 0x3))
    (fun t => sameCounts t.mem.count (table (some 0#32) [(1#8, 0xFFFFFFFF#32)])) = true := by decide

/-- Vector V-SCAT-1. -/
theorem test_scat : nextIs
    (step ((s4 (table (some 4#32) [(0#8, 0#32), (1#8, 0#32), (2#8, 2#32)])).withFetchWord 32 0x2004))
    (fun t => t.mem.bank1 == cells 0 [0x0201#64, 0x0101#64, 0x0102#64, 0x0302#64] &&
      sameCounts t.mem.count (table (some 4#32) [(0#8, 0#32), (1#8, 2#32)]) && statusOf t == 0x2#64) = true := by
  decide

/-- Vector V-SCAT-3. -/
theorem test_scat_bounds : nextIs
    (step ((machine 2#32 [0x100#64, 0x200#64] [0xAA#64, 0xBB#64]
      (table (some 0#32) [(0#8, 1#32)])).withFetchWord 32 0x2004))
    (fun t => t.mem.bank1 == cells 0 [0xAA#64, 0x100#64] &&
      sameCounts t.mem.count (table (some 0#32) [(0#8, 2#32)]) && statusOf t == 0x502#64) = true := by decide

/-- Vector V-PASS-2. -/
theorem test_pass : nextIs
    (step ((machine 4#32 [0xFF00000000000000#64, 0x0100000000000000#64, 0x8000000000000000#64, 1#64] []
      noCounts).withFetchWord 32 0x2705))
    (fun t => t.mem.bank1 ==
        cells 0 [1#64, 0x0100000000000000#64, 0x8000000000000000#64, 0xFF00000000000000#64] &&
      [0#8, 1#8, 0x7F#8, 0x80#8, 0xFE#8, 0xFF#8].map t.mem.readCount ==
        [some 1#32, some 2#32, some 2#32, some 3#32, some 3#32, some 4#32]) = true := by decide

/-- Vector V-PASS-3. -/
theorem test_pass_one_bank : nextIs (step ((s4 (table (some 9#32) [])).withFetchWord 32 0x3005)) (fun t =>
    sameWords t.mem (s4 (table (some 9#32) [])).mem && statusOf t == 0x402#64) = true := by decide

/-- Vector V-WSORT-1. -/
theorem test_wsort : nextIs
    (step ((machine 4#32 [5#64, 0x0100000000000000#64, 0xFF#64, 0#64] [] noCounts).withFetchWord 32 0x6))
    (fun t => t.mem.bank0 == cells 0 [0#64, 5#64, 0xFF#64, 0x0100000000000000#64] &&
      t.mem.bank1 == cells 0 [0x0100000000000000#64, 0#64, 5#64, 0xFF#64] &&
      [0#8, 1#8, 255#8].map t.mem.readCount == [some 3#32, some 4#32, some 4#32]) = true := by decide

/-- Vector V-REV-11: the middle word of an odd range is UNWRITTEN. -/
theorem test_rev : nextIs
    (step (State.withFetchWord
      { q5 1#32 0#32 4#32 with
        mem := { bank0 := [(0, 1#64), (1, 2#64), (3, 4#64), (4, 5#64)], bank1 := [], count := noCounts } } 32 0x7))
    (fun t => t.mem.bank0 == [(0, 1#64), (1, 4#64), (3, 2#64), (4, 5#64)] && statusOf t == 0x2#64) = true := by
  decide

/-- Vector V-REV-7. -/
theorem test_rev_range : nextIs (step ((q5 0#32 0#32 6#32).withFetchWord 32 0x7)) (fun t =>
    sameWords t.mem (q5 0#32 0#32 6#32).mem && statusOf t == 0x302#64) = true := by decide

/-- Vector V-ROT-1. -/
theorem test_rot : nextIs (step ((q5 0#32 2#32 5#32).withFetchWord 32 0x8)) (fun t =>
    t.mem.bank0 == cells 0 [3#64, 4#64, 5#64, 1#64, 2#64] && statusOf t == 0x2#64) = true := by decide

/-- Vector V-ROT-2. -/
theorem test_rot_inside : nextIs (step ((q5 1#32 2#32 4#32).withFetchWord 32 0x8)) (fun t =>
    t.mem.bank0 == cells 0 [1#64, 3#64, 4#64, 2#64, 5#64]) = true := by decide

/-- Vector V-SIGNB-6: the scan stops before the UNWRITTEN words. -/
theorem test_signb : nextIs
    (step (State.withFetchWord
      { machine 3#32 [0x8000000000000000#64] [] noCounts with result := 7#32 } 32 0x9))
    (fun t => t.result == 0#32 && statusOf t == 0x2#64) = true := by decide

/-- Vector V-SIGNB-2: no key has top bit 1. -/
theorem test_signb_none : nextIs (step ((q5 0#32 0#32 0#32).withFetchWord 32 0x9)) (fun t =>
    t.result == 5#32) = true := by decide

/-- Vector V-SORTI-2. -/
theorem test_sorti : nextIs
    (step ((machine 4#32 [0x7FFFFFFFFFFFFFFF#64, 0x8000000000000000#64, 0#64, 0xFFFFFFFFFFFFFFFF#64] []
      noCounts).withFetchWord 32 0xA))
    (fun t => t.mem.bank0 ==
        cells 0 [0x8000000000000000#64, 0xFFFFFFFFFFFFFFFF#64, 0#64, 0x7FFFFFFFFFFFFFFF#64] &&
      t.mem.bank1 ==
        cells 0 [0x8000000000000000#64, 0#64, 0x7FFFFFFFFFFFFFFF#64, 0xFFFFFFFFFFFFFFFF#64] &&
      t.result == 2#32 && statusOf t == 0x2#64) = true := by decide

/-- Vector E2 without its NaNs and V-SORTF-4: -1.5, -0.0, +0.0, 1.5. -/
theorem test_sortf : nextIs
    (step ((machine 4#32 [0x3FF8000000000000#64, 0x8000000000000000#64, 0#64, 0xBFF8000000000000#64] []
      noCounts).withFetchWord 32 0xB))
    (fun t => t.mem.bank0 ==
        cells 0 [0xBFF8000000000000#64, 0x8000000000000000#64, 0#64, 0x3FF8000000000000#64] &&
      t.result == 2#32 && statusOf t == 0x2#64) = true := by decide

/-- Vector V-KD-1: a write of KDATA. -/
theorem test_hwr : nextIs
    (step (State.withFetchWord { machine 0#32 [] [] noCounts with kbank := .b1, kaddr := 2#32 }
      73 0x10B00000000000000AB))
    (fun t => t.mem.bank1 == [(2, 0xAB#64)] && t.mem.bank0 == [] && t.kaddr == 3#32) = true := by
  decide

/-- Vector V-RST-2: a soft reset of an idle block. -/
theorem test_hwr_soft_reset : nextIs
    (step (State.withFetchWord
      { machine 9#32 [0x55#64] [] noCounts with ie := true, status := { Status.zero with done := true } }
      73 0x1010000000000000002))
    (fun t => t.n == 0#32 && !t.ie && statusOf t == 0#64 && t.mem.bank0 == [(0, 0x55#64)]) = true := by
  decide

/-- Vector V-KD-2: a read of KDATA at the capacity. -/
theorem test_hrd : nextIs
    (step (State.withFetchWord { machine 0#32 [] [] noCounts with kaddr := 8#32, readData := 1#64 }
      73 0x00B0000000000000000))
    (fun t => t.readData == 0#64 && statusOf t == 0x8#64 && t.kaddr == 9#32) = true := by decide

/-- Vector V-RST-1: a read of KDATA right after power-on reset. -/
theorem test_hrd_unwritten : faultIs
    (step (State.reset.withFetchWord 73 0x00B0000000000000000)) (.unwrittenKey .b0 0) = true := by
  decide

/-- Vector V-ILL-4: an illegal value is latched whole and ends with ILLEGAL_CMD. -/
theorem test_illegal : nextIs (step (State.reset.withFetchWord 64 0x100000001)) (fun t =>
    statusOf t == 0x102#64 && t.lastCmd == 0x100000001#64) = true := by decide

/-! ### Storage and reset -/

theorem test_bank_order : bankWrite (bankWrite (bankWrite [] 5 1#64) 2 7#64) 5 3#64 = [(2, 7#64), (5, 3#64)] := by
  decide

theorem test_bank_wf_refuses : bankWf [(2, 7#64), (2, 3#64)] = false ∧ bankWf [(5, 1#64), (2, 7#64)] = false ∧
    bankWf [(2, 7#64), (5, 3#64)] = true := by decide

theorem test_reset_caps : nextIs (step (State.reset.withFetchWord 73 0)) (fun t =>
    t.readData == 0x0140080800000400#64) = true := by decide

/-! ### Witnesses: states and operands that meet the hypotheses of the statements

The name of a witness is the statement's; a number says which clause of it. -/

/-- A test of a next state as a statement about it. -/
theorem exists_next {o : Host.Outcome State Fault Refusal} {p : State → Bool} (h : nextIs o p = true) :
    ∃ t, o = .next t ∧ p t = true := by
  cases o with
  | next t => exact ⟨t, rfl, h⟩
  | fault _ => exact Bool.noConfusion h
  | refused _ => exact Bool.noConfusion h

/-- A block with a command issued and not completed. -/
def issued (v : Data) : State := (s4 (table (some 0#32) [])).issue v

theorem issued_turn (v : Data) : (issued v).status.busy = true ∧ (issued v).nextTurn = .engine ∧
    (issued v).lastCmd = v := ⟨rfl, rfl, rfl⟩

/-- A block whose host makes the transaction `w` next. -/
def asked (s : State) (w : TxnWord) : State := { s with queue := [w] }

theorem witness_IllegalCommandEndsWithIllegalCmdOnly :
    (issued 0x0C#64).status.busy = true ∧ (issued 0x0C#64).nextTurn = .engine ∧
    (s4 noCounts).status.busy = false ∧
    decodeCommand 0x0C#64 = .error .undefinedOpcode ∧ decodeCommand 0x801#64 = .error .reservedBits ∧
    decodeCommand 0x10A#64 = .error .unusedField ∧ decodeCommand 0x100000000#64 = .error .upperWord := by decide

theorem witness_StepRunsTheDecodedInstruction :
    ((issued 0x6#64).nextTurn = .engine ∧ (issued 0x6#64).status.busy = true ∧
      decodeCommand (issued 0x6#64).lastCmd = .ok .wsort) ∧
    (let s := { s4 noCounts with turns := [.engine] };
      s.nextTurn = .engine ∧ s.status.busy = false) ∧
    (let s := asked (s4 noCounts) 0x1030000000000000006#73;
      s.nextTurn = .host ∧ s.queue = [0x1030000000000000006#73]) ∧
    ((s4 noCounts).nextTurn = .host ∧ (s4 noCounts).queue = []) ∧
    (decodeTableWord 32 0xB = some .sortf ∧ 32 ≤ 64) ∧
    (decodeTableWord 65 0x1FF0000000000000000 = some (.hwr 0xFF#8 0#64) ∧ 64 < 65) := by decide

theorem machine_inv (n : Idx) (count : Counts) : (machine n [5#64, 3#64] [] count).Inv := by
  refine ⟨by simp [machine, State.powerOn], rfl, ?_, fun h => Bool.noConfusion h, Nat.zero_le _⟩
  intro b entry he
  cases b <;> revert entry <;> simp [machine, State.powerOn, Memory.bank, cells]

theorem witness_StepKeepsTheInvariant :
    (State.withIssued (machine 2#32 [5#64, 3#64] [] noCounts) 0xA#64).Inv ∧
    ∃ t, step (State.withIssued (machine 2#32 [5#64, 3#64] [] noCounts) 0xA#64) = .next t ∧
      (t.mem.bank0 == cells 0 [3#64, 5#64] && t.result == 2#32) = true := by
  have h := machine_inv 2#32 noCounts
  exact ⟨⟨h.capacity, h.canonical, h.inSpace, fun _ => ⟨rfl, rfl⟩, h.resultInRange⟩, exists_next (by decide)⟩

theorem witness_PowerOnStateMeetsTheInvariant : 1 ≤ (1#32).toNat ∧ 1 ≤ (0xFFFFFFFF#32).toNat := by decide

theorem witness_PowerOnResetValues : State.nextTurn { issued 0x6#64 with turns := [.reset] } = .reset := rfl

theorem witness_SoftResetWhileIdleKeepsStorage :
    (s4 noCounts).status.busy = false ∧ (3#64).getLsbD 1 = true := by decide

theorem witness_SoftResetWhileBusyDiscardsTheCommand :
    (issued 0x6#64).status.busy = true ∧ (2#64).getLsbD 1 = true ∧ 0#32 < (issued 0x6#64).nMax ∧
    7#32 < (issued 0x6#64).nMax := by decide

theorem witness_HostTransactionsComplete :
    (let s := { s4 noCounts with kaddr := 4#32 };
      s.status.busy = false ∧ s.kaddr < s.nMax ∧ s.mem.readKey s.kbank s.kaddr.toNat = none) ∧
    ((s4 noCounts).status.busy = false ∧ (s4 noCounts).mem.readCount (s4 noCounts).caddr = none) := by decide

theorem witness_WidthRule : (s4 (table (some 7#32) [])).status.busy = false ∧
    (s4 (table (some 7#32) [])).mem.readCount 0#8 = some 7#32 ∧ (1#64).getLsbD 1 = false := by decide

theorem witness_ReservedAddressesReadZeroAndIgnoreWrites : 0x0E ≤ (0x0E#8).toNat ∧ 0x0E ≤ (0xFF#8).toNat := by
  decide

theorem witness_CapsIsTheConstant : ∃ t, step (issued 0x1#64) = .next t ∧ (t.nMax == 8#32) = true :=
  exists_next (by decide)

theorem witness_CtrlRegister : (1#64).getLsbD 1 = false ∧ (3#64).getLsbD 1 = true := by decide

theorem witness_StatusBitsChangeOnlyAtTheirEvents_1 :
    (s4 noCounts).status.busy = false ∧
    ∃ t, exec (.hwr 0x03#8 6#64) (s4 noCounts) = .next t ∧ t.status.busy = true :=
  ⟨rfl, exists_next (by decide)⟩

theorem witness_StatusBitsChangeOnlyAtTheirEvents_2 : (issued 0x1#64).status.busy = true ∧
    (issued 0x1#64).status.done = false ∧
    ∃ t, exec .clr (issued 0x1#64) = .next t ∧ (!t.status.busy && t.status.done) = true :=
  ⟨rfl, rfl, exists_next (by decide)⟩

/-- DONE, OVR and KERR are set. -/
def flagged : State :=
  { s4 noCounts with status := { Status.zero with done := true, ovr := true, kerr := true, err := .range } }

theorem witness_StatusBitsChangeOnlyAtTheirEvents_3 : flagged.status.done = true ∧ flagged.status.ovr = true ∧
    flagged.status.kerr = true ∧ ∃ t, exec (.hwr 0x02#8 0xE#64) flagged = .next t ∧
      (!t.status.done && !t.status.ovr && !t.status.kerr) = true :=
  ⟨rfl, rfl, rfl, exists_next (by decide)⟩

theorem witness_StatusBitsChangeOnlyAtTheirEvents_4 : (issued 0x1#64).status.ovr = false ∧
    ∃ t, exec (.hrd 0x0B#8) (issued 0x1#64) = .next t ∧ t.status.ovr = true :=
  ⟨rfl, exists_next (by decide)⟩

/-- A refused write sets OVR, as a refused read does. -/
theorem witness_StatusBitsChangeOnlyAtTheirEvents_6 : (issued 0x1#64).status.ovr = false ∧
    ∃ t, exec (.hwr 0x03#8 6#64) (issued 0x1#64) = .next t ∧ t.status.ovr = true :=
  ⟨rfl, exists_next (by decide)⟩

/-- KADDR = N_MAX, the first index out of range: a read of KDATA sets KERR. -/
theorem witness_StatusBitsChangeOnlyAtTheirEvents_7 :
    (let s := { s4 noCounts with kaddr := (s4 noCounts).nMax };
      s.status.kerr = false ∧ ∃ t, exec (.hrd 0x0B#8) s = .next t ∧ t.status.kerr = true) :=
  ⟨rfl, exists_next (by decide)⟩

theorem witness_StatusBitsChangeOnlyAtTheirEvents_5 :
    ∃ t, exec (.hwr 0x03#8 0#64) flagged = .next t ∧ (t.status.err != flagged.status.err) = true :=
  exists_next (by decide)

theorem witness_AccessesRefusedWhileBusy : (issued 0x6#64).status.busy = true ∧
    (s4 noCounts).status.busy = false ∧
    (∃ t, exec (.hwr 0x0D#8 1#64) (s4 noCounts) = .next t ∧ (t.caddr == 1#8) = true) ∧
    ∃ t, exec (.hrd 0x0B#8) (s4 noCounts) = .next t ∧ (t.kaddr == 1#32) = true :=
  ⟨rfl, rfl, exists_next (by decide), exists_next (by decide)⟩

theorem witness_AccessesAcceptedWhileBusy : (issued 0x6#64).status.busy = true ∧ (1#64).getLsbD 1 = false ∧
    0x0E ≤ (0x0E#8).toNat ∧
    nextIs (exec (.hwr 0x04#8 2#64) (issued 0x6#64)) (fun t => t.status.busy && t.n == 4#32) = true := by decide

theorem witness_KeyWordAccessInRange :
    (let s := { s4 noCounts with kaddr := 0#32 };
      s.status.busy = false ∧ s.kaddr < s.nMax ∧ s.mem.readKey s.kbank s.kaddr.toNat = some 0x0102#64) ∧
    (let s := { s4 noCounts with kaddr := 7#32, kbank := .b1 };
      s.status.busy = false ∧ s.kaddr < s.nMax ∧ s.mem.readKey s.kbank s.kaddr.toNat = none) := by decide

theorem witness_KeyWordAccessOutOfRange :
    (let s := { s4 noCounts with kaddr := 8#32 };
      s.status.busy = false ∧ ¬ s.kaddr < s.nMax) ∧
    (let s := { s4 noCounts with kaddr := 0xFFFFFFFF#32 };
      s.status.busy = false ∧ ¬ s.kaddr < s.nMax ∧
      nextIs (exec (.hwr 0x0B#8 1#64) s) (fun t => t.kaddr == 0#32) = true) ∧
    (let s := asked { s4 noCounts with kaddr := 8#32 } 0x00B0000000000000000#73;
      s.status.kerr = false ∧ nextIs (step s) (fun t => t.status.kerr) = true) := by decide

theorem witness_BucketEntryAccess :
    (let s := s4 (table none [(0#8, 3#32)]);
      s.status.busy = false ∧ s.mem.readCount s.caddr = some 3#32) ∧
    (let s := { s4 (table none [(0#8, 3#32)]) with caddr := 255#8 };
      s.status.busy = false ∧ s.mem.readCount s.caddr = none ∧
      nextIs (exec (.hwr 0x0D#8 9#64) s) (fun t => t.caddr == 0#8) = true) := by decide

theorem witness_OnlyThreeKindsOfReadHaveSideEffects :
    (let s := s4 (table (some 2#32) []);
      s.status.busy = false ∧ nextIs (exec (.hrd 0x0B#8) s) (fun t => t.readData == 0x0102#64) = true ∧
      nextIs (exec (.hrd 0x0D#8) s) (fun t => t.readData == 2#64) = true) ∧
    ((issued 0x1#64).status.busy = true ∧
      nextIs (exec (.hrd 0x0D#8) (issued 0x1#64)) (fun t => t.status.ovr) = true) := by decide

theorem witness_IssueLatchesTheValue : flagged.status.busy = false ∧ (issued 0x0#64).status.busy = true := by
  decide

theorem witness_FirstFailingCheckEndsTheCommand_1 :
    ((issued 0x10A#64).status.busy = true ∧ (issued 0x10A#64).nextTurn = .engine ∧
      decodeCommand (issued 0x10A#64).lastCmd = .error .unusedField) ∧
    (machine 9#32 [] [] noCounts).nMax < (machine 9#32 [] [] noCounts).n ∧
    ¬ (s4 noCounts).nMax < (s4 noCounts).n ∧ ¬ (machine 8#32 [] [] noCounts).nMax < 8#32 := by decide

theorem witness_FirstFailingCheckEndsTheCommand_2 :
    (let s := q5 3#32 0#32 2#32;
      ¬ s.nMax < s.n ∧ ¬(s.fromReg.toNat ≤ s.toReg.toNat ∧ s.toReg.toNat ≤ s.n.toNat)) ∧
    (let s := q5 0#32 6#32 5#32;
      ¬ s.nMax < s.n ∧
      ¬(s.fromReg.toNat ≤ s.mid.toNat ∧ s.mid.toNat ≤ s.toReg.toNat ∧ s.toReg.toNat ≤ s.n.toNat)) ∧
    nextIs (exec (.scat 0#3 .b0 .b1) (machine 2#32 [0x100#64, 0x200#64] [] (table (some 0#32) [(0#8, 1#32)])))
      (fun t => t.status.err == .scatterBounds) = true := by decide

theorem witness_ErrorCodesHaveTheirCauses :
    (decodeCommand (issued 0xC#64).lastCmd = .error .undefinedOpcode) ∧
    nextIs (exec .clr (machine 9#32 [] [] noCounts)) (fun t => t.status.err == .none) = true ∧
    nextIs (exec .wsort (machine 9#32 [] [] noCounts)) (fun t => t.status.err == .capacity) = true ∧
    nextIs (exec (.rev .b0) (q5 3#32 0#32 2#32)) (fun t => t.status.err == .range) = true ∧
    nextIs (exec (.pass 0#3 .b1 .b1) (s4 noCounts)) (fun t => t.status.err == .bankConflict) = true ∧
    nextIs (exec (.scat 0#3 .b0 .b1) (machine 1#32 [5#64] [] (table (some 1#32) [])))
      (fun t => t.status.err == .scatterBounds) = true := by decide

/-- A command that ends with an error. -/
theorem witness_FinishWritesStatusOnly_2 :
    ∃ t, exec .sorti (machine 9#32 [] [] noCounts) = .next t ∧ (t.status.err != .none) = true :=
  exists_next (by decide)

theorem witness_FinishWritesStatusOnly : Instr.isCommand .sorti = true ∧
    ∃ t, exec .sorti (s4 noCounts) = .next t ∧ (t.status.err == .none) = true :=
  ⟨rfl, exists_next (by decide)⟩

theorem witness_CommandsWriteOnlyStorageResultAndStatus_1 : (s4 noCounts).result = 0#32 ∧
    ∃ t, exec .sortf (s4 noCounts) = .next t ∧ (t.result == 4#32 && t.status.err == .none) = true :=
  ⟨rfl, exists_next (by decide)⟩

theorem witness_CommandsWriteOnlyStorageResultAndStatus_2 :
    ∃ t, exec .sortf (machine 9#32 [] [] noCounts) = .next t ∧ (t.status.err != .none) = true :=
  exists_next (by decide)

theorem witness_InterruptFollowsDoneAndEnable :
    nextIs (exec .nop { issued 0x0#64 with ie := true }) (fun t => irqOf t.status.done t.ie) = true ∧
    (let s := { flagged with ie := true };
      irqOf s.status.done s.ie = true ∧ (2#64).getLsbD 1 = true ∧ s.status.busy = false ∧
      (0#64).getLsbD 0 = false ∧ (0#64).getLsbD 1 = false ∧
      nextIs (exec (.hwr 0x02#8 2#64) s) (fun t => t.ie) = true ∧
      nextIs (exec (.hwr 0x03#8 0#64) s) (fun t => t.ie) = true ∧
      nextIs (exec (.hwr 0x01#8 0#64) s) (fun t => t.status.done) = true ∧
      nextIs (exec (.hwr 0x01#8 2#64) s) (fun t => !t.ie) = true ∧
      nextIs (step { s with turns := [.reset] }) (fun t => !t.ie) = true ∧
      nextIs (exec (.hwr 0x02#8 2#64) s) (fun t => !irqOf t.status.done t.ie) = true) ∧
    (irqOf flagged.status.done flagged.ie = false ∧
      nextIs (exec (.hwr 0x01#8 1#64) flagged) (fun t => irqOf t.status.done t.ie) = true) := by decide

theorem witness_DoneRisesOnlyAtCompletion :
    ((issued 0x1#64).status.done = false ∧
      nextIs (step (issued 0x1#64)) (fun t => t.status.done) = true) ∧
    (let s := asked (s4 noCounts) 0x1030000000000000006#73;
      s.status.busy = false ∧ nextIs (step s) (fun t => t.status.busy) = true) ∧
    (let s := { asked (issued 0x1#64) 0x1030000000000000006#73 with turns := [.host] };
      s.status.busy = true ∧ nextIs (step s) (fun t => t.status.busy) = true) := by decide

theorem witness_CommandsChangeOnlyWordsBelowN :
    nextIs (exec .wsort (machine 3#32 [2#64, 1#64, 3#64, 0#64] [] noCounts))
      (fun t => t.mem.readKey .b0 3 == some 0#64 && t.mem.readKey .b0 0 == some 1#64) = true ∧
    nextIs (exec (.rot .b0) (q5 1#32 2#32 4#32)) (fun t => t.mem.readKey .b0 4 == some 5#64) = true ∧
    nextIs (exec .wsort (machine 9#32 [] [] noCounts)) (fun t => t.status.err == .capacity) = true := by decide

theorem witness_CommandsDoNotReadWordsFromN :
    Memory.AgreesBelow 1 (machine 1#32 [2#64] [] noCounts).mem (machine 1#32 [2#64, 7#64] [] noCounts).mem ∧
    nextIs (exec .wsort (machine 1#32 [2#64] [] noCounts)) (fun t => t.status.err == .none) = true ∧
    faultIs (exec (.signb .b1) (machine 1#32 [2#64] [] noCounts)) (.unwrittenKey .b1 0) = true := by
  refine ⟨⟨rfl, fun b i hi => ?_⟩, by decide⟩
  obtain rfl : i = 0 := by omega
  cases b <;> rfl

/-- The keys of start S4. -/
def s4Keys : List Key := [0x0102#64, 0x0201#64, 0x0101#64, 0x0302#64]

theorem s4_holds (count : Counts) : (s4 count).mem.Holds .b0 s4Keys := by
  intro i hi
  simp only [s4Keys, List.length_cons, List.length_nil] at hi
  obtain rfl | rfl | rfl | rfl : i = 0 ∨ i = 1 ∨ i = 2 ∨ i = 3 := by omega
  all_goals rfl

theorem s4_all {p : Key → Prop} (h : p 0x0102#64 ∧ p 0x0201#64 ∧ p 0x0101#64 ∧ p 0x0302#64) :
    ∀ key ∈ s4Keys, p key := by
  simpa [s4Keys] using h

/-- The hypotheses that the statements about all keys of a bank share, in start S4. -/
theorem s4_in_range (count : Counts) : ¬ (s4 count).nMax < (s4 count).n ∧
    s4Keys.length = (s4 count).n.toNat ∧ (s4 count).mem.Holds .b0 s4Keys :=
  ⟨by simp [s4, machine, State.powerOn], rfl, s4_holds count⟩

theorem witness_HistAddsTheHistogram :
    (machine 9#32 [] [] noCounts).nMax < (machine 9#32 [] [] noCounts).n ∧
    (∀ key ∈ s4Keys, (s4 (table (some 0#32) [])).mem.readCount (digit 0#3 key) ≠ none) ∧
    (let s := machine 8#32 [] [] noCounts;
      ¬ s.nMax < s.n ∧ ([] : List Key).length < s.n.toNat ∧ s.mem.readKey .b0 0 = none) ∧
    (let s := machine 1#32 [5#64] [] noCounts;
      ¬ s.nMax < s.n ∧ ([] : List Key).length < s.n.toNat ∧ s.mem.readKey .b0 0 = some 5#64 ∧
      s.mem.readCount (digit 0#3 5#64) = none) :=
  ⟨by decide, s4_all (by decide), by decide, by decide⟩

theorem witness_OffsIsTheExclusivePrefixSum :
    (∀ d, (s4 (table (some 0#32) [])).mem.readCount d = some 0#32) ∧
    (let m := (s4 (table none [(0#8, 1#32)])).mem;
      m.readCount 1#8 = none ∧ ∀ e : Digit, e < 1#8 → m.readCount e ≠ none) ∧
    (let m := (s4 noCounts).mem;
      m.readCount 0#8 = none ∧ ∀ e : Digit, e < 0#8 → m.readCount e ≠ none) := by decide

theorem witness_ScatPlacesKeysAtTheirOffsets_1 :
    let s := s4 (table (some 4#32) [(0#8, 0#32), (1#8, 0#32), (2#8, 2#32)])
    let c : Digit → Idx := fun d => if d = 1#8 then 0#32 else if d = 2#8 then 2#32 else 4#32
    (∀ key ∈ s4Keys, s.mem.readCount (digit 0#3 key) = some (c (digit 0#3 key))) ∧
    (∀ i, i < s4Keys.length → scatterOffset 0#3 c s4Keys i < s.n.toNat) :=
  ⟨s4_all (by decide), by decide⟩

/-- The clause about SCATTER_BOUNDS: vector V-SCAT-3, at its second key. -/
theorem witness_ScatPlacesKeysAtTheirOffsets_2 :
    let s := machine 2#32 [0x100#64, 0x200#64] [0xAA#64, 0xBB#64] (table (some 0#32) [(0#8, 1#32)])
    let c : Digit → Idx := fun d => if d = 0#8 then 1#32 else 0#32
    ¬ s.nMax < s.n ∧ [0x100#64].length < s.n.toNat ∧ s.mem.readKey .b0 1 = some 0x200#64 ∧
    s.mem.readCount (digit 0#3 0x200#64) = some (c (digit 0#3 0x200#64)) ∧
    s.n.toNat ≤ (c (digit 0#3 0x200#64)).toNat + histogram 0#3 [0x100#64] (digit 0#3 0x200#64) ∧
    scatterOffset 0#3 c [0x100#64] 0 < s.n.toNat := by decide

theorem witness_ScatPlacesKeysAtTheirOffsets_3 :
    (machine 9#32 [] [] noCounts).nMax < (machine 9#32 [] [] noCounts).n ∧
    (let s := machine 1#32 [] [] noCounts;
      ([] : List Key).length < s.n.toNat ∧ s.mem.readKey .b0 0 = none) ∧
    (let s := machine 1#32 [5#64] [] noCounts;
      ([] : List Key).length < s.n.toNat ∧ s.mem.readKey .b0 0 = some 5#64 ∧
      s.mem.readCount (digit 0#3 5#64) = none) := by decide

theorem witness_PassIsItsFourSteps : (machine 9#32 [] [] noCounts).nMax < (machine 9#32 [] [] noCounts).n ∧
    ¬ (s4 noCounts).nMax < (s4 noCounts).n ∧ BankId.b0 ≠ .b1 := by decide

theorem witness_ScatWithMatchingOffsetsIsStable :
    let s := s4 (table (some 4#32) [(0#8, 0#32), (1#8, 0#32), (2#8, 2#32)])
    ¬ s.nMax < s.n ∧ s4Keys.length = s.n.toNat ∧ s.mem.Holds .b0 s4Keys ∧
    ∀ d, s.mem.readCount d = some (BitVec.ofNat 32 (startOf 0#3 s4Keys d)) :=
  ⟨(s4_in_range _).1, rfl, s4_holds _, by decide +kernel⟩

theorem witness_PassStablySortsByItsDigit : ¬ (s4 noCounts).nMax < (s4 noCounts).n ∧ BankId.b0 ≠ .b1 ∧
    s4Keys.length = (s4 noCounts).n.toNat ∧ (s4 noCounts).mem.Holds .b0 s4Keys :=
  ⟨(s4_in_range _).1, by decide, (s4_in_range _).2⟩

theorem witness_PassesNeverOverflow :
    nextIs (exec (.pass 0#3 .b0 .b1) (s4 noCounts)) (fun t => t.status.err == .none) = true ∧
    nextIs (exec .wsort (s4 noCounts)) (fun t => t.status.err == .none) = true := by decide

theorem witness_WsortIsEightPingPongPasses :
    (machine 9#32 [] [] noCounts).nMax < (machine 9#32 [] [] noCounts).n ∧
    ¬ (machine 8#32 [] [] noCounts).nMax < (machine 8#32 [] [] noCounts).n := by decide

theorem witness_WsortSortsUnsigned : ¬ (s4 noCounts).nMax < (s4 noCounts).n ∧
    s4Keys.length = (s4 noCounts).n.toNat ∧ (s4 noCounts).mem.Holds .b0 s4Keys := s4_in_range _

theorem witness_WsortLeavesScratchAndCount : ¬ (s4 noCounts).nMax < (s4 noCounts).n ∧
    s4Keys.length = (s4 noCounts).n.toNat ∧ (s4 noCounts).mem.Holds .b0 s4Keys := s4_in_range _

theorem one_holds : (machine 1#32 [5#64] [] noCounts).mem.Holds .b0 [5#64] := by
  intro i hi
  obtain rfl : i = 0 := by simpa using hi
  rfl

theorem witness_WsortIsIdempotentAndPermutes :
    [5#64].length = (machine 1#32 [5#64] [] noCounts).n.toNat ∧
    (machine 1#32 [5#64] [] noCounts).mem.Holds .b0 [5#64] ∧ UnsignedAscending [5#64] ∧
    ∃ t, exec .wsort (machine 1#32 [5#64] [] noCounts) = .next t ∧ (t.status.err == .none) = true :=
  ⟨rfl, one_holds, fun _ h => by simp at h, exists_next (by decide)⟩

theorem witness_RevReversesTheRange :
    (machine 9#32 [] [] noCounts).nMax < (machine 9#32 [] [] noCounts).n ∧
    (let s := q5 0#32 0#32 6#32;
      ¬ s.nMax < s.n ∧ ¬(s.fromReg ≤ s.toReg ∧ s.toReg ≤ s.n)) ∧
    (let s := q5 0#32 0#32 5#32;
      ¬ s.nMax < s.n ∧ s.fromReg ≤ s.toReg ∧ s.toReg ≤ s.n ∧
      ∀ q, q < 5 - 0 → 2 * q + 1 ≠ 5 - 0 → s.mem.readKey .b0 (0 + q) ≠ none) ∧
    (let s := { machine 5#32 [1#64] [] noCounts with toReg := 2#32 };
      ¬ s.nMax < s.n ∧ s.fromReg ≤ s.toReg ∧ s.toReg ≤ s.n ∧
      1 < 2 - 0 ∧ 2 * 1 + 1 ≠ 2 - 0 ∧ s.mem.readKey .b0 (0 + 1) = none) := by decide

theorem witness_RotPutsTheSecondBlockFirst :
    (machine 9#32 [] [] noCounts).nMax < (machine 9#32 [] [] noCounts).n ∧
    (let s := q5 2#32 1#32 5#32;
      ¬ s.nMax < s.n ∧ ¬(s.fromReg ≤ s.mid ∧ s.mid ≤ s.toReg ∧ s.toReg ≤ s.n)) ∧
    (let s := q5 0#32 2#32 5#32;
      ¬ s.nMax < s.n ∧ s.fromReg ≤ s.mid ∧ s.mid ≤ s.toReg ∧ s.toReg ≤ s.n ∧
      ∀ i, i < 5 → RotReads 0 2 5 i → s.mem.readKey .b0 i ≠ none) := by decide

/-- The middle word 1 of the range [0, 3) is UNWRITTEN: it is read with the blocks [0, 1) and [1, 3), and not
with an empty one. -/
theorem witness_RotPutsTheSecondBlockFirst_2 :
    let hole (p : Idx) : State :=
      { State.powerOn 8#32 with
        n := 3#32, mid := p, toReg := 3#32
        mem := { Memory.unwritten with bank0 := [(0, 5#64), (2, 7#64)] } }
    (RotReads 0 1 3 1 ∧ (hole 1#32).mem.readKey .b0 1 = none ∧
      faultIs (exec (.rot .b0) (hole 1#32)) (.unwrittenKey .b0 1) = true) ∧
    ((∀ i, i < 3 → RotReads 0 0 3 i → (hole 0#32).mem.readKey .b0 i ≠ none) ∧
      nextIs (exec (.rot .b0) (hole 0#32)) (fun t => t.mem.bank0 == [(0, 5#64), (2, 7#64)]) = true) ∧
    ((∀ i, i < 3 → RotReads 0 3 3 i → (hole 3#32).mem.readKey .b0 i ≠ none) ∧
      nextIs (exec (.rot .b0) (hole 3#32)) (fun t => t.mem.bank0 == [(0, 5#64), (2, 7#64)]) = true) := by
  decide

theorem witness_ReversalAndRotationAreUndone :
    nextIs (thenExec (exec (.rev .b0) (q5 1#32 0#32 4#32)) (.rev .b0)) (fun t => t.status.err == .none) = true ∧
    nextIs (exec (.rot .b0) (q5 0#32 2#32 5#32)) (fun t => t.status.err == .none &&
      nextIs (exec (.rot .b0) { t with mid := t.fromReg + (t.toReg - t.mid) }) fun u =>
        u.status.err == .none) = true ∧
    nextIs (exec (.rot .b0) (machine 1#32 [5#64] [] noCounts)) (fun t => t.mem.readKey .b0 0 == some 5#64) =
      true := by decide

theorem witness_SignbFindsTheFirstTopBit :
    (machine 9#32 [] [] noCounts).nMax < (machine 9#32 [] [] noCounts).n ∧
    (¬ (s4 noCounts).nMax < (s4 noCounts).n ∧ s4Keys.length = (s4 noCounts).n.toNat ∧
      ∀ key ∈ s4Keys, key.getLsbD 63 = false) ∧
    (let s := machine 8#32 [0x8000000000000000#64] [] noCounts;
      ¬ s.nMax < s.n ∧ ([] : List Key).length < s.n.toNat ∧
      s.mem.readKey .b0 0 = some 0x8000000000000000#64 ∧ (0x8000000000000000#64).getLsbD 63 = true) ∧
    (let s := machine 8#32 [] [] noCounts;
      ¬ s.nMax < s.n ∧ ([] : List Key).length < s.n.toNat ∧ s.mem.readKey .b0 0 = none) :=
  ⟨by decide, ⟨by decide, rfl, s4_all (by decide)⟩, by decide, by decide⟩

theorem witness_SignBoundarySeparatesSortedKeys :
    ¬ (machine 1#32 [5#64] [] noCounts).nMax < (machine 1#32 [5#64] [] noCounts).n ∧
    [5#64].length = (machine 1#32 [5#64] [] noCounts).n.toNat ∧
    (machine 1#32 [5#64] [] noCounts).mem.Holds .b0 [5#64] ∧ UnsignedAscending [5#64] :=
  ⟨by decide, rfl, one_holds, fun _ h => by simp at h⟩

theorem witness_SortiSortsSigned : (machine 9#32 [] [] noCounts).nMax < (machine 9#32 [] [] noCounts).n ∧
    ¬ (s4 noCounts).nMax < (s4 noCounts).n ∧ s4Keys.length = (s4 noCounts).n.toNat ∧
    (s4 noCounts).mem.Holds .b0 s4Keys := ⟨by decide, s4_in_range _⟩

theorem witness_SortfSortsInFloatOrder : (machine 9#32 [] [] noCounts).nMax < (machine 9#32 [] [] noCounts).n ∧
    ¬ (s4 noCounts).nMax < (s4 noCounts).n ∧ s4Keys.length = (s4 noCounts).n.toNat ∧
    (s4 noCounts).mem.Holds .b0 s4Keys := ⟨by decide, s4_in_range _⟩

/-- The word 1 of two is the first UNWRITTEN one. -/
theorem witness_CompositeSortsFault : let s := machine 2#32 [5#64] [] noCounts;
    ¬ s.nMax < s.n ∧ [5#64].length < s.n.toNat ∧ s.mem.readKey .b0 [5#64].length = none ∧
    faultIs (exec .sorti s) (.unwrittenKey .b0 1) = true ∧
    faultIs (exec .sortf s) (.unwrittenKey .b0 1) = true := by decide

theorem witness_CompositeSortsFault_holds : (machine 2#32 [5#64] [] noCounts).mem.Holds .b0 [5#64] := one_holds

/-- -inf, -0.0 and +0.0 in the order of rules R206 and R207: both zeros are present, and so are two keys with
sign bit 1. -/
theorem witness_ZeroAndNanOrderAfterSortf :
    nextIs (exec .sortf (machine 3#32 [0#64, 0xFFF0000000000000#64, 0x8000000000000000#64] [] noCounts)) (fun t =>
      t.status.err == .none && t.mem.bank0 ==
        cells 0 [0xFFF0000000000000#64, 0x8000000000000000#64, 0#64]) = true := by decide

/-- -NaN, -inf, 1.0 and +NaN in the order vector V-SORTF-3 gives them: every clause's case occurs. -/
theorem witness_SortfFollowsFloatValueAndNanSign :
    nextIs (exec .sortf (machine 4#32 [0x7FF8000000000000#64, 0x3FF0000000000000#64, 0xFFF0000000000000#64,
      0xFFF0000000000001#64] [] noCounts)) (fun t => t.status.err == .none &&
        t.mem.bank0 == cells 0 [0xFFF0000000000001#64, 0xFFF0000000000000#64, 0x3FF0000000000000#64,
          0x7FF8000000000000#64]) = true ∧
    isNaN 0xFFF0000000000001#64 = true ∧ isNaN 0xFFF0000000000000#64 = false ∧
    isNaN 0x3FF0000000000000#64 = false ∧ isNaN 0x7FF8000000000000#64 = true := by decide

/-- From the layout of 93_implementation_defined.md G1, in units of 2^-1074: the smallest normal number is 2^52,
the one of exponent field 2 is 2^53, negated with the sign bit; -0.0 is 0. -/
theorem test_float_value : floatValue 0x0010000000000000#64 = 2 ^ 52 ∧
    floatValue 0x8020000000000000#64 = -(2 ^ 53) ∧ floatValue 0x8000000000000000#64 = 0 := by decide

theorem witness_CompositeSortsLeaveWsortScratch :
    (∃ u, exec .wsort (s4 noCounts) = .next u ∧ (u.status.err == .none) = true) ∧
    (∃ t, exec .sorti (s4 noCounts) = .next t ∧ (t.status.err == .none) = true) ∧
    ∃ t, exec .sortf (s4 noCounts) = .next t ∧ (t.status.err == .none) = true :=
  ⟨exists_next (by decide), exists_next (by decide), exists_next (by decide)⟩

theorem witness_CompositeSortsEqualTheirHostPrograms : ¬ (s4 noCounts).nMax < (s4 noCounts).n ∧
    s4Keys.length = (s4 noCounts).n.toNat ∧ (s4 noCounts).mem.Holds .b0 s4Keys := s4_in_range _

theorem witness_StepsStopOnlyAtUnwrittenWords :
    faultIs (step ((machine 1#32 [] [] noCounts).withFetchWord 32 0x6)) (.unwrittenKey .b0 0) = true ∧
    faultIs (step ((s4 noCounts).withFetchWord 32 0x3)) (.unwrittenCount 0#8) = true := by decide

theorem witness_BusyEngineCompletesOnItsTurn : (issued 0x6#64).status.busy = true ∧ (issued 0x6#64).turns = [] ∧
    (issued 0x6#64).nextTurn = .engine := ⟨rfl, rfl, rfl⟩

end Sys2Proof.Tests
end

section
/-! PROOFS, family 10_state.md: the words that CAPS, CTRL, STATUS and KBANK read as, the width rule, what each
host transaction and each command does to N_MAX, DONE and CTRL.IE, and with them the register obligations. -/

namespace Sys2Proof.Machine

/-! ### The words of the registers (R25, R27, R28, R29) -/

theorem capsWord_eq (nMax : Idx) : capsWord nMax = 0x0140080800000000#64 ||| nMax.setWidth 64 := by
  have h := BitVec.setWidth_append_eq_shiftLeft_setWidth_or (w'' := 64) (b := 0x01400808#32) (b' := nMax)
  rwa [BitVec.setWidth_eq] at h

/-- The upper half of CAPS does not depend on the capacity, so its fields are those of a constant. -/
theorem capsWord_field (nMax : Idx) {start : Nat} (len : Nat) (h : 32 ≤ start) :
    (capsWord nMax).extractLsb' start len = (0x01400808#32).extractLsb' (start - 32) len :=
  BitVec.extractLsb'_append_eq_of_le (xhi := 0x01400808#32) h

theorem capsWord_nMax (nMax : Idx) : (capsWord nMax).extractLsb' 0 32 = nMax :=
  BitVec.extractLsb'_append_eq_right (a := 0x01400808#32)

theorem ctrlWord_eq_ite (ie : Bool) : ctrlWord ie = if ie then 1#64 else 0#64 := by
  cases ie <;> rfl

theorem zext_toBit (b : BankId) : zext b.toBit = if b = .b1 then 1#64 else 0#64 := by
  cases b <;> rfl

/-- STATUS has storage in its low 12 bits only. -/
theorem Status.word_eq_setWidth (st : Status) (ie : Bool) : ∃ v : BitVec 12, st.word ie = v.setWidth 64 :=
  ⟨_, rfl⟩

/-- STATUS bit 4 mirrors the interrupt output (R41). -/
theorem Status.word_bit_irq (st : Status) (ie : Bool) : (st.word ie).getLsbD 4 = irqOf st.done ie := by
  simp only [Status.word, zext, BitVec.getLsbD_setWidth, BitVec.getLsbD_append]
  simp

theorem lowBank_eq_ite (data : Data) : lowBank data = if data.getLsbD 0 then .b1 else .b0 := by
  have h : data.extractLsb' 0 1 = BitVec.ofBool (data.getLsbD 0) := by
    ext i hi
    obtain rfl : i = 0 := by omega
    simp
  rw [lowBank, h]
  cases data.getLsbD 0 <;> rfl

/-- The low `w` bits of the data alone have the same bits below `w`. -/
theorem getLsbD_lowBits (data : Data) {w i : Nat} (hi : i < w) (hw : w ≤ 64) :
    ((data.extractLsb' 0 w).setWidth 64).getLsbD i = data.getLsbD i := by
  simp [hi, hi.trans_le hw]

theorem low32_lowBits (data : Data) : low32 ((data.extractLsb' 0 32).setWidth 64) = low32 data := by
  simp only [low32, ← BitVec.setWidth_eq_extractLsb' (show 32 ≤ 64 by decide),
    BitVec.setWidth_setWidth_of_le _ (show 32 ≤ 64 by decide), BitVec.setWidth_eq]

/-! ### What a command, a host read and a host write can do -/

/-- A command that goes on has ended: it has written storage, RESULT and STATUS and nothing else (R124). -/
theorem command_next {i : Instr} {s t : State} (hi : i.isCommand = true) (h : exec i s = .next t) :
    ∃ m r code, t = State.finish { s with mem := m, result := r } code := by
  rw [exec_command hi] at h
  obtain ⟨code, -, rfl⟩ | ⟨m, r, -, -, rfl⟩ | ⟨code, m, -, -, rfl⟩ := runCommand_next h
  · exact ⟨s.mem, s.result, code, rfl⟩
  · exact ⟨m, r, .none, rfl⟩
  · exact ⟨m, s.result, code, rfl⟩

/-- A host read changes at most the port's value, the indices KADDR and CADDR, and OVR and KERR (R71). -/
theorem hrd_next {addr : RegAddr} {s t : State} (h : exec (.hrd addr) s = .next t) :
    ∃ v ka ca ovr kerr, t = { s with
      readData := v, kaddr := ka, caddr := ca, status := { s.status with ovr := ovr, kerr := kerr } } := by
  obtain ⟨-, -, v, he⟩ | ⟨-, -, he⟩ | ⟨-, -, -, v, -, he⟩ | ⟨-, -, -, -, he⟩ | ⟨-, -, -, he⟩ |
    ⟨-, -, v, -, he⟩ | ⟨-, -, -, he⟩ := exec_hrd_cases addr s <;> cases he.symm.trans h <;>
    exact ⟨_, _, _, _, _, rfl⟩

/-- A read of a reserved address returns 0 and changes nothing (R26). -/
theorem exec_hrd_reserved {addr : RegAddr} (h : regAt addr = .reserved) (s : State) :
    exec (.hrd addr) s = .next (s.returning 0#64) := by
  simp [exec, execHrd, h]

/-- A write of a reserved address changes nothing (R26). -/
theorem hostWrite_reserved {addr : RegAddr} (h : regAt addr = .reserved) (data : Data) (s : State) :
    hostWrite addr data s = s := by
  simp [hostWrite, h]

theorem exec_hrd_caps (s : State) :
    exec (.hrd 0x00#8) s = .next { s with readData := 0x0140080800000000#64 ||| s.nMax.setWidth 64 } := by
  rw [← capsWord_eq]
  rfl

theorem exec_hwr_ctrl (data : Data) (s : State) :
    exec (.hwr 0x01#8 data) s = .next (writeCtrl s data) := rfl

theorem exec_hwr_status (data : Data) (s : State) :
    exec (.hwr 0x02#8 data) s = .next (s.acknowledge data) := rfl

theorem exec_hwr_cmd (v : Data) (s : State) :
    exec (.hwr 0x03#8 v) s = .next (s.writeUnlessBusy (s.issue v)) := rfl

theorem writeCtrl_srst {data : Data} (h : data.getLsbD 1 = true) (s : State) :
    writeCtrl s data = s.softReset := by
  simp [writeCtrl, ctrlSrst, h]

theorem writeCtrl_ie {data : Data} (h : data.getLsbD 1 = false) (s : State) :
    writeCtrl s data = { s with ie := data.getLsbD 0 } := by
  simp only [writeCtrl, ctrlSrst, ctrlIe, h, Bool.false_eq_true, if_false]

/-- CTRL takes its value from the bits SRST and IE alone (R28). -/
theorem writeCtrl_congr {data data' : Data} (h0 : data.getLsbD 0 = data'.getLsbD 0)
    (h1 : data.getLsbD 1 = data'.getLsbD 1) (s : State) : writeCtrl s data = writeCtrl s data' := by
  have hie : ctrlIe data = ctrlIe data' := h0
  have hsrst : ctrlSrst data = ctrlSrst data' := h1
  rw [writeCtrl, writeCtrl, hie, hsrst]

/-- The three bits a write of STATUS acknowledges are the only ones it looks at (R29). -/
theorem acknowledge_congr {data data' : Data} (h1 : data.getLsbD 1 = data'.getLsbD 1)
    (h2 : data.getLsbD 2 = data'.getLsbD 2) (h3 : data.getLsbD 3 = data'.getLsbD 3) (s : State) :
    s.acknowledge data = s.acknowledge data' := by
  simp only [State.acknowledge, Status.acknowledged, h1, h2, h3]

/-- CDATA takes the low 32 bits (R25). -/
theorem writeCdata_congr {data data' : Data} (h : low32 data = low32 data') (s : State) :
    writeCdata s data = writeCdata s data' := by
  simp only [writeCdata, h]

/-- A write of a register that is refused while busy, made while idle. -/
theorem exec_hwr_idle {addr : RegAddr} {data : Data} {s accepted : State} (hidle : s.status.busy = false)
    (h : hostWrite addr data s = s.writeUnlessBusy accepted) :
    exec (.hwr addr data) s = .next accepted := by
  rw [exec_hwr, h, writeUnlessBusy_idle hidle]

theorem exec_hrd_cdata_idle {s : State} {v : Idx} (hidle : s.status.busy = false)
    (h : s.mem.readCount s.caddr = some v) :
    exec (.hrd 0x0D#8) s = .next { s with caddr := s.caddr + 1#8, readData := zext v } := by
  have he : exec (.hrd 0x0D#8) s = readCdata s := rfl
  simp [he, readCdata, hidle, h, State.returning]

/-- What both a refusal and the accepted write keep, a write that is refused while busy keeps (R64). -/
theorem writeUnlessBusy_keeps {α : Type} (f : State → α) {s accepted : State}
    (hrefuse : f s.refuseWrite = f s) (haccept : f accepted = f s) :
    f (s.writeUnlessBusy accepted) = f s := by
  unfold State.writeUnlessBusy
  split
  · exact hrefuse
  · exact haccept

theorem writeKdata_nMax (s : State) (data : Data) : (writeKdata s data).nMax = s.nMax :=
  writeUnlessBusy_keeps State.nMax rfl (by split <;> rfl)

theorem writeCtrl_nMax (s : State) (data : Data) : (writeCtrl s data).nMax = s.nMax := by
  unfold writeCtrl
  split <;> rfl

/-- No host write changes the capacity (R27). -/
theorem hostWrite_nMax (addr : RegAddr) (data : Data) (s : State) :
    (hostWrite addr data s).nMax = s.nMax := by
  unfold hostWrite
  cases regAt addr with
  | caps | status | result | reserved => rfl
  | ctrl => exact writeCtrl_nMax s data
  | kdata => exact writeKdata_nMax s data
  | cmd | n | fromReg | mid | toReg | kbank | kaddr | caddr | cdata =>
    exact writeUnlessBusy_keeps State.nMax rfl rfl

/-- What the interrupt output is computed from: STATUS.DONE and CTRL.IE (R41). -/
def State.irqInputs (s : State) : Bool × Bool := (s.status.done, s.ie)

theorem State.irqInputs_eq_iff {s t : State} :
    t.irqInputs = s.irqInputs ↔ t.status.done = s.status.done ∧ t.ie = s.ie := Prod.mk_inj

theorem writeKdata_irqInputs (s : State) (data : Data) : (writeKdata s data).irqInputs = s.irqInputs :=
  writeUnlessBusy_keeps State.irqInputs rfl (by split <;> rfl)

/-- A write of any register but CTRL, STATUS and CMD keeps DONE and IE. -/
theorem hostWrite_irqInputs {addr : RegAddr} (hctrl : addr ≠ 0x01#8) (hstatus : addr ≠ 0x02#8)
    (hcmd : addr ≠ 0x03#8) (data : Data) (s : State) :
    (hostWrite addr data s).irqInputs = s.irqInputs := by
  obtain ⟨-, ctrl_iff, status_iff, cmd_iff, -⟩ := regAt_eq_iff addr
  unfold hostWrite
  cases hreg : regAt addr with
  | ctrl => exact absurd (ctrl_iff.mp hreg) hctrl
  | status => exact absurd (status_iff.mp hreg) hstatus
  | cmd => exact absurd (cmd_iff.mp hreg) hcmd
  | caps | result | reserved => rfl
  | kdata => exact writeKdata_irqInputs s data
  | n | fromReg | mid | toReg | kbank | kaddr | caddr | cdata =>
    exact writeUnlessBusy_keeps State.irqInputs rfl rfl

/-! ### The reset input and the capacity (R27, R250) -/

theorem step_reset {s : State} (h : s.nextTurn = .reset) : step s = .next s.takeTurn.powerOnReset := by
  rw [step, h]
  rfl

theorem exec_nMax {i : Instr} {s t : State} (h : exec i s = .next t) : t.nMax = s.nMax := by
  cases hi : i.isCommand with
  | true =>
    obtain ⟨m, r, code, rfl⟩ := command_next hi h
    rfl
  | false =>
    cases i with
    | hwr addr data =>
      cases (exec_hwr addr data s).symm.trans h
      exact hostWrite_nMax addr data s
    | hrd addr =>
      obtain ⟨v, ka, ca, ovr, kerr, rfl⟩ := hrd_next h
      rfl
    | _ => cases hi

/-- No step changes the capacity, a reset included. -/
theorem step_nMax {s t : State} (h : step s = .next t) : t.nMax = s.nMax := by
  obtain ⟨-, he⟩ | ⟨-, -, he⟩ | ⟨-, -, -, he⟩ | ⟨i, -, -, -, he⟩ | ⟨-, -, he⟩ | ⟨w, rest, -, -, he⟩ :=
    step_cases s <;> rw [he] at h
  · cases h; rfl
  · cases h; rfl
  · cases h; rfl
  · exact (exec_nMax h).trans s.takeTurn_nMax
  · cases h; rfl
  · exact (exec_nMax h).trans s.takeTurn_nMax

/-! ### DONE and CTRL.IE (R41, R228) -/

/-- What an instruction can do to the inputs of the interrupt: a completion sets DONE; an issue clears it; a
write of STATUS clears it where bit 1 is 1; a write of CTRL clears both or stores IE; nothing else changes
either. -/
theorem exec_irqInputs_cases {i : Instr} {s t : State} (h : exec i s = .next t) :
    (i.isCommand = true ∧ t.status.done = true ∧ t.ie = s.ie) ∨
    (t.status.done = s.status.done ∧ t.ie = s.ie) ∨
    (∃ v, i = .hwr 0x03#8 v ∧ t.status.done = false ∧ t.ie = s.ie) ∨
    (∃ data, i = .hwr 0x02#8 data ∧ t.status.done = (s.status.done && !data.getLsbD 1) ∧ t.ie = s.ie) ∨
    (∃ data, i = .hwr 0x01#8 data ∧ data.getLsbD 1 = true ∧ t.status.done = false ∧ t.ie = false) ∨
    (∃ data, i = .hwr 0x01#8 data ∧ data.getLsbD 1 = false ∧ t.status.done = s.status.done ∧
      t.ie = data.getLsbD 0) := by
  cases hi : i.isCommand with
  | true =>
    obtain ⟨m, r, code, rfl⟩ := command_next hi h
    exact .inl ⟨rfl, rfl, rfl⟩
  | false =>
    refine .inr ?_
    cases i with
    | hrd addr =>
      obtain ⟨v, ka, ca, ovr, kerr, rfl⟩ := hrd_next h
      exact .inl ⟨rfl, rfl⟩
    | hwr addr data =>
      by_cases hcmd : addr = 0x03#8
      · subst hcmd
        cases (exec_hwr_cmd data s).symm.trans h
        cases hb : s.status.busy with
        | true => exact .inl (by simp [writeUnlessBusy_busy hb])
        | false => exact .inr (.inl ⟨data, rfl, by simp [writeUnlessBusy_idle hb]⟩)
      by_cases hstatus : addr = 0x02#8
      · subst hstatus
        cases (exec_hwr_status data s).symm.trans h
        exact .inr (.inr (.inl ⟨data, rfl, rfl, rfl⟩))
      by_cases hctrl : addr = 0x01#8
      · subst hctrl
        cases (exec_hwr_ctrl data s).symm.trans h
        cases hsrst : data.getLsbD 1 with
        | true =>
          rw [writeCtrl_srst hsrst]
          exact .inr (.inr (.inr (.inl ⟨data, rfl, hsrst, rfl, rfl⟩)))
        | false =>
          rw [writeCtrl_ie hsrst]
          exact .inr (.inr (.inr (.inr ⟨data, rfl, hsrst, rfl, rfl⟩)))
      cases (exec_hwr addr data s).symm.trans h
      exact .inl (State.irqInputs_eq_iff.mp (hostWrite_irqInputs hctrl hstatus hcmd data s))
    | _ => cases hi

/-- IRQ falls in an instruction only at an issue, at a write of 1 to STATUS bit 1, or at a write of CTRL with
IE = 0 or SRST = 1. -/
theorem exec_lowers_irq {i : Instr} {s t : State} (h : exec i s = .next t)
    (before : irqOf s.status.done s.ie = true) (after : irqOf t.status.done t.ie = false) :
    (∃ v, i = .hwr 0x03#8 v) ∨ (∃ data, i = .hwr 0x02#8 data ∧ data.getLsbD 1 = true) ∨
      ∃ data, i = .hwr 0x01#8 data ∧ (data.getLsbD 0 = false ∨ data.getLsbD 1 = true) := by
  simp only [irqOf, Bool.and_eq_true] at before
  obtain ⟨hdone, hie⟩ := before
  obtain ⟨-, hd, he⟩ | ⟨hd, he⟩ | ⟨v, rfl, -⟩ | ⟨data, rfl, hd, he⟩ | ⟨data, rfl, hsrst, -⟩ |
    ⟨data, rfl, -, hd, he⟩ := exec_irqInputs_cases h
  · simp [irqOf, hd, he, hie] at after
  · simp [irqOf, hd, he, hdone, hie] at after
  · exact .inl ⟨v, rfl⟩
  · rw [irqOf, hd, he, hdone, hie] at after
    exact .inr (.inl ⟨data, rfl, by simpa using after⟩)
  · exact .inr (.inr ⟨data, rfl, .inr hsrst⟩)
  · rw [irqOf, hd, he, hdone] at after
    exact .inr (.inr ⟨data, rfl, .inl (by simpa using after)⟩)

/-- IRQ rises in an instruction only at a completion, or at a write of CTRL with IE = 1 while DONE is set. -/
theorem exec_raises_irq {i : Instr} {s t : State} (h : exec i s = .next t)
    (before : irqOf s.status.done s.ie = false) (after : irqOf t.status.done t.ie = true) :
    i.isCommand = true ∨
      (s.status.done = true ∧ ∃ data, i = .hwr 0x01#8 data ∧ data.getLsbD 0 = true) := by
  simp only [irqOf, Bool.and_eq_true] at after
  obtain ⟨hdone, hie⟩ := after
  obtain ⟨hi, -⟩ | ⟨hd, he⟩ | ⟨v, -, hd, -⟩ | ⟨data, -, hd, he⟩ | ⟨data, -, -, hd, -⟩ |
    ⟨data, rfl, -, hd, he⟩ := exec_irqInputs_cases h
  · exact .inl hi
  · simp [irqOf, ← hd, ← he, hdone, hie] at before
  · simp [hd] at hdone
  · rw [hd, Bool.and_eq_true] at hdone
    simp [irqOf, ← he, hdone, hie] at before
  · simp [hd] at hdone
  · exact .inr ⟨hd.symm.trans hdone, data, rfl, he.symm.trans hie⟩

/-! ### The obligations -/

/-- Settles O15: CAPS is its constant word, whose upper half does not depend on N_MAX; and no step changes
N_MAX. -/
theorem capsIsTheConstant : Obligations.CapsIsTheConstant := by
  intro s
  refine ⟨exec_hrd_caps s, ⟨capsWord s.nMax, rfl, capsWord_nMax s.nMax, ?_, ?_, ?_, ?_⟩,
    fun t => step_nMax⟩ <;>
    rw [capsWord_field s.nMax _ (by decide)] <;> rfl

/-- Settles O30: each event's effect on DONE and IE is that of its instruction; that no other event changes
IRQ is read off the cases of `exec_irqInputs_cases`. -/
theorem interruptFollowsDoneAndEnable : Obligations.InterruptFollowsDoneAndEnable := by
  refine ⟨fun s => ⟨s.status.word s.ie, rfl, Status.word_bit_irq _ _, rfl⟩, ?completion, ?acknowledge,
    ?issue, ?disable, ?softReset, ?resetInput,
    fun i s t h => ⟨exec_lowers_irq h, exec_raises_irq h⟩⟩
  case completion =>
    intro i s t hi h
    obtain ⟨m, r, code, rfl⟩ := command_next hi h
    simp [irqOf]
  case acknowledge =>
    intro s t data hbit h
    cases (exec_hwr_status data s).symm.trans h
    simp only [State.acknowledge_status, Status.acknowledged_done, State.acknowledge_ie, hbit]
    simp [irqOf]
  case issue =>
    intro s t v hidle h
    cases (exec_hwr_cmd v s).symm.trans h
    simp [writeUnlessBusy_idle hidle, irqOf]
  case disable =>
    intro s t data hie hsrst h
    rw [exec_hwr_ctrl, writeCtrl_ie hsrst, hie] at h
    cases h
    simp [irqOf]
  case softReset =>
    intro s t data hsrst h
    rw [exec_hwr_ctrl, writeCtrl_srst hsrst] at h
    cases h
    simp [irqOf]
  case resetInput =>
    intro s t hturn h
    cases (step_reset hturn).symm.trans h
    simp [irqOf]

/-- Settles O9: the step is the reset input's, which leaves the registers and the storage of power-on. -/
theorem powerOnResetValues : Obligations.PowerOnResetValues := by
  intro s hturn
  refine ⟨s.takeTurn.powerOnReset, step_reset hturn, ?_⟩
  have hcaps := exec_hrd_caps s.takeTurn.powerOnReset
  rw [State.powerOnReset_nMax, State.takeTurn_nMax] at hcaps
  simp only [hcaps, State.powerOnReset_mem, Memory.unwritten_readKey, Memory.unwritten_readCount]
  simp [Status.zero, irqOf]

/-- Settles O13: the stored value is the low bits of the data, a read is a zero-extension, and CAPS and RESULT
ignore a write. -/
theorem widthRule : Obligations.WidthRule := by
  refine ⟨?idleWrites, ?acceptedWrites, ?reads, fun s data => ⟨rfl, rfl⟩⟩
  case idleWrites =>
    intro s data hidle
    refine ⟨exec_hwr_idle hidle rfl, exec_hwr_idle hidle rfl, exec_hwr_idle hidle rfl,
      exec_hwr_idle hidle rfl, ?_, exec_hwr_idle hidle rfl, exec_hwr_idle hidle rfl, ?_⟩
    · rw [← lowBank_eq_ite]
      exact exec_hwr_idle hidle rfl
    · exact congrArg Host.Outcome.next (writeCdata_congr (low32_lowBits data).symm s)
  case acceptedWrites =>
    intro s data
    refine ⟨congrArg Host.Outcome.next (writeCtrl_congr ?_ ?_ s),
      congrArg Host.Outcome.next (acknowledge_congr ?_ ?_ ?_ s),
      fun hsrst => by rw [exec_hwr_ctrl, writeCtrl_ie hsrst]⟩ <;>
      exact (getLsbD_lowBits data (by decide) (by decide)).symm
  case reads =>
    intro s
    refine ⟨rfl, ?status, rfl, rfl, rfl, rfl, rfl, ?kbank, rfl, rfl, fun v => exec_hrd_cdata_idle⟩
    case status =>
      obtain ⟨v, hv⟩ := s.status.word_eq_setWidth s.ie
      exact ⟨v, hv ▸ rfl⟩
    case kbank =>
      rw [← zext_toBit]
      rfl

/-- Settles O14: every address from 0x0E up is that of no register. -/
theorem reservedAddressesReadZeroAndIgnoreWrites :
    Obligations.ReservedAddressesReadZeroAndIgnoreWrites := by
  intro addr data s haddr
  obtain ⟨-, -, -, -, -, -, -, -, -, -, -, -, -, -, reserved_iff⟩ := regAt_eq_iff addr
  have hreg := reserved_iff.mpr haddr
  exact ⟨exec_hrd_reserved hreg s, by rw [exec_hwr, hostWrite_reserved hreg]⟩

/-- Settles O16: SRST decides between a soft reset and storing IE. -/
theorem ctrlRegister : Obligations.CtrlRegister := by
  refine ⟨fun s => ?_, fun s data hsrst => by rw [exec_hwr_ctrl, writeCtrl_ie hsrst],
    fun s data hsrst => ⟨s.softReset, by rw [exec_hwr_ctrl, writeCtrl_srst hsrst], by simp⟩⟩
  rw [← ctrlWord_eq_ite]
  rfl

end Sys2Proof.Machine
end

section
/-! PROOFS, family 20_memory.md: what a host transaction does to STATUS, the accesses that are refused while the
engine is busy, and the accesses of storage through KDATA and CDATA. -/

namespace Sys2Proof.Machine

/-! ### The addresses of KDATA and CDATA (R24) -/

theorem regAt_eq_kdata {addr : RegAddr} : regAt addr = .kdata ↔ addr = 0x0B#8 := by
  obtain ⟨-, -, -, -, -, -, -, -, -, -, -, kdata_iff, -⟩ := regAt_eq_iff addr
  exact kdata_iff

theorem regAt_eq_cdata {addr : RegAddr} : regAt addr = .cdata ↔ addr = 0x0D#8 := by
  obtain ⟨-, -, -, -, -, -, -, -, -, -, -, -, -, cdata_iff, -⟩ := regAt_eq_iff addr
  exact cdata_iff

/-! ### KDATA (R66, R67) -/

theorem exec_hrd_kdata (s : State) : exec (.hrd 0x0B#8) s = readKdata s := rfl

theorem exec_hwr_kdata (data : Data) (s : State) :
    exec (.hwr 0x0B#8 data) s = .next (writeKdata s data) := rfl

theorem readKdata_written {s : State} {key : Key} (hidle : s.status.busy = false)
    (hin : s.kaddr < s.nMax) (hkey : s.mem.readKey s.kbank s.kaddr.toNat = some key) :
    readKdata s = .next { s with kaddr := s.kaddr + 1#32, readData := key } := by
  simp [readKdata, hidle, hin, hkey, State.returning]

theorem readKdata_unwritten {s : State} (hidle : s.status.busy = false)
    (hin : s.kaddr < s.nMax) (hkey : s.mem.readKey s.kbank s.kaddr.toNat = none) :
    readKdata s = .fault (.unwrittenKey s.kbank s.kaddr.toNat) := by
  simp [readKdata, hidle, hin, hkey]

theorem readKdata_outOfRange {s : State} (hidle : s.status.busy = false) (hout : ¬ s.kaddr < s.nMax) :
    readKdata s = .next { s with
      kaddr := s.kaddr + 1#32, status := { s.status with kerr := true }, readData := 0#64 } := by
  simp [readKdata, hidle, hout, State.returning, Status.keyError]

theorem writeKdata_inRange {s : State} (hidle : s.status.busy = false) (hin : s.kaddr < s.nMax)
    (data : Data) : writeKdata s data = { s with
      mem := s.mem.writeKey s.kbank s.kaddr.toNat data, kaddr := s.kaddr + 1#32 } := by
  rw [writeKdata, writeUnlessBusy_idle hidle, if_pos hin]

theorem writeKdata_outOfRange {s : State} (hidle : s.status.busy = false) (hout : ¬ s.kaddr < s.nMax)
    (data : Data) : writeKdata s data = { s with
      kaddr := s.kaddr + 1#32, status := { s.status with kerr := true } } := by
  rw [writeKdata, writeUnlessBusy_idle hidle, if_neg hout]
  rfl

/-- An accepted read of KDATA that goes on increments KADDR, in range or not. -/
theorem hrd_kdata_kaddr {s t : State} (hidle : s.status.busy = false)
    (h : exec (.hrd 0x0B#8) s = .next t) : t.kaddr = s.kaddr + 1#32 := by
  rw [exec_hrd_kdata] at h
  by_cases hin : s.kaddr < s.nMax
  · cases hkey : s.mem.readKey s.kbank s.kaddr.toNat with
    | some key => cases (readKdata_written hidle hin hkey).symm.trans h; rfl
    | none => cases (readKdata_unwritten hidle hin hkey).symm.trans h
  · cases (readKdata_outOfRange hidle hin).symm.trans h; rfl

/-- An accepted write of KDATA increments KADDR, in range or not. -/
theorem writeKdata_kaddr {s : State} (hidle : s.status.busy = false) (data : Data) :
    (writeKdata s data).kaddr = s.kaddr + 1#32 := by
  by_cases hin : s.kaddr < s.nMax
  · rw [writeKdata_inRange hidle hin]
  · rw [writeKdata_outOfRange hidle hin]

/-! ### CDATA (R68) -/

theorem exec_hwr_cdata (data : Data) (s : State) :
    exec (.hwr 0x0D#8 data) s = .next (writeCdata s data) := rfl

theorem exec_hrd_cdata_unwritten {s : State} (hidle : s.status.busy = false)
    (h : s.mem.readCount s.caddr = none) : exec (.hrd 0x0D#8) s = .fault (.unwrittenCount s.caddr) := by
  have he : exec (.hrd 0x0D#8) s = readCdata s := rfl
  simp [he, readCdata, hidle, h]

theorem writeCdata_idle {s : State} (hidle : s.status.busy = false) (data : Data) :
    writeCdata s data = { s with
      mem := s.mem.writeCount s.caddr (low32 data), caddr := s.caddr + 1#8 } :=
  writeUnlessBusy_idle hidle _

/-- An accepted read of CDATA that goes on increments CADDR. -/
theorem hrd_cdata_caddr {s t : State} (hidle : s.status.busy = false)
    (h : exec (.hrd 0x0D#8) s = .next t) : t.caddr = s.caddr + 1#8 := by
  cases hv : s.mem.readCount s.caddr with
  | some v => cases (exec_hrd_cdata_idle hidle hv).symm.trans h; rfl
  | none => cases (exec_hrd_cdata_unwritten hidle hv).symm.trans h

/-! ### Refused and accepted accesses (R64, R65, R71) -/

/-- The registers whose writes are refused while the engine is busy (R64). -/
def refusedWrites : List RegAddr :=
  [0x03#8, 0x04#8, 0x05#8, 0x06#8, 0x07#8, 0x09#8, 0x0A#8, 0x0B#8, 0x0C#8, 0x0D#8]

/-- A refused write has no effect but OVR. -/
theorem hostWrite_refused {s : State} {addr : RegAddr} (hbusy : s.status.busy = true)
    (haddr : addr ∈ refusedWrites) (data : Data) : hostWrite addr data s = s.refuseWrite := by
  simp only [refusedWrites, List.mem_cons, List.not_mem_nil, or_false] at haddr
  obtain rfl | rfl | rfl | rfl | rfl | rfl | rfl | rfl | rfl | rfl := haddr <;>
    exact writeUnlessBusy_busy hbusy _

/-- A refused read returns 0 and has no effect but OVR. -/
theorem exec_hrd_refused {s : State} {addr : RegAddr} (hbusy : s.status.busy = true)
    (haddr : addr = 0x0B#8 ∨ addr = 0x0D#8) : exec (.hrd addr) s = .next s.refuseRead := by
  obtain rfl | rfl := haddr <;> exact if_pos hbusy

/-- While busy, a host write of CTRL with SRST = 1 resets the block, and every other one changes at most IE and
STATUS. -/
theorem hostWrite_busy {s : State} (hbusy : s.status.busy = true) (addr : RegAddr) (data : Data) :
    hostWrite addr data s = s.softReset ∨
      ∃ ie status, hostWrite addr data s = { s with ie := ie, status := status } := by
  unfold hostWrite
  cases regAt addr with
  | caps | result | reserved => exact .inr ⟨_, _, rfl⟩
  | status => exact .inr ⟨_, _, rfl⟩
  | ctrl =>
    cases hsrst : data.getLsbD 1 with
    | true => exact .inl (writeCtrl_srst hsrst s)
    | false => exact .inr ⟨_, _, writeCtrl_ie hsrst s⟩
  | cmd | n | fromReg | mid | toReg | kbank | kaddr | kdata | caddr | cdata =>
    exact .inr ⟨_, _, writeUnlessBusy_busy hbusy _⟩

/-- While busy, a host read changes at most the port's value and STATUS. -/
theorem hrd_busy {s t : State} {addr : RegAddr} (hbusy : s.status.busy = true)
    (h : exec (.hrd addr) s = .next t) : ∃ v status, t = { s with readData := v, status := status } := by
  obtain ⟨-, -, v, he⟩ | ⟨-, -, he⟩ | ⟨-, hidle, -⟩ | ⟨-, hidle, -⟩ | ⟨-, hidle, -⟩ | ⟨-, hidle, -⟩ |
    ⟨-, hidle, -⟩ := exec_hrd_cases addr s
  · cases he.symm.trans h; exact ⟨_, _, rfl⟩
  · cases he.symm.trans h; exact ⟨_, _, rfl⟩
  all_goals exact absurd hbusy (Bool.eq_false_iff.mp hidle)

/-- A read of any register but KDATA and CDATA changes nothing but the port's value, and does not depend on
it. -/
theorem exec_hrd_pure {addr : RegAddr} (hk : addr ≠ 0x0B#8) (hc : addr ≠ 0x0D#8) (s : State) :
    ∃ v, ∀ old, exec (.hrd addr) { s with readData := old } = .next { s with readData := v } := by
  simp only [exec, execHrd]
  cases hreg : regAt addr with
  | kdata => exact absurd (regAt_eq_kdata.mp hreg) hk
  | cdata => exact absurd (regAt_eq_cdata.mp hreg) hc
  | _ => exact ⟨_, fun _ => rfl⟩

theorem and_not_eq_ite (flag written : Bool) :
    (flag && !written) = if written then false else flag := by
  cases written <;> simp

/-! ### What a host transaction does to STATUS (R29, R64, R67) -/

/-- A host read changes STATUS only when it is refused, or reads KDATA out of range. -/
theorem hrd_status_cases {addr : RegAddr} {s t : State} (h : exec (.hrd addr) s = .next t) :
    t.status = s.status ∨
    ((addr = 0x0B#8 ∨ addr = 0x0D#8) ∧ s.status.busy = true ∧ t.status = s.status.refusing) ∨
    (addr = 0x0B#8 ∧ s.status.busy = false ∧ ¬ s.kaddr < s.nMax ∧ t.status = s.status.keyError) := by
  obtain ⟨-, -, v, he⟩ | ⟨haddr, hbusy, he⟩ | ⟨-, -, -, key, -, he⟩ | ⟨-, -, -, -, he⟩ |
    ⟨haddr, hidle, hout, he⟩ | ⟨-, -, v, -, he⟩ | ⟨-, -, -, he⟩ := exec_hrd_cases addr s <;>
    cases he.symm.trans h
  · exact .inl rfl
  · exact .inr (.inl ⟨haddr, hbusy, rfl⟩)
  · exact .inl rfl
  · exact .inr (.inr ⟨haddr, hidle, hout, rfl⟩)
  · exact .inl rfl

theorem writeUnlessBusy_status_cases {s accepted : State} (haccept : accepted.status = s.status) :
    (s.writeUnlessBusy accepted).status = s.status ∨
      (s.status.busy = true ∧ (s.writeUnlessBusy accepted).status = s.status.refusing) := by
  cases hb : s.status.busy with
  | true => exact .inr ⟨rfl, by rw [writeUnlessBusy_busy hb, State.refuseWrite_status]⟩
  | false => exact .inl (by rw [writeUnlessBusy_idle hb, haccept])

/-- A host write leaves STATUS, is refused, writes KDATA out of range, acknowledges, resets or issues. -/
theorem hostWrite_status_cases (addr : RegAddr) (data : Data) (s : State) :
    (hostWrite addr data s).status = s.status ∨
    (s.status.busy = true ∧ (hostWrite addr data s).status = s.status.refusing) ∨
    (addr = 0x0B#8 ∧ s.status.busy = false ∧ ¬ s.kaddr < s.nMax ∧
      (hostWrite addr data s).status = s.status.keyError) ∨
    (addr = 0x02#8 ∧ (hostWrite addr data s).status = s.status.acknowledged data) ∨
    (addr = 0x01#8 ∧ data.getLsbD 1 = true ∧ (hostWrite addr data s).status = .zero) ∨
    (addr = 0x03#8 ∧ s.status.busy = false ∧ (hostWrite addr data s).status = s.status.issued) := by
  obtain ⟨-, ctrl_iff, status_iff, cmd_iff, -⟩ := regAt_eq_iff addr
  unfold hostWrite
  cases hreg : regAt addr with
  | caps | result | reserved => exact .inl rfl
  | status => exact .inr (.inr (.inr (.inl ⟨status_iff.mp hreg, rfl⟩)))
  | ctrl =>
    cases hsrst : data.getLsbD 1 with
    | true =>
      exact .inr (.inr (.inr (.inr (.inl
        ⟨ctrl_iff.mp hreg, rfl, congrArg State.status (writeCtrl_srst hsrst s)⟩))))
    | false => exact .inl (by simp only [writeCtrl_ie hsrst])
  | cmd =>
    cases hb : s.status.busy with
    | true => exact .inr (.inl ⟨rfl, congrArg State.status (writeUnlessBusy_busy hb _)⟩)
    | false =>
      exact .inr (.inr (.inr (.inr (.inr
        ⟨cmd_iff.mp hreg, rfl, congrArg State.status (writeUnlessBusy_idle hb _)⟩))))
  | kdata =>
    cases hb : s.status.busy with
    | true => exact .inr (.inl ⟨rfl, congrArg State.status (writeUnlessBusy_busy hb _)⟩)
    | false =>
      by_cases hin : s.kaddr < s.nMax
      · exact .inl (by simp only [writeKdata_inRange hb hin])
      · exact .inr (.inr (.inl ⟨regAt_eq_kdata.mp hreg, rfl, hin,
          congrArg State.status (writeKdata_outOfRange hb hin data)⟩))
  | n | fromReg | mid | toReg | kbank | kaddr | caddr | cdata =>
    exact Or.imp_right .inl (writeUnlessBusy_status_cases (by rfl))

/-- KERR rises in an instruction only at an accepted KDATA access out of range (R67). -/
theorem exec_raises_kerr {i : Instr} {s t : State} (h : exec i s = .next t)
    (before : s.status.kerr = false) (after : t.status.kerr = true) :
    s.status.busy = false ∧ ¬ s.kaddr < s.nMax ∧
      (i = .hrd 0x0B#8 ∨ ∃ data, i = .hwr 0x0B#8 data) := by
  cases hi : i.isCommand with
  | true =>
    obtain ⟨m, r, code, rfl⟩ := command_next hi h
    simp [before] at after
  | false =>
    cases i with
    | hrd addr =>
      obtain hst | ⟨-, -, hst⟩ | ⟨rfl, hidle, hout, -⟩ := hrd_status_cases h
      · simp [hst, before] at after
      · simp [hst, before] at after
      · exact ⟨hidle, hout, .inl rfl⟩
    | hwr addr data =>
      cases (exec_hwr addr data s).symm.trans h
      obtain hst | ⟨-, hst⟩ | ⟨rfl, hidle, hout, -⟩ | ⟨-, hst⟩ | ⟨-, -, hst⟩ | ⟨-, -, hst⟩ :=
        hostWrite_status_cases addr data s
      · simp [hst, before] at after
      · simp [hst, before] at after
      · exact ⟨hidle, hout, .inr ⟨data, rfl⟩⟩
      · simp [hst, before] at after
      · simp [hst, Status.zero] at after
      · simp [hst, before] at after
    | _ => cases hi

/-! ### The obligations -/

/-- Settles O19: each listed write goes through `State.writeUnlessBusy`, and while idle STATUS.OVR is written at
CTRL and STATUS only. -/
theorem accessesRefusedWhileBusy : Obligations.AccessesRefusedWhileBusy := by
  refine ⟨?reads, fun s addr data hbusy haddr => ?writes, ?idle⟩
  case reads =>
    intro s addr hbusy haddr
    exact exec_hrd_refused hbusy (by simpa using haddr)
  case writes =>
    rw [exec_hwr, hostWrite_refused hbusy haddr]
    rfl
  case idle =>
    rintro s t addr data hidle haddr (h | h)
    · cases (exec_hwr addr data s).symm.trans h
      obtain hst | ⟨hbusy, -⟩ | ⟨-, -, -, hst⟩ | ⟨rfl, -⟩ | ⟨rfl, -⟩ | ⟨-, -, hst⟩ :=
        hostWrite_status_cases addr data s
      · rw [hst]
      · exact absurd hbusy (Bool.eq_false_iff.mp hidle)
      · rw [hst, Status.keyError_ovr]
      · exact absurd haddr (by decide)
      · exact absurd haddr (by decide)
      · rw [hst, Status.issued_ovr]
    · obtain hst | ⟨-, hbusy, -⟩ | ⟨-, -, -, hst⟩ := hrd_status_cases h
      · rw [hst]
      · exact absurd hbusy (Bool.eq_false_iff.mp hidle)
      · rw [hst, Status.keyError_ovr]

/-- Settles O20: the reads and the unrefused writes do not look at BUSY, and of the others that leave the block
busy none writes more than IE, STATUS and the port's value. -/
theorem accessesAcceptedWhileBusy : Obligations.AccessesAcceptedWhileBusy := by
  intro s hbusy
  refine ⟨exec_hrd_caps s, ?ctrl, rfl, rfl, rfl, rfl, rfl, rfl, rfl, ?kbank, rfl, rfl,
    fun data hsrst => ?writeCtrl, fun data => ?writeStatus, fun data => ⟨rfl, rfl⟩,
    fun addr data haddr => ?reserved, ?frame⟩
  case ctrl =>
    rw [← ctrlWord_eq_ite]
    rfl
  case kbank =>
    rw [← zext_toBit]
    rfl
  case writeCtrl => rw [exec_hwr_ctrl, writeCtrl_ie hsrst]
  case writeStatus =>
    simp only [exec_hwr_status, State.acknowledge, Status.acknowledged, and_not_eq_ite]
  case reserved =>
    obtain ⟨hread, hwrite⟩ := reservedAddressesReadZeroAndIgnoreWrites addr data s haddr
    exact ⟨hwrite, hread⟩
  case frame =>
    intro i t hi h hstill
    cases i with
    | hrd addr =>
      obtain ⟨v, status, rfl⟩ := hrd_busy hbusy h
      simp
    | hwr addr data =>
      cases (exec_hwr addr data s).symm.trans h
      obtain hreset | ⟨ie, status, hframe⟩ := hostWrite_busy hbusy addr data
      · simp [hreset, Status.zero] at hstill
      · simp [hframe]
    | _ => cases hi

/-- Settles O21: in range, KDATA reads and writes one key word through `Memory.readKey` and
`Memory.writeKey`. -/
theorem keyWordAccessInRange : Obligations.KeyWordAccessInRange := by
  intro s hidle hin
  refine ⟨fun key hkey => readKdata_written hidle hin hkey, fun hkey => readKdata_unwritten hidle hin hkey,
    fun data => ⟨s.mem.writeKey s.kbank s.kaddr.toNat data, ?_, by simp, fun b i hne => ?_, by simp⟩⟩
  · rw [exec_hwr_kdata, writeKdata_inRange hidle hin]
  · rw [Memory.readKey_writeKey, if_neg fun h => hne ⟨h.1.symm, h.2.symm⟩]

/-- Settles O22: out of range, KDATA touches no word; the steps that raise KERR are those whose instruction does
(`exec_raises_kerr`). -/
theorem keyWordAccessOutOfRange : Obligations.KeyWordAccessOutOfRange := by
  refine ⟨fun s data hidle hout => ⟨readKdata_outOfRange hidle hout, ?write⟩, ?wrap, ?onlyEvent⟩
  case write => rw [exec_hwr_kdata, writeKdata_outOfRange hidle hout]
  case wrap =>
    rintro s t data hidle hlast (h | h)
    · rw [hrd_kdata_kaddr hidle h, hlast]
      decide
    · cases (exec_hwr_kdata data s).symm.trans h
      rw [writeKdata_kaddr hidle, hlast]
      decide
  case onlyEvent =>
    intro s t h before after
    obtain ⟨-, he⟩ | ⟨-, -, he⟩ | ⟨-, -, -, he⟩ | ⟨i, -, hbusy, -, he⟩ | ⟨-, -, he⟩ |
      ⟨w, rest, hturn, hqueue, he⟩ := step_cases s <;> rw [he] at h
    · cases h; simp [Status.zero] at after
    · cases h; simp [before] at after
    · cases h; simp [before] at after
    · obtain ⟨hidle, -⟩ := exec_raises_kerr h before after
      exact absurd hbusy (Bool.eq_false_iff.mp hidle)
    · cases h; simp [before] at after
    · obtain ⟨hidle, hout, haccess⟩ := exec_raises_kerr h before after
      exact ⟨w, rest, hturn, hqueue, hidle, hout, haccess⟩

/-- Settles O23: CDATA reads and writes one entry through `Memory.readCount` and `Memory.writeCount`. -/
theorem bucketEntryAccess : Obligations.BucketEntryAccess := by
  intro s hidle
  refine ⟨fun v hv => exec_hrd_cdata_idle hidle hv, fun hv => exec_hrd_cdata_unwritten hidle hv,
    fun data => ⟨s.mem.writeCount s.caddr (low32 data), ?write, ?entry, fun d hne => ?others, rfl, rfl⟩,
    ?wrap⟩
  case write => rw [exec_hwr_cdata, writeCdata_idle hidle]
  case entry => rw [Memory.readCount_writeCount, if_pos rfl, low32]
  case others => rw [Memory.readCount_writeCount, if_neg hne.symm]
  case wrap =>
    rintro t data hlast (h | h)
    · rw [hrd_cdata_caddr hidle h, hlast]
      decide
    · rw [exec_hwr_cdata, writeCdata_idle hidle, hlast] at h
      cases h
      rfl

/-- Settles O24: the three side effects, and `exec_hrd_pure` for every other read. -/
theorem onlyThreeKindsOfReadHaveSideEffects : Obligations.OnlyThreeKindsOfReadHaveSideEffects := by
  refine ⟨fun s t h hidle => hrd_kdata_kaddr hidle h, fun s t h hidle => hrd_cdata_caddr hidle h,
    ?refused, ?others⟩
  case refused =>
    intro s t addr haddr h hbusy
    cases (exec_hrd_refused hbusy haddr).symm.trans h
    rfl
  case others =>
    intro s addr hk hc
    obtain ⟨v, hv⟩ := exec_hrd_pure hk hc s
    exact ⟨v, hv s.readData, hv v⟩

end Sys2Proof.Machine
end

section
/-! PROOFS, family 30_encoding.md: a word selects a row of the opcode map exactly when rule R95 finds no fault in
it, field by field, and with it the statement about illegal commands. -/

namespace Sys2Proof.Machine

/-! ### The fields of a command word (R91) -/

theorem and_append_eq_append_iff {w w' : Nat} {x m p : BitVec w} {y n q : BitVec w'} :
    (x ++ y) &&& (m ++ n) = p ++ q ↔ x &&& m = p ∧ y &&& n = q := by
  rw [BitVec.and_append]
  refine ⟨fun h => ⟨?_, ?_⟩, fun ⟨hhigh, hlow⟩ => by rw [hhigh, hlow]⟩
  · simpa only [BitVec.extractLsb'_append_eq_left] using congrArg (·.extractLsb' w' w) h
  · simpa only [BitVec.extractLsb'_append_eq_right] using congrArg (·.extractLsb' 0 w') h

/-- The six fields of a command word, high field first, are the low 32 bits of the CMD value (R91). -/
theorem fields_append (v : Data) :
    v.extractLsb' 14 18 ++ v.extractLsb' 13 1 ++ v.extractLsb' 12 1 ++ v.extractLsb' 11 1 ++
      v.extractLsb' 8 3 ++ v.extractLsb' 0 8 = v.extractLsb' 0 (18 + 1 + 1 + 1 + 3 + 8) := by
  simp only [BitVec.extractLsb'_append_extractLsb'_eq_extractLsb']

/-- The mask of one field: a field that is an operand is not looked at. -/
def maskUnless (used : Bool) (w : Nat) : BitVec w := if used then 0#w else BitVec.allOnes w

/-- The mask of a row of the opcode map, from the fields its opcode uses (R91, R94). -/
def fieldMask (opcode : BitVec 8) : CmdWord :=
  BitVec.allOnes 18 ++ maskUnless (usesDB opcode) 1 ++ maskUnless (usesSB opcode) 1 ++
    BitVec.allOnes 1 ++ maskUnless (usesK opcode) 3 ++ BitVec.allOnes 8

theorem and_maskUnless_eq_zero_iff {w : Nat} (x : BitVec w) (used : Bool) :
    x &&& maskUnless used w = 0#w ↔ used = true ∨ x = 0#w := by
  cases used <;> simp [maskUnless]

/-- A command word has the opcode under the opcode's mask exactly when that is its opcode, its reserved bits are
zero and so are the fields the opcode does not use. -/
theorem and_fieldMask_eq_iff (v : Data) (opcode : BitVec 8) :
    v.extractLsb' 0 32 &&& fieldMask opcode = opcode.setWidth 32 ↔
      v.extractLsb' 0 8 = opcode ∧ reservedBitsZero v = true ∧ unusedFieldsZero v = true := by
  have hpattern : opcode.setWidth 32 = 0#18 ++ 0#1 ++ 0#1 ++ 0#1 ++ 0#3 ++ opcode :=
    BitVec.setWidth_eq_append (by decide)
  have hword : v.extractLsb' 0 32 = _ := (fields_append v).symm
  rw [hword, fieldMask, hpattern]
  refine and_append_eq_append_iff.trans ?_
  simp only [and_append_eq_append_iff, and_maskUnless_eq_zero_iff, BitVec.and_allOnes]
  constructor
  · rintro ⟨⟨⟨⟨⟨hhigh, hdb⟩, hsb⟩, hbit⟩, hk⟩, rfl⟩
    simp [reservedBitsZero, unusedFieldsZero, *]
  · rintro ⟨rfl, hreserved, hunused⟩
    simp_all [reservedBitsZero, unusedFieldsZero]

/-! ### The opcode map (R94, R95, R97) -/

/-- The opcode of a row of the opcode map. -/
def rowOpcode (r : Row) : BitVec 8 := r.pattern.extractLsb' 0 8

/-- Each row of R94's table has its opcode as match, and the mask that the fields of R91 give. -/
theorem opcodeMap_row_eq : ∀ r ∈ opcodeMap,
    r.pattern = (rowOpcode r).setWidth 32 ∧ r.mask = fieldMask (rowOpcode r) := by decide

theorem exists_row_opcode_iff : ∀ opcode : BitVec 8,
    (∃ r ∈ opcodeMap, rowOpcode r = opcode) ↔ opcode.toNat ≤ 0x0B := by decide

theorem row_selects_iff {r : Row} (hr : r ∈ opcodeMap) (v : Data) :
    r.selects (v.extractLsb' 0 32) = true ↔
      rowOpcode r = v.extractLsb' 0 8 ∧ reservedBitsZero v = true ∧ unusedFieldsZero v = true := by
  obtain ⟨hpattern, hmask⟩ := opcodeMap_row_eq r hr
  rw [Row.selects, beq_iff_eq, hmask, hpattern, and_fieldMask_eq_iff, eq_comm (a := rowOpcode r)]

/-- The two descriptions of the legal values agree: the rows of R94 and the four kinds of R95. -/
theorem exists_row_selects_iff (v : Data) :
    (∃ r ∈ opcodeMap, r.selects (v.extractLsb' 0 32) = true) ↔
      opcodeDefined v = true ∧ reservedBitsZero v = true ∧ unusedFieldsZero v = true := by
  rw [opcodeDefined, decide_eq_true_iff, ← exists_row_opcode_iff]
  constructor
  · rintro ⟨r, hr, hselects⟩
    obtain ⟨hopcode, hzero⟩ := (row_selects_iff hr v).mp hselects
    exact ⟨⟨r, hr, hopcode⟩, hzero⟩
  · rintro ⟨⟨r, hr, hopcode⟩, hzero⟩
    exact ⟨r, hr, (row_selects_iff hr v).mpr ⟨hopcode, hzero⟩⟩

/-- A value decodes to no command when its upper word is not zero or no row selects its command word (R97). -/
theorem decodeCommand_error_iff_no_row (v : Data) :
    (∃ e, decodeCommand v = .error e) ↔
      upperWordZero v = false ∨ ¬ ∃ r ∈ opcodeMap, r.selects (v.extractLsb' 0 32) = true := by
  rw [← List.find?_isSome, decodeCommand, upperWordZero]
  by_cases hupper : v.extractLsb' 32 32 = 0#32
  · cases opcodeMap.find? (·.selects (v.extractLsb' 0 32)) <;> simp [hupper]
  · simp [hupper]

/-- The decoder refuses exactly the values that are not legal by R95. -/
theorem decodeCommand_error_iff (v : Data) :
    (∃ e, decodeCommand v = .error e) ↔ legalCommand v = false := by
  rw [decodeCommand_error_iff_no_row, exists_row_selects_iff, legalCommand]
  simp only [Bool.and_eq_false_iff, not_and_or, Bool.not_eq_true, or_assoc]

/-- The four kinds of illegal value, spelt out (R95). -/
theorem legalCommand_eq_false_iff (v : Data) :
    legalCommand v = false ↔
      0x0C ≤ (v.extractLsb' 0 8).toNat ∨
      v.extractLsb' 11 1 ≠ 0#1 ∨ v.extractLsb' 14 18 ≠ 0#18 ∨
      (usesK (v.extractLsb' 0 8) = false ∧ v.extractLsb' 8 3 ≠ 0#3) ∨
      (usesSB (v.extractLsb' 0 8) = false ∧ v.extractLsb' 12 1 ≠ 0#1) ∨
      (usesDB (v.extractLsb' 0 8) = false ∧ v.extractLsb' 13 1 ≠ 0#1) ∨
      v.extractLsb' 32 32 ≠ 0#32 := by
  have hopcode : opcodeDefined v = false ↔ 0x0C ≤ (v.extractLsb' 0 8).toNat := by
    simp only [opcodeDefined, decide_eq_false_iff_not, Nat.not_le, Nat.lt_iff_add_one_le]
  simp only [legalCommand, Bool.and_eq_false_iff, hopcode, upperWordZero, reservedBitsZero,
    unusedFieldsZero, Bool.or_eq_false_iff, beq_eq_false_iff_ne]
  tauto

/-! ### The completion step on an illegal word (R95, R121, R221) -/

/-- On its turn the busy engine ends an illegal command with ILLEGAL_CMD. -/
theorem step_illegal {s : State} (hillegal : ∃ e, decodeCommand s.lastCmd = .error e)
    (hbusy : s.status.busy = true) (hturn : s.nextTurn = .engine) :
    step s = .next (s.takeTurn.finish .illegalCmd) := by
  obtain ⟨e, he⟩ := hillegal
  obtain ⟨hreset, -⟩ | ⟨-, hidle, -⟩ | ⟨-, -, -, hstep⟩ | ⟨i, -, -, hi, -⟩ | ⟨hhost, -⟩ |
    ⟨w, rest, hhost, -⟩ := step_cases s
  · exact Turn.noConfusion (hturn.symm.trans hreset)
  · exact Bool.noConfusion (hbusy.symm.trans hidle)
  · exact hstep
  · cases he.symm.trans hi
  · exact Turn.noConfusion (hturn.symm.trans hhost)
  · exact Turn.noConfusion (hturn.symm.trans hhost)

/-- Settles O5: the decoder's table and R95's four kinds agree (`decodeCommand_error_iff`), an issue does not
look at the value, and the completion of an illegal one is `finish`. -/
theorem illegalCommandEndsWithIllegalCmdOnly : Obligations.IllegalCommandEndsWithIllegalCmdOnly := by
  refine fun v => ⟨(decodeCommand_error_iff v).trans (legalCommand_eq_false_iff v), ?issue, ?complete⟩
  case issue =>
    intro s hidle
    rw [exec_hwr_cmd, writeUnlessBusy_idle hidle]
    rfl
  case complete =>
    rintro hillegal s hbusy rfl hturn
    rw [step_illegal hillegal hbusy hturn]
    rfl

end Sys2Proof.Machine
end

section
/-! PROOFS, family 40_command_lifecycle.md: the first check that fails decides how a command ends, where
SCATTER_BOUNDS can come from, the words of the commands without operands, and with them how a command is issued
and ends. -/

namespace Sys2Proof.Machine

/-! ### The checks of a command (R121, R122) -/

/-- A command whose checks fail is ended with their code, and nothing of its body is run. -/
theorem exec_of_commandChecks_some {i : Instr} {s : State} {code : ErrCode} (hi : i.isCommand = true)
    (h : commandChecks i s = some code) : exec i s = .next (s.finish code) := by
  rw [exec_command hi, h]
  rfl

/-- Every command but NOP, CLR and OFFS reads N, and makes the check of N before any other (R121). -/
theorem commandChecks_of_lt {i : Instr} {s : State} (hi : i.isCommand = true)
    (hreads : i ≠ .nop ∧ i ≠ .clr ∧ i ≠ .offs) (h : s.nMax < s.n) :
    commandChecks i s = some .capacity := by
  have hcapacity : checkCapacity s = some .capacity := checkCapacity_some.mpr ⟨h, rfl⟩
  cases i with
  | nop | clr | offs => simp at hreads
  | hist _ _ | wsort | signb _ | sorti | sortf => exact hcapacity
  | scat _ _ _ | pass _ _ _ | rev _ | rot _ => exact or_eq_some.mpr (.inl hcapacity)
  | hwr _ _ | hrd _ => cases hi

/-- Where N fits, the later check decides. -/
theorem checkCapacity_or_of_fits {s : State} (h : ¬ s.nMax < s.n) (later : Option ErrCode) :
    (checkCapacity s).or later = later := by
  rw [checkCapacity_none.mpr h, Option.none_or]

/-- No check gives SCATTER_BOUNDS. -/
theorem commandChecks_ne_scatterBounds (i : Instr) (s : State) :
    commandChecks i s ≠ some .scatterBounds := by
  cases i with
  | nop | clr | offs | hwr _ _ | hrd _ => simp [commandChecks]
  | hist _ _ | wsort | signb _ | sorti | sortf => simp [commandChecks, checkCapacity_some]
  | scat _ _ _ | pass _ _ _ => simp [commandChecks, checkCapacity_some, checkBanks_some]
  | rev _ => simp [commandChecks, checkCapacity_some, checkRevRange_some]
  | rot _ => simp [commandChecks, checkCapacity_some, checkRotRange_some]

/-- Only the body of SCAT, run after its checks, raises an error (R149). -/
theorem commandBody_raised {i : Instr} {s : State} {code : ErrCode} {m : Memory}
    (hc : commandChecks i s = none) (h : commandBody i s = .raised code m) :
    ∃ k sb db, i = .scat k sb db ∧ sb ≠ db ∧ ¬ s.nMax < s.n := by
  obtain ⟨_, _, hb, -⟩ | ⟨k, sb, db, _, _, _, _, hi, hne, hfits, -⟩ | ⟨_, _, -, hb⟩ | ⟨_, -, hb⟩ :=
    commandBody_cases hc
  · cases hb.symm.trans h
  · exact ⟨k, sb, db, hi, hne, hfits⟩
  · cases hb.symm.trans h
  · cases hb.symm.trans h

/-- `command_next` with RESULT: a command that ends with an error has not written it (R35, R124). -/
theorem command_next_result {i : Instr} {s t : State} (hi : i.isCommand = true) (h : exec i s = .next t) :
    ∃ m r code, t = State.finish { s with mem := m, result := r } code ∧
      (code ≠ .none → r = s.result) := by
  rw [exec_command hi] at h
  obtain ⟨code, -, rfl⟩ | ⟨m, r, -, -, rfl⟩ | ⟨code, m, -, -, rfl⟩ := runCommand_next h
  · exact ⟨s.mem, s.result, code, rfl, fun _ => rfl⟩
  · exact ⟨m, r, .none, rfl, fun hne => absurd rfl hne⟩
  · exact ⟨m, s.result, code, rfl, fun _ => rfl⟩

/-! ### The words of the commands without operands (R94, R97) -/

/-- A value that decodes to a command has a zero upper word and selects a row that reads as the command. -/
theorem exists_row_of_decodeCommand_ok {v : Data} {i : Instr} (h : decodeCommand v = .ok i) :
    v.extractLsb' 32 32 = 0#32 ∧ ∃ r ∈ opcodeMap,
      r.selects (v.extractLsb' 0 32) = true ∧ r.read (v.extractLsb' 0 32) = i := by
  unfold decodeCommand at h
  by_cases hupper : v.extractLsb' 32 32 = 0#32
  · rw [if_neg (not_not.mpr hupper)] at h
    cases hfind : opcodeMap.find? (·.selects (v.extractLsb' 0 32)) with
    | some r =>
      rw [hfind] at h
      have hselects := List.find?_some hfind
      exact ⟨hupper, r, List.mem_of_find?_eq_some hfind, hselects, Except.ok.inj h⟩
    | none =>
      rw [hfind] at h
      cases h
  · rw [if_pos hupper] at h
    cases h

/-- A value is its upper and its lower word. -/
theorem eq_setWidth_of_words {v : Data} {w : CmdWord} (hupper : v.extractLsb' 32 32 = 0#32)
    (hlower : v.extractLsb' 0 32 = w) : v = w.setWidth 64 := by
  calc v = v.extractLsb' 32 32 ++ v.extractLsb' 0 32 := by
        rw [BitVec.extractLsb'_append_extractLsb'_eq_extractLsb' (by rfl)]
        exact BitVec.extractLsb'_eq_self.symm
    _ = 0#32 ++ w := by rw [hupper, hlower]
    _ = w.setWidth 64 := (BitVec.setWidth_eq_append (by decide)).symm

/-- A command whose rows all have the full mask and one pattern is that one word. -/
theorem decodeCommand_eq_ok_iff_of_fullMask {i : Instr} {w : CmdWord}
    (hrow : ∀ r ∈ opcodeMap, ∀ k sb db, r.build k sb db = i →
      r.pattern = w ∧ r.mask = BitVec.allOnes 32)
    (hdecode : decodeCommand (w.setWidth 64) = .ok i) (v : Data) :
    decodeCommand v = .ok i ↔ v = w.setWidth 64 := by
  refine ⟨fun h => ?_, fun h => h ▸ hdecode⟩
  obtain ⟨hupper, r, hr, hselects, hread⟩ := exists_row_of_decodeCommand_ok h
  obtain ⟨hpattern, hmask⟩ := hrow r hr _ _ _ hread
  rw [Row.selects, beq_iff_eq, hmask, hpattern, BitVec.and_allOnes] at hselects
  exact eq_setWidth_of_words hupper hselects

/-! ### The obligations -/

/-- Settles O26: CAPACITY comes first (`commandChecks_of_lt`), the second check decides where N fits
(`checkCapacity_or_of_fits`), and no check gives SCATTER_BOUNDS. -/
theorem firstFailingCheckEndsTheCommand : Obligations.FirstFailingCheckEndsTheCommand := by
  refine ⟨fun s e hbusy hturn he => step_illegal ⟨e, he⟩ hbusy hturn, ?capacity,
    fun s k b hfits => ⟨exec_of_commandChecks_some rfl ?scat, exec_of_commandChecks_some rfl ?pass⟩,
    fun s b hfits hrange => exec_of_commandChecks_some rfl ?rev,
    fun s b hfits hrange => exec_of_commandChecks_some rfl ?rot, ?scatterBounds⟩
  case capacity =>
    rintro s i hlt ⟨k, b, d, hi⟩
    simp only [List.mem_cons, List.not_mem_nil, or_false] at hi
    obtain rfl | rfl | rfl | rfl | rfl | rfl | rfl | rfl | rfl := hi <;>
      exact exec_of_commandChecks_some rfl (commandChecks_of_lt rfl (by simp) hlt)
  case scat | pass =>
    exact (checkCapacity_or_of_fits hfits _).trans (checkBanks_some.mpr ⟨rfl, rfl⟩)
  case rev =>
    exact (checkCapacity_or_of_fits hfits _).trans (checkRevRange_some.mpr ⟨hrange, rfl⟩)
  case rot =>
    exact (checkCapacity_or_of_fits hfits _).trans (checkRotRange_some.mpr ⟨hrange, rfl⟩)
  case scatterBounds =>
    intro s t i hi h herr
    rw [exec_command hi] at h
    obtain ⟨code, hchecks, rfl⟩ | ⟨m, r, -, -, rfl⟩ | ⟨code, m, hchecks, hbody, -⟩ := runCommand_next h
    · obtain rfl : code = .scatterBounds := herr
      exact absurd hchecks (commandChecks_ne_scatterBounds i s)
    · cases herr
    · exact commandBody_raised hchecks hbody

/-- Settles O28: `finish` is its STATUS update, and each of a command's ways to end is a `finish`
(`command_next_result`). -/
theorem finishWritesStatusOnly : Obligations.FinishWritesStatusOnly :=
  ⟨fun s _ => ⟨rfl, Bool.true_and s.ie⟩, fun _ _ _ hi h => command_next_result hi h⟩

/-- Settles O25: a write to CMD is `State.issue` while idle and refused while busy. -/
theorem issueLatchesTheValue : Obligations.IssueLatchesTheValue := by
  refine fun s v => ⟨rfl, fun hidle => ⟨s.issue v, ?_, rfl, rfl, rfl⟩, fun hbusy => ?_⟩
  · rw [exec_hwr_cmd, writeUnlessBusy_idle hidle]
  · rw [exec_hwr_cmd, writeUnlessBusy_busy hbusy]
    rfl

/-- Settles O34: NOP's row has the full mask and the pattern 0; its body leaves storage and RESULT. -/
theorem nopOnlyFinishes : Obligations.NopOnlyFinishes :=
  ⟨decodeCommand_eq_ok_iff_of_fullMask (w := 0#32) (by simp [opcodeMap]) rfl,
    fun s => runStorage_ok (s := s) (m := s.mem) rfl⟩

end Sys2Proof.Machine
end

section
/-! PROOFS, family 41_counting_pass.md: each command has one word, a command that passes its checks is its body,
commands one after the other are their bodies one after the other, where a loop stops, where the stable reordering
places each key, and with them the statements about CLR, HIST, OFFS, SCAT and PASS. -/

namespace Sys2Proof.Machine

/-! ### One word per command (R91, R94, R97) -/

theorem BankId.toBit_ofBit (bit : BitVec 1) : (BankId.ofBit bit).toBit = bit := by
  revert bit
  decide

/-- The value R99's formula gives has each field at its place (R91). -/
theorem commandValue_eq_append (opcode : BitVec 8) (k : BitVec 3) (sb db : BankId) :
    commandValue opcode k sb db =
      (0#18 ++ db.toBit ++ sb.toBit ++ 0#1 ++ k ++ opcode).setWidth 64 := by
  simp only [commandValue, BitVec.setWidth_append_eq_shiftLeft_setWidth_or, BitVec.shiftLeft_or_distrib,
    ← BitVec.shiftLeft_add, BitVec.setWidth_zero, BitVec.zero_shiftLeft, BitVec.zero_or, BitVec.or_zero]
  rw [BitVec.or_comm, BitVec.or_comm _ (sb.toBit.setWidth 64 <<< _), ← BitVec.or_assoc,
    BitVec.or_comm (opcode.setWidth 64), ← BitVec.or_assoc]

/-- A value with a zero upper word and zero reserved bits is put together from its fields. -/
theorem eq_commandValue_of_fields {v : Data} (hupper : v.extractLsb' 32 32 = 0#32)
    (hreserved : reservedBitsZero v = true) :
    v = commandValue (v.extractLsb' 0 8) (v.extractLsb' 8 3) (.ofBit (v.extractLsb' 12 1))
      (.ofBit (v.extractLsb' 13 1)) := by
  simp only [reservedBitsZero, Bool.and_eq_true, beq_iff_eq] at hreserved
  obtain ⟨hbit, hhigh⟩ := hreserved
  rw [commandValue_eq_append, BankId.toBit_ofBit, BankId.toBit_ofBit, ← hbit, ← hhigh, fields_append]
  exact eq_setWidth_of_words hupper rfl

/-- A row's command is encoded by the fields its opcode uses, the others being zero (R94). -/
theorem encode_row_build : ∀ r ∈ opcodeMap, ∀ (k : BitVec 3) (source dest : BitVec 1),
    (usesK (rowOpcode r) || k == 0#3) = true → (usesSB (rowOpcode r) || source == 0#1) = true →
    (usesDB (rowOpcode r) || dest == 0#1) = true →
    encode (r.build k (.ofBit source) (.ofBit dest)) =
      .command (commandValue (rowOpcode r) k (.ofBit source) (.ofBit dest)) := by
  decide

theorem row_read_eq (r : Row) (v : Data) : r.read (v.extractLsb' 0 32) =
    r.build (v.extractLsb' 8 3) (.ofBit (v.extractLsb' 12 1)) (.ofBit (v.extractLsb' 13 1)) := by
  simp [Row.read]

theorem encode_of_decodeCommand_ok {v : Data} {i : Instr} (h : decodeCommand v = .ok i) :
    encode i = .command v := by
  obtain ⟨hupper, r, hr, hselects, rfl⟩ := exists_row_of_decodeCommand_ok h
  obtain ⟨hopcode, hreserved, hunused⟩ := (row_selects_iff hr v).mp hselects
  simp only [unusedFieldsZero, ← hopcode, Bool.and_eq_true] at hunused
  obtain ⟨⟨hk, hsource⟩, hdest⟩ := hunused
  rw [row_read_eq, encode_row_build r hr _ _ _ hk hsource hdest, hopcode,
    ← eq_commandValue_of_fields hupper hreserved]

theorem decodeCommand_of_encode {i : Instr} {v : Data} (h : encode i = .command v) :
    decodeCommand v = .ok i := by
  cases i with
  | nop | clr | offs | wsort | sorti | sortf =>
    cases h
    decide
  | rev b | rot b | signb b =>
    cases h
    cases b <;> decide
  | hist k sb =>
    cases h
    cases sb <;> (revert k; decide)
  | scat k sb db | pass k sb db =>
    cases h
    cases sb <;> cases db <;> (revert k; decide)
  | hwr addr data | hrd addr => cases h

/-- A command is decoded from its encoded form and from no other value (R97). -/
theorem decodeCommand_eq_ok_iff {i : Instr} {w : Data} (hencode : encode i = .command w) (v : Data) :
    decodeCommand v = .ok i ↔ v = w := by
  refine ⟨fun h => ?_, fun h => decodeCommand_of_encode (h ▸ hencode)⟩
  exact Encoded.command.inj ((encode_of_decodeCommand_ok h).symm.trans hencode)

/-! ### Commands that pass their checks -/

theorem exec_hist_of_fits {s : State} (hfits : ¬ s.nMax < s.n) (k : BitVec 3) (sb : BankId) :
    exec (.hist k sb) s = s.runStorageCommand none (histBody k sb s.n.toNat s.mem) := by
  rw [← checkCapacity_none.mpr hfits]
  rfl

theorem bankChecks_eq_none {s : State} {sb db : BankId} (hfits : ¬ s.nMax < s.n) (hne : sb ≠ db) :
    (checkCapacity s).or (checkBanks sb db) = none :=
  (checkCapacity_or_of_fits hfits _).trans (checkBanks_none.mpr hne)

theorem bankChecks_eq_bankConflict {s : State} {sb db : BankId} (hfits : ¬ s.nMax < s.n)
    (heq : sb = db) : (checkCapacity s).or (checkBanks sb db) = some .bankConflict :=
  (checkCapacity_or_of_fits hfits _).trans (checkBanks_some.mpr ⟨heq, rfl⟩)

theorem exec_scat_of_fits {s : State} (hfits : ¬ s.nMax < s.n) (k : BitVec 3) {sb db : BankId}
    (hne : sb ≠ db) :
    exec (.scat k sb db) s = s.runStorageCommand none (scatBody k sb db s.n s.mem) := by
  rw [← bankChecks_eq_none hfits hne]
  rfl

theorem exec_pass_of_fits {s : State} (hfits : ¬ s.nMax < s.n) (k : BitVec 3) {sb db : BankId}
    (hne : sb ≠ db) :
    exec (.pass k sb db) s = s.runStorageCommand none (passBody k sb db s.n s.mem) := by
  rw [← bankChecks_eq_none hfits hne]
  rfl

/-- A storage command that runs after another one whose body raises no error: the two bodies, one after the
other. -/
theorem thenExec_runStorageCommand {s : State} {first : Run Memory} {i : Instr}
    {body : Memory → Run Memory} (hfirst : ∀ code m, first ≠ .raised code m)
    (hi : ∀ m, exec i (State.finish { s with mem := m } .none) =
      (State.finish { s with mem := m } .none).runStorageCommand none (body m)) :
    thenExec (s.runStorageCommand none first) i = s.runStorageCommand none (first.andThen body) := by
  cases first with
  | ok m =>
    calc thenExec (s.runStorageCommand none (.ok m)) i
        = (State.finish { s with mem := m } .none).runStorageCommand none (body m) := hi m
      _ = s.runStorageCommand none (body m) := by cases body m <;> rfl
  | raised code m => exact absurd rfl (hfirst code m)
  | fault e => rfl

theorem histBody_ne_raised {k : BitVec 3} {sb : BankId} {n : Nat} {m m' : Memory} {code : ErrCode} :
    histBody k sb n m ≠ .raised code m' := by
  obtain ⟨_, h, -⟩ | ⟨_, -, -, -, h⟩ | ⟨_, -, h⟩ := histBody_cases k sb n m <;> simp [h]

theorem offsBody_ne_raised {m m' : Memory} {code : ErrCode} : offsBody m ≠ .raised code m' := by
  obtain ⟨h, -⟩ | ⟨_, -, -, h⟩ := offsBody_cases m <;> simp [h]

/-! ### Loops that stop at an iteration -/

section
variable {α : Type} {body : Nat → α → Run α} {count total : Nat} {a a' : α}

/-- A loop whose first iterations go on comes to the next one. -/
theorem loopFrom_of_prefix (hprefix : loopFrom body count 0 a = .ok a') (hlt : count < total) :
    loopFrom body total 0 a =
      (body count a').andThen (loopFrom body (total - count - 1) (count + 1)) := by
  obtain ⟨rest, rfl⟩ := Nat.exists_eq_add_of_lt hlt
  rw [Nat.add_assoc, loopFrom_add, hprefix, Run.andThen_ok, loopFrom_succ, Nat.zero_add]
  congr 2
  omega

theorem loopFrom_fault {e : Fault} (hprefix : loopFrom body count 0 a = .ok a') (hlt : count < total)
    (hstep : body count a' = .fault e) : loopFrom body total 0 a = .fault e := by
  rw [loopFrom_of_prefix hprefix hlt, hstep, Run.andThen_fault]

theorem loopFrom_raised {code : ErrCode} {m : Memory} (hprefix : loopFrom body count 0 a = .ok a')
    (hlt : count < total) (hstep : body count a' = .raised code m) :
    loopFrom body total 0 a = .raised code m := by
  rw [loopFrom_of_prefix hprefix hlt, hstep, Run.andThen_raised]

end

/-! ### HIST and SCAT that stop at a key -/

section
variable {k : BitVec 3} {sb db : BankId} {n : Idx} {i : Nat} {m : Memory} {key : Key}

theorem histStep_unwrittenKey (hkey : m.readKey sb i = none) :
    histStep k sb i m = .fault (.unwrittenKey sb i) := withKey_none hkey _

theorem histStep_unwrittenCount (hkey : m.readKey sb i = some key)
    (hcount : m.readCount (digit k key) = none) :
    histStep k sb i m = .fault (.unwrittenCount (digit k key)) :=
  (withKey_some hkey _).trans (withCount_none hcount _)

theorem scatStep_unwrittenKey (hkey : m.readKey sb i = none) :
    scatStep k sb db n i m = .fault (.unwrittenKey sb i) := withKey_none hkey _

theorem scatStep_unwrittenCount (hkey : m.readKey sb i = some key)
    (hcount : m.readCount (digit k key) = none) :
    scatStep k sb db n i m = .fault (.unwrittenCount (digit k key)) :=
  (withKey_some hkey _).trans (withCount_none hcount _)

theorem scatStep_scatterBounds {p : Idx} (hkey : m.readKey sb i = some key)
    (hcount : m.readCount (digit k key) = some p) (hle : n ≤ p) :
    scatStep k sb db n i m = .raised .scatterBounds m :=
  (withKey_some hkey _).trans ((withCount_some hcount _).trans (if_pos hle))

end

/-- An offset that comes to N or more as a number does so as a 32-bit value too: the earlier keys went below N,
so an entry that has gone up is at most N and has not wrapped. -/
theorem le_offset_of_toNat_le {k : BitVec 3} {c : Digit → Idx} {keys : List Key} {n : Idx} {d : Digit}
    (below : ∀ i, i < keys.length → scatterOffset k c keys i < n.toNat)
    (hle : n.toNat ≤ (c d).toNat + histogram k keys d) :
    n ≤ c d + BitVec.ofNat 32 (histogram k keys d) := by
  by_cases hzero : histogram k keys d = 0
  · rw [hzero] at hle ⊢
    rw [BitVec.le_def, BitVec.add_zero]
    exact hle
  · have hmax : (c d).toNat + histogram k keys d ≤ n.toNat := by
      have h := offset_no_wrap (d := d) le_rfl below (by rwa [List.take_length])
      rwa [List.take_length] at h
    have hn := n.isLt
    rw [BitVec.le_def, BitVec.toNat_add, BitVec.toNat_ofNat, Nat.mod_eq_of_lt (by omega),
      Nat.mod_eq_of_lt (by omega)]
    exact hle

/-! ### The places of the keys in the stable reordering (R155) -/

/-- The index that key `i` goes to: its bucket's start, plus the earlier keys of its digit. -/
def bucketPlace (k : BitVec 3) (keys : List Key) (i : Nat) (h : i < keys.length) : Nat :=
  startOf k keys (digit k keys[i]) + histogram k (keys.take i) (digit k keys[i])

section
variable {k : BitVec 3} {keys : List Key} {i j : Nat} (hi : i < keys.length) (hj : j < keys.length)

theorem bucketPlace_lt_endOf : bucketPlace k keys i hi < endOf k keys (digit k keys[i]) := by
  rw [endOf_eq]
  exact Nat.add_lt_add_left (histogram_take_lt hi) _

theorem bucketPlace_lt_length : bucketPlace k keys i hi < keys.length :=
  (bucketPlace_lt_endOf hi).trans_le (endOf_le_length k keys _)

/-- A key goes before every key with a larger digit, and before every later key with its own digit. -/
theorem bucketPlace_lt (h : (digit k keys[i]).toNat < (digit k keys[j]).toNat ∨
    digit k keys[i] = digit k keys[j] ∧ i < j) : bucketPlace k keys i hi < bucketPlace k keys j hj := by
  obtain hdigit | ⟨hdigit, hij⟩ := h
  · calc bucketPlace k keys i hi < endOf k keys (digit k keys[i]) := bucketPlace_lt_endOf hi
      _ ≤ startOf k keys (digit k keys[j]) := endOf_le_startOf k keys hdigit
      _ ≤ bucketPlace k keys j hj := Nat.le_add_right _ _
  · have hlater := histogram_take_mono (k := k) (keys := keys) (Nat.succ_le_of_lt hij) (digit k keys[i])
    rw [histogram_take_succ hi, if_pos rfl] at hlater
    rw [bucketPlace, bucketPlace, ← hdigit]
    omega

/-- No two keys go to one index. -/
theorem bucketPlace_ne (hne : i ≠ j) : bucketPlace k keys i hi ≠ bucketPlace k keys j hj := by
  obtain hlt | heq | hgt := Nat.lt_trichotomy (digit k keys[i]).toNat (digit k keys[j]).toNat
  · exact (bucketPlace_lt hi hj (.inl hlt)).ne
  · have hdigit := BitVec.eq_of_toNat_eq heq
    obtain hij | hji := Nat.lt_or_gt_of_ne hne
    · exact (bucketPlace_lt hi hj (.inr ⟨hdigit, hij⟩)).ne
    · exact (bucketPlace_lt hj hi (.inr ⟨hdigit.symm, hji⟩)).ne'
  · exact (bucketPlace_lt hj hi (.inl hgt)).ne'

end

/-! ### The obligations -/

/-- Settles O35: the body of CLR is `clrBody`, which writes every entry and no key word. -/
theorem clrZeroesTheBucketTable : Obligations.ClrZeroesTheBucketTable :=
  ⟨decodeCommand_eq_ok_iff (w := 1#64) rfl,
    fun s => ⟨clrBody s.mem, runStorage_ok rfl, clrBody_readCount s.mem, rfl, rfl⟩⟩

/-- Settles O36: HIST counts the keys up to the first UNWRITTEN word (`histLoop_prefix`), which is all of them
or the iteration that faults. -/
theorem histAddsTheHistogram : Obligations.HistAddsTheHistogram := by
  refine fun k sb => ⟨decodeCommand_eq_ok_iff rfl, fun s => ⟨fun hlt => ?capacity,
    fun keys hfits _ hold written => ?_⟩⟩
  case capacity => exact exec_of_commandChecks_some rfl (commandChecks_of_lt rfl (by simp) hlt)
  obtain ⟨m, hloop, hbanks, hcounts⟩ := histLoop_prefix k sb hold written
  rw [exec_hist_of_fits hfits]
  refine ⟨fun hall => ⟨m, runStorage_ok ?_, hcounts, hbanks .b0, hbanks .b1⟩, fun hlt hkey => ?_,
    fun key hlt hkey hcount => ?_⟩
  · rw [histBody, ← hall, hloop]
  · exact runStorage_fault (loopFrom_fault hloop hlt
      (histStep_unwrittenKey ((Memory.readKey_congr (hbanks sb) _).trans hkey)))
  · exact runStorage_fault (loopFrom_fault hloop hlt
      (histStep_unwrittenCount ((Memory.readKey_congr (hbanks sb) _).trans hkey)
        (by rw [hcounts, hcount, Option.map_none])))

/-- Settles O37: `offsBody_sums` on a written table; else the fault is at the first UNWRITTEN entry, and there is
only one first. -/
theorem offsIsTheExclusivePrefixSum : Obligations.OffsIsTheExclusivePrefixSum := by
  refine ⟨decodeCommand_eq_ok_iff (w := 3#64) rfl,
    fun s => ⟨fun c hc => ?_, fun d hd hbelow => ?_⟩⟩
  · obtain ⟨m, hbody, hbanks, hsums⟩ := offsBody_sums hc
    exact ⟨m, runStorage_ok hbody, hsums, hbanks .b0, hbanks .b1⟩
  · obtain ⟨-, hall⟩ | ⟨e, he, hfirst, hbody⟩ := offsBody_cases s.mem
    · exact absurd hd (hall d)
    · obtain rfl : d = e := BitVec.le_antisymm (BitVec.not_lt.mp fun hlt => hbelow e hlt he)
        (BitVec.not_lt.mp fun hlt => hfirst d hlt hd)
      exact runStorage_fault hbody

/-- Settles O39: SCAT places the keys up to the first that stops it (`scatLoop_prefix`): all of them, the one
whose offset has reached N (`le_offset_of_toNat_le`), or the one with an UNWRITTEN word. -/
theorem scatPlacesKeysAtTheirOffsets : Obligations.ScatPlacesKeysAtTheirOffsets := by
  refine fun k sb db => ⟨decodeCommand_eq_ok_iff rfl, fun s => ⟨fun hlt => ?capacity,
    fun hfits heq => ?banks, fun keys c hfits hne _ hold written below => ?_⟩⟩
  case capacity => exact exec_of_commandChecks_some rfl (commandChecks_of_lt rfl (by simp) hlt)
  case banks => exact exec_of_commandChecks_some rfl (bankChecks_eq_bankConflict hfits heq)
  obtain ⟨m, hloop, heffect⟩ := scatLoop_prefix k hne s.n hold written below
  have hkeys (i : Nat) : m.readKey sb i = s.mem.readKey sb i := Memory.readKey_congr heffect.source i
  rw [exec_scat_of_fits hfits k hne]
  refine ⟨fun hall => ⟨m, runStorage_ok ?_, heffect⟩, fun key hlt hkey hcount hle =>
    ⟨m, runStorage_raised (loopFrom_raised hloop hlt ?_), heffect⟩, fun hlt hkey => ?_,
    fun key hlt hkey hcount => ?_⟩
  · rw [scatBody, ← hall, hloop]
  · refine scatStep_scatterBounds ((hkeys _).trans hkey) ?_ (le_offset_of_toNat_le below hle)
    rw [heffect.counts, hcount, Option.map_some]
  · exact runStorage_fault (loopFrom_fault hloop hlt (scatStep_unwrittenKey ((hkeys _).trans hkey)))
  · exact runStorage_fault (loopFrom_fault hloop hlt (scatStep_unwrittenCount ((hkeys _).trans hkey)
      (by rw [heffect.counts, hcount, Option.map_none])))

/-- Settles O40: CLR, HIST and OFFS raise no error, so the commands after one another run their bodies after one
another (`thenExec_runStorageCommand`), and that is the body of PASS. -/
theorem passIsItsFourSteps : Obligations.PassIsItsFourSteps := by
  refine fun k sb db => ⟨decodeCommand_eq_ok_iff rfl, fun s => ⟨fun hlt => ?capacity,
    fun hfits heq => ?banks, fun hfits hne => ?_⟩⟩
  case capacity => exact exec_of_commandChecks_some rfl (commandChecks_of_lt rfl (by simp) hlt)
  case banks => exact exec_of_commandChecks_some rfl (bankChecks_eq_bankConflict hfits heq)
  have hhist : thenExec (exec .clr s) (.hist k sb) =
      s.runStorageCommand none (histBody k sb s.n.toNat (clrBody s.mem)) :=
    thenExec_runStorageCommand (first := .ok (clrBody s.mem)) (body := histBody k sb s.n.toNat)
      (by simp) fun m => exec_hist_of_fits (s := State.finish { s with mem := m } .none) hfits k sb
  have hoffs : thenExec (s.runStorageCommand none (histBody k sb s.n.toNat (clrBody s.mem))) .offs =
      s.runStorageCommand none ((histBody k sb s.n.toNat (clrBody s.mem)).andThen offsBody) :=
    thenExec_runStorageCommand (fun _ _ => histBody_ne_raised) fun _ => rfl
  have hscat := thenExec_runStorageCommand (s := s) (i := .scat k sb db) (body := scatBody k sb db s.n)
    (first := (histBody k sb s.n.toNat (clrBody s.mem)).andThen offsBody)
    (by simp [Run.andThen_eq_raised, histBody_ne_raised, offsBody_ne_raised])
    fun m => exec_scat_of_fits (s := State.finish { s with mem := m } .none) hfits k hne
  rw [exec_pass_of_fits hfits k hne, hhist, hoffs, hscat, Run.andThen_assoc]
  rfl

/-- Settles O41: the destination holds the buckets put together (`scatBody_stable`), key `i` at `bucketPlace`. -/
theorem scatWithMatchingOffsetsIsStable : Obligations.ScatWithMatchingOffsetsIsStable := by
  intro k sb db s keys hfits hne hlen hold hstarts
  obtain ⟨m, hbody, hsorted, -, hplaces, -⟩ := scatBody_stable k hne hlen hold hstarts
  have hstable := stableBy_buckets k keys
  refine ⟨m, buckets k keys, ?_, hstable, hstable.length, hsorted, fun i j hi hj => bucketPlace_ne hi hj,
    fun i hi => ⟨bucketPlace_lt_length hi, hplaces i hi⟩⟩
  rw [exec_scat_of_fits hfits k hne]
  exact runStorage_ok hbody

/-- Settles O42: the checks pass and the body sorts (`passBody_sorts`); the last end offset counts every key. -/
theorem passStablySortsByItsDigit : Obligations.PassStablySortsByItsDigit := by
  intro k sb db s keys hfits hne hlen hold
  obtain ⟨m, hbody, hsorted, hsource, hwithin, hends⟩ := passBody_sorts k hne hlen hold
  have hstable := stableBy_buckets k keys
  refine ⟨m, buckets k keys, ?_, hstable, hstable.perm, hsorted, hsource, hwithin.above db, hends, ?_⟩
  · rw [exec_pass_of_fits hfits k hne]
    exact runStorage_ok hbody
  · rw [hends, endOf_last, hlen, BitVec.ofNat_toNat, BitVec.setWidth_eq]

/-- Settles O43: by O26's last clause only SCAT ends with SCATTER_BOUNDS. -/
theorem passesNeverOverflow : Obligations.PassesNeverOverflow := by
  intro i s t hexec hi herr
  obtain ⟨-, -, -, -, -, honlyScat⟩ := firstFailingCheckEndsTheCommand
  obtain rfl | rfl | rfl | ⟨k, sb, db, rfl⟩ := hi <;>
    obtain ⟨_, _, _, hscat, -⟩ := honlyScat s t _ rfl hexec herr <;> cases hscat

end Sys2Proof.Machine
end

section
/-! PROOFS, family 42_pingpong.md: PASS commands one after the other are the iterations of WSORT's loop, what WSORT
leaves in both banks and COUNT, and with them the statements about WSORT. -/

namespace Sys2Proof.Machine

/-! ### WSORT as PASS commands (R170, R171, R176) -/

theorem exec_wsort_of_fits {s : State} (hfits : ¬ s.nMax < s.n) :
    exec .wsort s = s.runStorageCommand none (wsortBody s.n s.mem) := by
  rw [← checkCapacity_none.mpr hfits]
  rfl

theorem exec_wsort_of_exceeds {s : State} (hexceeds : s.nMax < s.n) :
    exec .wsort s = .next (s.finish .capacity) :=
  exec_of_commandChecks_some rfl (commandChecks_of_lt rfl (by simp) hexceeds)

theorem passBody_ne_raised {k : BitVec 3} {sb db : BankId} (hne : sb ≠ db) {n : Idx} {m m' : Memory}
    {code : ErrCode} : passBody k sb db n m ≠ .raised code m' := by
  obtain ⟨_, _, h, -⟩ | ⟨_, -, -, -, h⟩ := passBody_cases k hne n m <;> simp [h]

/-- The PASS command of pass `j`: by digit `j`, from bank j mod 2 into the other one (R171). -/
def pingPongPass (j : Nat) : Instr := .pass (passDigit j) (passSource j) (passSource j).other

/-- The storage that `count` passes of WSORT leave, the first of them pass `i`. -/
def pingPongLoop (n : Idx) (count i : Nat) (m : Memory) : Run Memory :=
  (loopFrom (wsortStep n) count i (m, passSource i)).andThen fun w => .ok w.1

theorem pingPongLoop_succ (n : Idx) (count i : Nat) (m : Memory) :
    pingPongLoop n (count + 1) i m =
      (passBody (passDigit i) (passSource i) (passSource i).other n m).andThen
        (pingPongLoop n count (i + 1)) := by
  simp only [pingPongLoop, loopFrom_succ, wsortStep, Run.andThen_assoc, Run.andThen_ok, ← passSource_succ]
  rfl

theorem wsortBody_eq_pingPongLoop (n : Idx) (m : Memory) : wsortBody n m = pingPongLoop n 8 0 m := rfl

/-- PASS commands after a command that raises no error run the passes of WSORT's loop after its body. -/
theorem foldl_thenExec_pingPongPass {s : State} (hfits : ¬ s.nMax < s.n) (count : Nat) {i : Nat}
    {first : Run Memory} (hfirst : ∀ code m, first ≠ .raised code m) :
    ((List.range' i count).map pingPongPass).foldl thenExec (s.runStorageCommand none first) =
      s.runStorageCommand none (first.andThen (pingPongLoop s.n count i)) := by
  induction count generalizing i first with
  | zero => cases first <;> rfl
  | succ count ih =>
    have hne := BankId.ne_other (passSource i)
    have hpass : thenExec (s.runStorageCommand none first) (pingPongPass i) =
        s.runStorageCommand none
          (first.andThen (passBody (passDigit i) (passSource i) (passSource i).other s.n)) :=
      thenExec_runStorageCommand hfirst fun m =>
        exec_pass_of_fits (s := State.finish { s with mem := m } .none) hfits (passDigit i) hne
    rw [List.range'_succ, List.map_cons, List.foldl_cons, hpass,
      ih (by simp [Run.andThen_eq_raised, hfirst, passBody_ne_raised hne]), Run.andThen_assoc,
      ← funext (pingPongLoop_succ s.n count i)]

/-! ### What WSORT leaves (R173, R174) -/

theorem lowDigits_seven (key : Key) : lowDigits 7 key = (key.extractLsb' 0 56).toNat := by
  simp [lowDigits, BitVec.extractLsb'_toNat]

/-- WSORT on written keys succeeds and leaves what its body does (`wsortBody_sorts`). -/
theorem exec_wsort_sorts {s : State} {keys : List Key} (hfits : ¬ s.nMax < s.n)
    (hlen : keys.length = s.n.toNat) (hold : s.mem.Holds .b0 keys) :
    ∃ m sorted scratch, exec .wsort s = .next (State.finish { s with mem := m } .none) ∧
      m.Holds .b0 sorted ∧ StableBy BitVec.toNat keys sorted ∧ m.Holds .b1 scratch ∧
      StableBy (lowDigits 7) keys scratch ∧
      ∀ d, m.readCount d = some (BitVec.ofNat 32 (endOf 7#3 keys d)) := by
  obtain ⟨m, sorted, scratch, hbody, hsorted, hstable, hscratch, hlow, -, hends⟩ :=
    wsortBody_sorts hlen hold
  exact ⟨m, sorted, scratch, (exec_wsort_of_fits hfits).trans (runStorage_ok hbody), hsorted, hstable,
    hscratch, hlow, hends⟩

/-- WSORT ends without an error only if N fits. -/
theorem fits_of_exec_wsort {s t : State} (hexec : exec .wsort s = .next t) (herr : t.status.err = .none) :
    ¬ s.nMax < s.n := by
  intro hexceeds
  cases hexec.symm.trans (exec_wsort_of_exceeds hexceeds)
  cases herr

/-! ### The obligations -/

/-- Settles O44: pass 0 and then the seven PASS commands of the schedule are the eight passes of WSORT's loop
(`foldl_thenExec_pingPongPass`). -/
theorem wsortIsEightPingPongPasses : Obligations.WsortIsEightPingPongPasses := by
  refine ⟨decodeCommand_eq_ok_iff (w := 6#64) rfl, fun s => ⟨exec_wsort_of_exceeds, fun hfits => ?_⟩⟩
  have hne : BankId.b0 ≠ .b1 := by decide
  calc exec .wsort s
      = s.runStorageCommand none ((passBody 0#3 .b0 .b1 s.n s.mem).andThen (pingPongLoop s.n 7 1)) := by
        rw [exec_wsort_of_fits hfits, wsortBody_eq_pingPongLoop, pingPongLoop_succ]
        rfl
    _ = ((List.range' 1 7).map pingPongPass).foldl thenExec
          (s.runStorageCommand none (passBody 0#3 .b0 .b1 s.n s.mem)) :=
        (foldl_thenExec_pingPongPass hfits 7 fun _ _ => passBody_ne_raised hne).symm
    _ = ((List.range' 1 7).map pingPongPass).foldl thenExec (exec (.pass 0#3 .b0 .b1) s) := by
        rw [exec_pass_of_fits hfits 0#3 hne]

/-- Settles O45: stably sorted by the whole key is an ascending permutation. -/
theorem wsortSortsUnsigned : Obligations.WsortSortsUnsigned := by
  intro s keys hfits hlen hold
  obtain ⟨m, sorted, -, hexec, hsorted, hstable, -⟩ := exec_wsort_sorts hfits hlen hold
  exact ⟨m, sorted, hexec, hstable.perm, hstable.1, hsorted⟩

/-- Settles O46: the low seven digits of a key are its bits [55:0]. -/
theorem wsortLeavesScratchAndCount : Obligations.WsortLeavesScratchAndCount := by
  intro s keys hfits hlen hold
  obtain ⟨m, -, scratch, hexec, -, -, hscratch, hlow, hends⟩ := exec_wsort_sorts hfits hlen hold
  exact ⟨m, scratch, hexec, funext lowDigits_seven ▸ hlow, hlow.length, hscratch, hends⟩

/-- Settles O47: BANK[0] holds one list of N keys, by O45 the sorted one, and ascending permutations of the same
keys are equal (`unsignedAscending_unique`). -/
theorem wsortIsIdempotentAndPermutes : Obligations.WsortIsIdempotentAndPermutes := by
  intro s t keys hlen hold hexec herr
  obtain ⟨m, sorted, hnext, hperm, hasc, hsorted⟩ :=
    wsortSortsUnsigned s keys (fits_of_exec_wsort hexec herr) hlen hold
  cases hexec.symm.trans hnext
  refine ⟨fun hkeys => ?_, fun after hafter hafterHold => ?_⟩
  · rw [unsignedAscending_unique hkeys hasc hperm.symm]
    exact hsorted
  · rw [hafterHold.unique hsorted (hafter.trans (hlen.symm.trans hperm.length_eq.symm))]
    exact hperm

end Sys2Proof.Machine
end

section
/-! PROOFS, family 43_sequence_ops.md: where each key word comes from in a reversal and in a rotation, how REV and ROT
end, what SIGNB does behind keys with top bit 0, and with them the statements about REV, ROT and SIGNB. -/

namespace Sys2Proof.Machine

/-! ### The checks of REV, ROT and SIGNB pass (R121) -/

theorem revChecks_eq_none {b : BankId} {s : State} : commandChecks (.rev b) s = none ↔
    ¬ s.nMax < s.n ∧ s.fromReg ≤ s.toReg ∧ s.toReg ≤ s.n := by
  rw [commandChecks, Option.or_eq_none_iff, checkCapacity_none, checkRevRange_none]

theorem rotChecks_eq_none {b : BankId} {s : State} : commandChecks (.rot b) s = none ↔
    ¬ s.nMax < s.n ∧ s.fromReg ≤ s.mid ∧ s.mid ≤ s.toReg ∧ s.toReg ≤ s.n := by
  rw [commandChecks, Option.or_eq_none_iff, checkCapacity_none, checkRotRange_none]

/-- A check of ROT that fails gives an error. -/
theorem rotChecks_ne_success (b : BankId) (s : State) : commandChecks (.rot b) s ≠ some .none := by
  simp [commandChecks, checkCapacity_some, checkRotRange_some]

theorem exec_rev_of_inRange {b : BankId} {s : State} (h : commandChecks (.rev b) s = none) :
    exec (.rev b) s =
      s.runStorageCommand none (reverseRange b s.fromReg.toNat s.toReg.toNat s.mem) := by
  rw [exec_command rfl, h]
  rfl

theorem exec_rot_of_inRange {b : BankId} {s : State} (h : commandChecks (.rot b) s = none) :
    exec (.rot b) s =
      s.runStorageCommand none (rotateRange b s.fromReg.toNat s.mid.toNat s.toReg.toNat s.mem) := by
  rw [exec_command rfl, h]
  rfl

theorem exec_signb_of_fits {s : State} (hfits : ¬ s.nMax < s.n) (b : BankId) :
    exec (.signb b) s =
      s.runCommand none ((scan b s.n s.mem).andThen fun r => .ok (s.mem, r)) := by
  rw [← checkCapacity_none.mpr hfits]
  rfl

/-! ### Where each key word comes from -/

/-- The index that the reversal of [f, t) takes word `i` from (R180). -/
def reverseSource (f t i : Nat) : Nat := if f ≤ i ∧ i < t then f + (t - 1 - i) else i

/-- The index that the rotation of [f, p) and [p, t) takes word `i` from (R183). -/
def rotateSource (f p t i : Nat) : Nat :=
  if f ≤ i ∧ i < f + (t - p) then p + (i - f)
  else if f + (t - p) ≤ i ∧ i < t then f + (i - (f + (t - p)))
  else i

theorem reverseSource_of_mem {f t q : Nat} (hq : q < t - f) :
    reverseSource f t (f + q) = t - 1 - q := by
  rw [reverseSource, if_pos (by omega)]
  omega

theorem reverseSource_of_outside {f t i : Nat} (hi : i < f ∨ t ≤ i) : reverseSource f t i = i := by
  rw [reverseSource, if_neg (by omega)]

/-- A reversal undoes itself (R188). -/
theorem reverseSource_reverseSource (f t i : Nat) : reverseSource f t (reverseSource f t i) = i := by
  by_cases hi : f ≤ i ∧ i < t
  · obtain ⟨q, rfl⟩ := Nat.exists_eq_add_of_le hi.1
    have hq : q < t - f := by omega
    rw [reverseSource_of_mem hq, show t - 1 - q = f + (t - 1 - f - q) by omega,
      reverseSource_of_mem (by omega)]
    omega
  · have hout : i < f ∨ t ≤ i := by omega
    rw [reverseSource_of_outside hout, reverseSource_of_outside hout]

theorem rotateSource_first {f p t q : Nat} (hq : q < t - p) : rotateSource f p t (f + q) = p + q := by
  rw [rotateSource, if_pos (by omega)]
  omega

section
variable {f p t : Nat} (hfp : f ≤ p) (hpt : p ≤ t)
include hfp hpt

theorem rotateSource_second {q : Nat} (hq : q < p - f) :
    rotateSource f p t (f + (t - p) + q) = f + q := by
  rw [rotateSource, if_neg (by omega), if_pos (by omega)]
  omega

theorem rotateSource_of_outside {i : Nat} (hi : i < f ∨ t ≤ i) : rotateSource f p t i = i := by
  rw [rotateSource, if_neg (by omega), if_neg (by omega)]

/-- An index is in the block that comes first, in the one that comes second, or outside the range. -/
theorem rotateIndex_cases (i : Nat) : (∃ q, q < t - p ∧ i = f + q) ∨
    (∃ q, q < p - f ∧ i = f + (t - p) + q) ∨ (i < f ∨ t ≤ i) := by
  by_cases hout : i < f ∨ t ≤ i
  · exact .inr (.inr hout)
  · by_cases hi : i < f + (t - p)
    · exact .inl ⟨i - f, by omega, by omega⟩
    · exact .inr (.inl ⟨i - (f + (t - p)), by omega, by omega⟩)

theorem rotateSource_of_empty (hempty : f = p ∨ p = t) (i : Nat) : rotateSource f p t i = i := by
  obtain ⟨q, hq, rfl⟩ | ⟨q, hq, rfl⟩ | hout := rotateIndex_cases hfp hpt i
  · rw [rotateSource_first hq]
    omega
  · rw [rotateSource_second hfp hpt hq]
    omega
  · exact rotateSource_of_outside hfp hpt hout

theorem rotateSource_lt {n i : Nat} (htn : t ≤ n) (hi : i < n) : rotateSource f p t i < n := by
  obtain ⟨q, hq, rfl⟩ | ⟨q, hq, rfl⟩ | hout := rotateIndex_cases hfp hpt i
  · rw [rotateSource_first hq]
    omega
  · rw [rotateSource_second hfp hpt hq]
    omega
  · rwa [rotateSource_of_outside hfp hpt hout]

/-- The rotation that splits the range where the first one has put the blocks' border undoes it (R188). -/
theorem rotateSource_rotateSource_border (i : Nat) :
    rotateSource f p t (rotateSource f (f + (t - p)) t i) = i := by
  have hfp' : f ≤ f + (t - p) := Nat.le_add_right _ _
  have hpt' : f + (t - p) ≤ t := by omega
  obtain ⟨q, hq, rfl⟩ | ⟨q, hq, rfl⟩ | hout := rotateIndex_cases hfp' hpt' i
  · rw [rotateSource_first hq, rotateSource_second hfp hpt (by omega)]
  · rw [rotateSource_second hfp' hpt' hq, rotateSource_first (by omega)]
    omega
  · rw [rotateSource_of_outside hfp' hpt' hout, rotateSource_of_outside hfp hpt hout]

theorem rotateSource_border_rotateSource (i : Nat) :
    rotateSource f (f + (t - p)) t (rotateSource f p t i) = i := by
  have h := rotateSource_rotateSource_border (f := f) (p := f + (t - p)) (t := t) (by omega) (by omega) i
  rwa [show f + (t - (f + (t - p))) = p by omega] at h

end

/-- A rotation within the first `n` indices permutes them, its inverse being the one that undoes it. -/
def rotatePerm {f p t n : Nat} (hfp : f ≤ p) (hpt : p ≤ t) (htn : t ≤ n) : Equiv.Perm (Fin n) where
  toFun i := ⟨rotateSource f p t i, rotateSource_lt hfp hpt htn i.isLt⟩
  invFun i := ⟨rotateSource f (f + (t - p)) t i,
    rotateSource_lt (Nat.le_add_right _ _) (by omega) htn i.isLt⟩
  left_inv i := Fin.ext (rotateSource_border_rotateSource hfp hpt i)
  right_inv i := Fin.ext (rotateSource_rotateSource_border hfp hpt i)

/-! ### What REV and ROT leave -/

section
variable {b : BankId} {f p t : Nat} {m m' : Memory}

theorem reverseRange_ne_raised {code : ErrCode} : reverseRange b f t m ≠ .raised code m' := by
  obtain ⟨_, h, -⟩ | ⟨_, -, -, -, -, h⟩ := reverseRange_cases b f t m <;> simp [h]

theorem rotateRange_ne_raised {code : ErrCode} : rotateRange b f p t m ≠ .raised code m' := by
  simp [rotateRange, Run.andThen_eq_raised, reverseRange_ne_raised]

theorem readKey_of_reverseRange_ok (h : reverseRange b f t m = .ok m') (i : Nat) :
    m'.readKey b i = m.readKey b (reverseSource f t i) := by
  obtain ⟨_, hok, -, -, -, hread, -⟩ | ⟨_, -, -, -, -, hfault⟩ := reverseRange_cases b f t m
  · cases hok.symm.trans h
    rw [hread, reverseSource, apply_ite (m.readKey b)]
  · cases hfault.symm.trans h

theorem readKey_of_rotateRange_ok (hfp : f ≤ p) (hpt : p ≤ t) (h : rotateRange b f p t m = .ok m')
    (i : Nat) : m'.readKey b i = m.readKey b (rotateSource f p t i) := by
  obtain ⟨_, hok, -, -, -, hread, -⟩ | ⟨_, -, -, hfault⟩ := rotateRange_cases b hfp hpt m
  · cases hok.symm.trans h
    rw [hread, rotateSource, apply_ite (m.readKey b), apply_ite (m.readKey b)]
  · cases hfault.symm.trans h

/-- A rotation of held keys within their indices permutes them. -/
theorem Memory.Holds.perm_of_rotated {before after : List Key} (hfp : f ≤ p) (hpt : p ≤ t)
    (htn : t ≤ before.length) (hlen : after.length = before.length) (hold : m.Holds b before)
    (hold' : m'.Holds b after)
    (hread : ∀ i, m'.readKey b i = m.readKey b (rotateSource f p t i)) : after.Perm before := by
  have hafter : after = List.ofFn (before.get ∘ rotatePerm hfp hpt htn) := by
    refine List.ext_getElem (by simpa using hlen) fun i hi _ => ?_
    have hlt := rotateSource_lt hfp hpt htn (hlen ▸ hi)
    have hkey : some after[i] = some before[rotateSource f p t i] := by
      rw [← hold' i hi, hread, hold _ hlt]
    simpa [rotatePerm] using hkey
  calc after = List.ofFn (before.get ∘ rotatePerm hfp hpt htn) := hafter
    List.Perm _ (List.ofFn before.get) := (rotatePerm hfp hpt htn).ofFn_comp_perm before.get
    _ = before := List.ofFn_get before

end

/-- How a storage command that raises no error goes on: a check has failed and only STATUS has changed, or its
checks have passed and its body has run to the end. -/
theorem runStorageCommand_next {s t : State} {checks : Option ErrCode} {body : Run Memory}
    (hbody : ∀ code m, body ≠ .raised code m) (h : s.runStorageCommand checks body = .next t) :
    (∃ code, checks = some code ∧ t = s.finish code) ∨
    (∃ m, checks = none ∧ body = .ok m ∧ t = State.finish { s with mem := m } .none) := by
  obtain ⟨code, hchecks, ht⟩ | ⟨m, r, hchecks, hrun, ht⟩ | ⟨code, m, -, hrun, -⟩ := runCommand_next h
  · exact .inl ⟨code, hchecks, ht⟩
  · obtain ⟨m', hok, hkeep⟩ := Run.andThen_eq_ok.mp hrun
    cases hkeep
    exact .inr ⟨m, hchecks, hok, ht⟩
  · simp [Run.andThen_eq_raised, hbody] at hrun

/-- How a REV that goes on has ended: with its check's code, or with the range reversed. -/
theorem exec_rev_next {b : BankId} {s t : State} (h : exec (.rev b) s = .next t) :
    (∃ code, commandChecks (.rev b) s = some code ∧ t = s.finish code) ∨
    (∃ m, commandChecks (.rev b) s = none ∧ t = State.finish { s with mem := m } .none ∧
      ∀ i, m.readKey b i = s.mem.readKey b (reverseSource s.fromReg.toNat s.toReg.toNat i)) := by
  obtain hfailed | ⟨m, hchecks, hok, ht⟩ :=
    runStorageCommand_next (fun _ _ => reverseRange_ne_raised) h
  · exact .inl hfailed
  · exact .inr ⟨m, hchecks, ht, readKey_of_reverseRange_ok hok⟩

/-- How a ROT that goes on has ended: with its check's code, or with the two blocks exchanged. -/
theorem exec_rot_next {b : BankId} {s t : State} (h : exec (.rot b) s = .next t) :
    (∃ code, commandChecks (.rot b) s = some code ∧ t = s.finish code) ∨
    (∃ m, commandChecks (.rot b) s = none ∧ t = State.finish { s with mem := m } .none ∧
      ∀ i, m.readKey b i =
        s.mem.readKey b (rotateSource s.fromReg.toNat s.mid.toNat s.toReg.toNat i)) := by
  obtain hfailed | ⟨m, hchecks, hok, ht⟩ :=
    runStorageCommand_next (fun _ _ => rotateRange_ne_raised) h
  · exact .inl hfailed
  · obtain ⟨-, hfp, hpt, -⟩ := (rotChecks_eq_none (b := b)).mp hchecks
    exact .inr ⟨m, hchecks, ht,
      readKey_of_rotateRange_ok (BitVec.le_def.mp hfp) (BitVec.le_def.mp hpt) hok⟩

/-- The index where ROT puts the blocks' border, as a register value: FROM + (TO - MID) does not wrap. -/
theorem toNat_border {f p t : Idx} (hfp : f ≤ p) (hpt : p ≤ t) :
    (f + (t - p)).toNat = f.toNat + (t.toNat - p.toNat) := by bv_omega

theorem border_between {f p t : Idx} (hfp : f ≤ p) (hpt : p ≤ t) : f ≤ f + (t - p) ∧ f + (t - p) ≤ t := by
  rw [BitVec.le_def, BitVec.le_def, toNat_border hfp hpt]
  rw [BitVec.le_def] at hfp hpt
  omega

/-! ### The scan behind keys with top bit 0 (R186) -/

/-- A scan goes over keys with top bit 0 to the words behind them. -/
theorem scanFrom_skip {m : Memory} {b : BankId} {count i : Nat} (rest : Nat)
    (h : ∀ j, i ≤ j → j < i + count → ∃ key, m.readKey b j = some key ∧ top key = false) :
    scanFrom m b (count + rest) i = scanFrom m b rest (i + count) := by
  induction count generalizing i with
  | zero => rw [Nat.zero_add, Nat.add_zero]
  | succ count ih =>
    obtain ⟨key, hkey, htop⟩ := h i le_rfl (by omega)
    rw [Nat.add_right_comm, scanFrom, withKey_some hkey, htop, if_neg Bool.false_ne_true,
      ih fun j hj hj' => h j (by omega) (by omega), Nat.add_right_comm, Nat.add_assoc]

theorem scan_behind_held_keys {m : Memory} {b : BankId} {n : Idx} {keys : List Key}
    (hlen : keys.length ≤ n.toNat) (hold : m.Holds b keys) (htop : ∀ key ∈ keys, top key = false) :
    scan b n m = (scanFrom m b (n.toNat - keys.length) keys.length).andThen
      fun i => .ok (BitVec.ofNat 32 i) := by
  have hskip := scanFrom_skip (m := m) (b := b) (i := 0) (count := keys.length)
    (n.toNat - keys.length) fun j _ hj =>
      have hj : j < keys.length := by omega
      ⟨keys[j], hold j hj, htop _ (List.getElem_mem hj)⟩
  rw [Nat.add_sub_cancel' hlen, Nat.zero_add] at hskip
  rw [scan, hskip]

/-- SIGNB whose scan goes on writes its result to RESULT. -/
theorem exec_signb_of_scan_ok {b : BankId} {s : State} {r : Idx} (hfits : ¬ s.nMax < s.n)
    (h : scan b s.n s.mem = .ok r) :
    exec (.signb b) s = .next (State.finish { s with result := r } .none) := by
  rw [exec_signb_of_fits hfits, h]
  rfl

theorem exec_signb_of_scan_fault {b : BankId} {s : State} {e : Fault} (hfits : ¬ s.nMax < s.n)
    (h : scan b s.n s.mem = .fault e) : exec (.signb b) s = .fault e := by
  rw [exec_signb_of_fits hfits, h]
  rfl

/-! ### The obligations -/

/-- Settles O48: a reversal is done or stops at an UNWRITTEN word it reads (`reverseRange_cases`), and word
`FROM + q` comes from `TO - 1 - q` (`reverseSource_of_mem`). -/
theorem revReversesTheRange : Obligations.RevReversesTheRange := by
  refine fun b => ⟨decodeCommand_eq_ok_iff rfl, fun s => ⟨fun hlt => ?capacity,
    fun hfits hrange => ?range, ?_⟩⟩
  case capacity => exact exec_of_commandChecks_some rfl (commandChecks_of_lt rfl (by simp) hlt)
  case range =>
    exact exec_of_commandChecks_some rfl
      ((checkCapacity_or_of_fits hfits _).trans (checkRevRange_some.mpr ⟨hrange, rfl⟩))
  rintro f t rfl rfl hfits hft htn
  rw [exec_rev_of_inRange (revChecks_eq_none.mpr ⟨hfits, hft, htn⟩)]
  obtain ⟨m, hok, -, hcount, hother, -, hwritten⟩ | ⟨i, hfi, hit, hmid, hnone, hfault⟩ :=
    reverseRange_cases b s.fromReg.toNat s.toReg.toNat s.mem
  · have hread := readKey_of_reverseRange_ok hok
    refine ⟨fun _ => ⟨m, runStorage_ok hok, fun q hq => ?_, fun i hi => ?_, hother, hcount⟩, ?_⟩
    · rw [hread, reverseSource_of_mem hq]
    · rw [hread, reverseSource_of_outside hi]
    · rintro ⟨q, hq, hmid, hnone⟩
      exact absurd hnone (hwritten _ (by omega) (by omega) (by omega))
  · refine ⟨fun hall => ?_, fun _ => ⟨i, hfi, hit, hnone, runStorage_fault hfault⟩⟩
    obtain ⟨q, rfl⟩ := Nat.exists_eq_add_of_le hfi
    exact absurd hnone (hall q (by omega) (by omega))

/-- Settles O49: a rotation is done or stops at an UNWRITTEN word it reads (`rotateRange_cases`), and
`rotateSource` says where each block comes from. -/
theorem rotPutsTheSecondBlockFirst : Obligations.RotPutsTheSecondBlockFirst := by
  refine fun b => ⟨decodeCommand_eq_ok_iff rfl, fun s => ⟨fun hlt => ?capacity,
    fun hfits hrange => ?range, ?_⟩⟩
  case capacity => exact exec_of_commandChecks_some rfl (commandChecks_of_lt rfl (by simp) hlt)
  case range =>
    exact exec_of_commandChecks_some rfl
      ((checkCapacity_or_of_fits hfits _).trans (checkRotRange_some.mpr ⟨hrange, rfl⟩))
  rintro f p t rfl rfl rfl hfits hfp hpt htn
  rw [exec_rot_of_inRange (rotChecks_eq_none.mpr ⟨hfits, hfp, hpt, htn⟩)]
  obtain ⟨m, hok, -, hcount, hother, -, hwritten⟩ | ⟨i, hreads, hnone, hfault⟩ :=
    rotateRange_cases b hfp hpt s.mem
  · have hread := readKey_of_rotateRange_ok hfp hpt hok
    refine ⟨fun _ => ⟨m, runStorage_ok hok, fun q hq => ?_, fun q hq => ?_, fun hempty i => ?_,
      fun i hi => ?_, hother, hcount⟩, fun ⟨i, hreads, hnone⟩ => absurd hnone (hwritten i hreads)⟩
    · rw [hread, rotateSource_first hq]
    · rw [hread, rotateSource_second hfp hpt hq]
    · rw [hread, rotateSource_of_empty hfp hpt hempty]
    · rw [hread, rotateSource_of_outside hfp hpt hi]
  · exact ⟨fun hall => absurd hnone (hall i hreads),
      fun _ => ⟨i, hreads, hnone, runStorage_fault hfault⟩⟩

/-- Settles O50: a reversal is its own inverse (`reverseSource_reverseSource`), a rotation has the one with the
border moved as its inverse (`rotateSource_rotateSource_border`), and so it permutes the words below N. -/
theorem reversalAndRotationAreUndone : Obligations.ReversalAndRotationAreUndone := by
  refine ⟨fun b s t u hst htu i => ?rev, fun b s t u hst herr htu => ?rot,
    fun b s t before after hst hbefore hafter hold hold' => ?perm⟩
  case rev =>
    obtain ⟨code, hchecks, rfl⟩ | ⟨m, hchecks, rfl, hread⟩ := exec_rev_next hst <;>
      obtain ⟨code', hchecks', rfl⟩ | ⟨m', hchecks', rfl, hread'⟩ := exec_rev_next htu
    · rfl
    · cases hchecks.symm.trans hchecks'
    · cases hchecks.symm.trans hchecks'
    · exact (hread' i).trans ((hread _).trans (congrArg _ (reverseSource_reverseSource _ _ i)))
  case rot =>
    obtain ⟨code, hchecks, rfl⟩ | ⟨m, hchecks, rfl, hread⟩ := exec_rot_next hst
    · obtain rfl : code = .none := herr
      exact absurd hchecks (rotChecks_ne_success b s)
    · obtain ⟨hfits, hfp, hpt, htn⟩ := rotChecks_eq_none.mp hchecks
      obtain ⟨code, hchecks', -⟩ | ⟨m', -, rfl, hread'⟩ := exec_rot_next htu
      · obtain ⟨hfp', hpt'⟩ := border_between hfp hpt
        cases hchecks'.symm.trans (rotChecks_eq_none.mpr ⟨hfits, hfp', hpt', htn⟩)
      · refine ⟨rfl, fun i => (hread' i).trans ((hread _).trans ?_)⟩
        simp [toNat_border hfp hpt, rotateSource_rotateSource_border hfp hpt]
  case perm =>
    obtain ⟨code, -, rfl⟩ | ⟨m, hchecks, rfl, hread⟩ := exec_rot_next hst
    · rw [hold'.unique hold (hafter.trans hbefore.symm)]
    · obtain ⟨-, hfp, hpt, htn⟩ := rotChecks_eq_none.mp hchecks
      exact hold.perm_of_rotated (BitVec.le_def.mp hfp) (BitVec.le_def.mp hpt) (hbefore ▸ htn)
        (hafter.trans hbefore.symm) hold' hread

/-- Settles O51: behind the keys with top bit 0 (`scan_behind_held_keys`) the scan is at the end, at a key with top bit
1, or at an UNWRITTEN word. -/
theorem signbFindsTheFirstTopBit : Obligations.SignbFindsTheFirstTopBit := by
  refine fun b => ⟨decodeCommand_eq_ok_iff rfl, fun s => ⟨fun hlt => ?capacity,
    fun keys hfits hlen hold htop => ?_⟩⟩
  case capacity => exact exec_of_commandChecks_some rfl (commandChecks_of_lt rfl (by simp) hlt)
  have hscan := scan_behind_held_keys hlen hold htop
  refine ⟨fun hall => exec_signb_of_scan_ok hfits ?_,
    fun key hlt hkey hone => exec_signb_of_scan_ok hfits ?_,
    fun hlt hnone => exec_signb_of_scan_fault hfits ?_⟩
  · rw [hscan, hall, Nat.sub_self, scanFrom, Run.andThen_ok, BitVec.ofNat_toNat, BitVec.setWidth_eq]
  · obtain ⟨rest, hrest⟩ := Nat.exists_eq_add_of_lt hlt
    rw [hscan, hrest, Nat.add_assoc, Nat.add_sub_cancel_left, scanFrom, withKey_some hkey, top, if_pos hone,
      Run.andThen_ok]
  · obtain ⟨rest, hrest⟩ := Nat.exists_eq_add_of_lt hlt
    rw [hscan, hrest, Nat.add_assoc, Nat.add_sub_cancel_left, scanFrom, withKey_none hnone, Run.andThen_fault]

/-- Settles O52: the scan of ascending keys finds the border of the two sign classes (`scan_sorted`). -/
theorem signBoundarySeparatesSortedKeys : Obligations.SignBoundarySeparatesSortedKeys := by
  intro b s keys hfits hlen hold hasc
  obtain ⟨r, hscan, -, hbelow, hfrom, hcount⟩ :=
    scan_sorted hlen hold (unsignedAscending_iff.mp hasc)
  refine ⟨r, exec_signb_of_scan_ok hfits hscan, hcount, fun i hi hlt => ?_, fun i hi hle => ?_⟩
  · exact hbelow _ (List.mem_take_iff_getElem.mpr ⟨i, by omega, rfl⟩)
  · exact hfrom _ (List.mem_drop_iff_getElem.mpr ⟨i - r.toNat, by omega, by simp [Nat.add_sub_cancel' hle]⟩)

end Sys2Proof.Machine
end

section
/-! PROOFS, family 44_composite_sorts.md: the order SORTI and SORTF leave as one rank per key, where the composite
sorts stop, the host programs for ROT and REV, and with them the statements about SORTI and SORTF. -/

namespace Sys2Proof.Machine

/-! ### The signed order and the order of SORTF (R12, R13, R205) -/

theorem toInt_eq_ite (key : Key) :
    key.toInt = if top key then (key.toNat : Int) - 2 ^ 64 else (key.toNat : Int) := by
  simp only [top_iff, BitVec.toInt_eq_toNat_cond]
  split <;> split <;> omega

/-- The rank of a key in the order SORTF leaves (R205): a key with sign bit 0 has its bit pattern, and those with
sign bit 1 go down from -1, the rank of -0.0, as their bit pattern goes up. -/
def floatRank (key : Key) : Int := if top key then 2 ^ 63 - 1 - (key.toNat : Int) else key.toNat

theorem floatRank_of_top {key : Key} (h : top key = true) :
    floatRank key = 2 ^ 63 - 1 - (key.toNat : Int) := if_pos h

theorem floatRank_of_not_top {key : Key} (h : top key = false) : floatRank key = key.toNat := by
  simp [floatRank, h]

theorem floatRank_neg_iff (key : Key) : floatRank key < 0 ↔ top key = true := by
  cases h : top key with
  | true =>
    have hle := (top_iff key).mp h
    rw [floatRank_of_top h]
    simp only [iff_true]
    omega
  | false => simp [floatRank_of_not_top h]

theorem floatRank_injective : Function.Injective floatRank := by
  intro x y hxy
  have hsign : top x = top y := by
    rw [Bool.eq_iff_iff, ← floatRank_neg_iff, ← floatRank_neg_iff, hxy]
  cases hy : top y with
  | true =>
    rw [floatRank_of_top hy, floatRank_of_top (hsign.trans hy)] at hxy
    exact BitVec.eq_of_toNat_eq (by omega)
  | false =>
    rw [floatRank_of_not_top hy, floatRank_of_not_top (hsign.trans hy)] at hxy
    exact BitVec.eq_of_toNat_eq (by omega)

theorem floatRank_eq_neg_one_iff {key : Key} : floatRank key = -1 ↔ key = 0x8000000000000000#64 :=
  floatRank_injective.eq_iff' (by decide)

theorem floatRank_eq_zero_iff {key : Key} : floatRank key = 0 ↔ key = 0#64 :=
  floatRank_injective.eq_iff' (by decide)

/-! ### Block B, with top bit 1, before block A, with top bit 0 (R200, R204) -/

section
variable {blockA blockB : List Key}

theorem StableBy.ascending_blocks {keys : List Key} (h : StableBy BitVec.toNat keys (blockA ++ blockB)) :
    UnsignedAscending blockA ∧ UnsignedAscending blockB := by
  obtain ⟨hA, hB, -⟩ := List.pairwise_append.mp (stableBy_iff.mp h).1
  exact ⟨unsignedAscending_iff.mpr hA, unsignedAscending_iff.mpr hB⟩

variable (hA : UnsignedAscending blockA) (hB : UnsignedAscending blockB)
  (topA : ∀ key ∈ blockA, top key = false) (topB : ∀ key ∈ blockB, top key = true)
include hA hB topA topB

theorem signedAscending_blocks : SignedAscending (blockB ++ blockA) := by
  have hpairs : (blockB ++ blockA).Pairwise fun x y => x.toInt ≤ y.toInt := by
    refine List.pairwise_append.mpr ⟨(unsignedAscending_iff.mp hB).imp_of_mem ?negative,
      (unsignedAscending_iff.mp hA).imp_of_mem ?nonnegative, fun x hx y hy => ?border⟩
    case negative =>
      intro x y hx hy hle
      simp only [toInt_eq_ite, topB x hx, topB y hy, if_true]
      omega
    case nonnegative =>
      intro x y hx hy hle
      simp only [toInt_eq_ite, topA x hx, topA y hy, Bool.false_eq_true, if_false]
      omega
    case border =>
      have hlt := x.isLt
      simp only [toInt_eq_ite, topB x hx, topA y hy, Bool.false_eq_true, if_true, if_false]
      omega
  exact fun i hi => List.pairwise_iff_getElem.mp hpairs i (i + 1) (by omega) hi (by omega)

theorem floatRank_ascending_blocks :
    (blockB.reverse ++ blockA).Pairwise (floatRank · ≤ floatRank ·) := by
  refine List.pairwise_append.mpr ⟨List.pairwise_reverse.mpr
    ((unsignedAscending_iff.mp hB).imp_of_mem ?negative),
    (unsignedAscending_iff.mp hA).imp_of_mem ?nonnegative, fun x hx y hy => ?border⟩
  case negative =>
    intro x y hx hy hle
    rw [floatRank_of_top (topB x hx), floatRank_of_top (topB y hy)]
    omega
  case nonnegative =>
    intro x y hx hy hle
    rw [floatRank_of_not_top (topA x hx), floatRank_of_not_top (topA y hy)]
    omega
  case border =>
    have hneg := (floatRank_neg_iff x).mpr (topB x (List.mem_reverse.mp hx))
    rw [floatRank_of_not_top (topA y hy)]
    omega

end

/-! ### Adjacent ranks in an ascending sequence (R207)

`g` is the rank of a key; R207 is about the two ranks of the zeros. -/

section
variable {g : Key → Int} {xs : List Key} {v : Int} {i j : Nat}
  (asc : xs.Pairwise (g · ≤ g ·))
include asc

theorem rank_mono (hij : i ≤ j) (hj : j < xs.length) : g xs[i] ≤ g xs[j] := by
  have hrefl : Std.Refl fun x y : Key => g x ≤ g y := ⟨fun _ => le_rfl⟩
  exact asc.rel_get_of_le (a := ⟨i, by omega⟩) (b := ⟨j, hj⟩) hij

/-- Where the rank `v + 1` occurs, it is the next rank behind the last `v`. -/
theorem rank_after (hv : ∃ key ∈ xs, g key = v + 1) (hi : i + 1 < xs.length) (hhere : g xs[i] = v)
    (hnext : g xs[i + 1] ≠ v) : g xs[i + 1] = v + 1 := by
  obtain ⟨key, hmem, hkey⟩ := hv
  obtain ⟨j, hj, rfl⟩ := List.getElem_of_mem hmem
  have hij : i + 1 ≤ j := by
    by_contra hji
    have hle := rank_mono asc (show j ≤ i by omega) (by omega)
    omega
  have hlower := rank_mono asc (show i ≤ i + 1 by omega) hi
  have hupper := rank_mono asc hij hj
  omega

/-- Where the rank `v` occurs, it is the last rank before the first `v + 1`. -/
theorem rank_before (hv : ∃ key ∈ xs, g key = v) (hi : i + 1 < xs.length) (hnext : g xs[i + 1] = v + 1)
    (hhere : g xs[i] ≠ v + 1) : g xs[i] = v := by
  obtain ⟨key, hmem, hkey⟩ := hv
  obtain ⟨j, hj, rfl⟩ := List.getElem_of_mem hmem
  have hji : j ≤ i := by
    by_contra hij
    have hle := rank_mono asc (show i + 1 ≤ j by omega) hj
    omega
  have hlower := rank_mono asc hji (by omega)
  have hupper := rank_mono asc (show i ≤ i + 1 by omega) hi
  omega

/-- Two ranks `v` and `v + 1` that both occur stand side by side: at the first `v + 1`. -/
theorem exists_adjacent_ranks (hv : ∃ key ∈ xs, g key = v) (hv' : ∃ key ∈ xs, g key = v + 1) :
    ∃ i, ∃ h : i + 1 < xs.length, g xs[i] = v ∧ g xs[i + 1] = v + 1 := by
  have hoccurs : ∃ i, ∃ h : i < xs.length, g xs[i] = v + 1 := by
    obtain ⟨key, hmem, hkey⟩ := hv'
    obtain ⟨i, hi, rfl⟩ := List.getElem_of_mem hmem
    exact ⟨i, hi, hkey⟩
  classical
  obtain ⟨hfirst, hrank⟩ := Nat.find_spec hoccurs
  cases hfind : Nat.find hoccurs with
  | zero =>
    obtain ⟨key, hmem, hkey⟩ := hv
    obtain ⟨j, hj, rfl⟩ := List.getElem_of_mem hmem
    have hle := rank_mono asc (Nat.zero_le j) hj
    simp only [hfind] at hrank
    omega
  | succ i =>
    simp only [hfind] at hfirst hrank
    have hearlier : g xs[i] ≠ v + 1 := fun h =>
      Nat.find_min hoccurs (m := i) (by omega) ⟨by omega, h⟩
    exact ⟨i, hfirst, rank_before asc hv hfirst hrank hearlier, hrank⟩

end

/-! ### How SORTI and SORTF end -/

/-- A command that passes its checks and whose body runs to the end. -/
theorem exec_of_commandBody_ok {i : Instr} {s : State} {m : Memory} {r : Idx} (hi : i.isCommand = true)
    (hchecks : commandChecks i s = none) (hbody : commandBody i s = .ok (m, r)) :
    exec i s = .next (State.finish { s with mem := m, result := r } .none) := by
  rw [exec_command hi, hchecks, hbody]
  rfl

/-- A command that passes its checks and whose body stops. -/
theorem exec_of_commandBody_fault {i : Instr} {s : State} {e : Fault} (hi : i.isCommand = true)
    (hchecks : commandChecks i s = none) (hbody : commandBody i s = .fault e) : exec i s = .fault e := by
  rw [exec_command hi, hchecks, hbody]
  rfl

/-- SORTI stops at the first key word that is UNWRITTEN (R22). -/
theorem sortiBody_fault {n : Idx} {m : Memory} {keys : List Key} (hlt : keys.length < n.toNat)
    (hold : m.Holds .b0 keys) (hnone : m.readKey .b0 keys.length = none) :
    sortiBody n m = .fault (.unwrittenKey .b0 keys.length) := by
  obtain ⟨all, hlen, hall⟩ | ⟨i, -, hnone', hbelow, hfault⟩ := sortiBody_cases n m
  · cases hnone.symm.trans (hall keys.length (by omega))
  · obtain hi | rfl | hi := Nat.lt_trichotomy i keys.length
    · cases hnone'.symm.trans (hold i hi)
    · exact hfault
    · exact absurd hnone (hbelow _ hi)

theorem sortfBody_fault {n : Idx} {m : Memory} {keys : List Key} (hlt : keys.length < n.toNat)
    (hold : m.Holds .b0 keys) (hnone : m.readKey .b0 keys.length = none) :
    sortfBody n m = .fault (.unwrittenKey .b0 keys.length) := by
  rw [sortfBody, sortiBody_fault hlt hold hnone, Run.andThen_fault]

/-- WSORT that goes on with N within the capacity has found N written keys. -/
theorem exists_keys_of_exec_wsort {s t : State} (hfits : ¬ s.nMax < s.n) (h : exec .wsort s = .next t) :
    ∃ keys, keys.length = s.n.toNat ∧ s.mem.Holds .b0 keys := by
  obtain ⟨_, keys, -, -, -, hlen, hold, -⟩ | ⟨_, -, -, -, hfault⟩ := wsortBody_cases s.n s.mem
  · exact ⟨keys, hlen, hold⟩
  · cases ((exec_wsort_of_fits hfits).trans (runStorage_fault hfault)).symm.trans h

/-- SORTF that goes on with N within the capacity has found N written keys. -/
theorem exists_keys_of_exec_sortf {s t : State} (hfits : ¬ s.nMax < s.n) (h : exec .sortf s = .next t) :
    ∃ keys, keys.length = s.n.toNat ∧ s.mem.Holds .b0 keys := by
  obtain hkeys | ⟨_, -, -, -, hfault⟩ := sortfBody_cases s.n s.mem
  · exact hkeys
  · cases (exec_of_commandBody_fault (i := .sortf) rfl (checkCapacity_none.mpr hfits) hfault).symm.trans h

/-! ### The steps of the composite sorts and their host programs (R209) -/

/-- SORTI is WSORT, SIGNB and ROT over block A and block B. -/
theorem sortiBody_eq_ok {n r : Idx} {m m' : Memory} : sortiBody n m = .ok (m', r) ↔
    ∃ sorted, wsortBody n m = .ok sorted ∧ scan .b0 n sorted = .ok r ∧
      rotateRange .b0 0 r.toNat n.toNat sorted = .ok m' := by
  simp only [sortiBody, Run.andThen_eq_ok, Run.ok.injEq, Prod.mk.injEq]
  constructor
  · rintro ⟨sorted, hsort, _, hscan, _, hrotate, rfl, rfl⟩
    exact ⟨sorted, hsort, hscan, hrotate⟩
  · rintro ⟨sorted, hsort, hscan, hrotate⟩
    exact ⟨sorted, hsort, r, hscan, m', hrotate, rfl, rfl⟩

/-- SORTF is SORTI and then REV over block B. -/
theorem sortfBody_eq_ok {n r : Idx} {m m' : Memory} : sortfBody n m = .ok (m', r) ↔
    ∃ signed, sortiBody n m = .ok (signed, r) ∧
      reverseRange .b0 0 (n.toNat - r.toNat) signed = .ok m' := by
  simp only [sortfBody, Run.andThen_eq_ok, Run.ok.injEq, Prod.mk.injEq]
  constructor
  · rintro ⟨⟨signed, _⟩, hsort, _, hreverse, rfl, rfl⟩
    exact ⟨signed, hsort, hreverse⟩
  · rintro ⟨signed, hsort, hreverse⟩
    exact ⟨(signed, r), hsort, m', hreverse, rfl, rfl⟩

theorem scan_ok_le {b : BankId} {n r : Idx} {m : Memory} (h : scan b n m = .ok r) : r ≤ n := by
  obtain ⟨_, hle, hok, -⟩ | ⟨_, -, -, -, hfault⟩ := scan_cases b n m
  · cases hok.symm.trans h
    exact hle
  · cases hfault.symm.trans h

/-- WSORT and then SIGNB on BANK[0]: the sorted keys, and their boundary in RESULT. -/
theorem signbProgram_next {s : State} {m : Memory} {r : Idx} (hfits : ¬ s.nMax < s.n)
    (hwsort : wsortBody s.n s.mem = .ok m) (hscan : scan .b0 s.n m = .ok r) :
    thenExec (exec .wsort s) (.signb .b0) =
      .next (State.finish { s with mem := m, result := r } .none) := by
  rw [exec_wsort_of_fits hfits, runStorage_ok hwsort]
  exact exec_signb_of_scan_ok (s := State.finish { s with mem := m } .none) hfits hscan

theorem low32_setWidth (v : Idx) : low32 (v.setWidth 64) = v := by
  rw [low32, ← BitVec.setWidth_eq_extractLsb' (by decide), BitVec.setWidth_setWidth_of_le _ (by decide),
    BitVec.setWidth_eq]

section
variable {s : State} {b : BankId} {m : Memory} {f p t : Idx} (hidle : s.status.busy = false)
include hidle

theorem exec_hwr_fromReg (f : Idx) :
    exec (.hwr 0x05#8 (f.setWidth 64)) s = .next { s with fromReg := f } := by
  rw [exec_hwr_idle hidle rfl, low32_setWidth]

theorem exec_hwr_mid (p : Idx) : exec (.hwr 0x06#8 (p.setWidth 64)) s = .next { s with mid := p } := by
  rw [exec_hwr_idle hidle rfl, low32_setWidth]

theorem exec_hwr_toReg (t : Idx) : exec (.hwr 0x07#8 (t.setWidth 64)) s = .next { s with toReg := t } := by
  rw [exec_hwr_idle hidle rfl, low32_setWidth]

/-- The host's program for a rotation: write the operands and issue ROT. -/
theorem rotProgram_next (hfits : ¬ s.nMax < s.n) (hfp : f ≤ p) (hpt : p ≤ t) (htn : t ≤ s.n)
    (hrotate : rotateRange b f.toNat p.toNat t.toNat s.mem = .ok m) :
    [Instr.hwr 0x05#8 (f.setWidth 64), .hwr 0x06#8 (p.setWidth 64), .hwr 0x07#8 (t.setWidth 64),
      .rot b].foldl thenExec (.next s) =
      .next (State.finish { s with fromReg := f, mid := p, toReg := t, mem := m } .none) := by
  have hchecks : commandChecks (.rot b) { s with fromReg := f, mid := p, toReg := t } = none :=
    rotChecks_eq_none.mpr ⟨hfits, hfp, hpt, htn⟩
  simp only [List.foldl_cons, List.foldl_nil, thenExec, exec_hwr_fromReg hidle,
    exec_hwr_mid (s := { s with fromReg := f }) hidle,
    exec_hwr_toReg (s := { s with fromReg := f, mid := p }) hidle]
  exact (exec_rot_of_inRange hchecks).trans (runStorage_ok hrotate)

/-- The host's program for a reversal: write the operands and issue REV. -/
theorem revProgram_next (hfits : ¬ s.nMax < s.n) (hft : f ≤ t) (htn : t ≤ s.n)
    (hreverse : reverseRange b f.toNat t.toNat s.mem = .ok m) :
    [Instr.hwr 0x05#8 (f.setWidth 64), .hwr 0x07#8 (t.setWidth 64), .rev b].foldl thenExec (.next s) =
      .next (State.finish { s with fromReg := f, toReg := t, mem := m } .none) := by
  have hchecks : commandChecks (.rev b) { s with fromReg := f, toReg := t } = none :=
    revChecks_eq_none.mpr ⟨hfits, hft, htn⟩
  simp only [List.foldl_cons, List.foldl_nil, thenExec, exec_hwr_fromReg hidle,
    exec_hwr_toReg (s := { s with fromReg := f }) hidle]
  exact (exec_rev_of_inRange hchecks).trans (runStorage_ok hreverse)

end

/-! ### The obligations -/

/-- Settles O53: `sortiBody_sorts` gives the two blocks, which are signed-ascending with block B in front
(`signedAscending_blocks`), and `sortiBody_fault` the first UNWRITTEN word. -/
theorem sortiSortsSigned : Obligations.SortiSortsSigned := by
  refine ⟨decodeCommand_eq_ok_iff (w := 10#64) rfl, fun s => ⟨fun hexceeds => ?capacity,
    fun keys hfits hlen hold => ?sorted, fun keys hfits hlt hold hnone => ?unwritten⟩⟩
  case capacity => exact exec_of_commandChecks_some rfl (commandChecks_of_lt rfl (by simp) hexceeds)
  case sorted =>
    obtain ⟨m, _, blockA, blockB, hbody, hheld, hstable, topA, topB, hcount, hwithin, hwsort, hscratch⟩ :=
      sortiBody_sorts hlen hold
    obtain ⟨hA, hB⟩ := hstable.ascending_blocks
    exact ⟨m, blockB, blockA, exec_of_commandBody_ok rfl (checkCapacity_none.mpr hfits) hbody,
      List.perm_append_comm.trans hstable.perm, hheld, topB, topA, hB, hA,
      signedAscending_blocks hA hB topA topB, hcount, hwithin.above,
      _, (exec_wsort_of_fits hfits).trans (runStorage_ok hwsort), hscratch⟩
  case unwritten =>
    exact exec_of_commandBody_fault rfl (checkCapacity_none.mpr hfits) (sortiBody_fault hlt hold hnone)

/-- Settles O54: as O53, with `sortfBody_sorts`, which reverses block B. -/
theorem sortfSortsInFloatOrder : Obligations.SortfSortsInFloatOrder := by
  refine ⟨decodeCommand_eq_ok_iff (w := 11#64) rfl, fun s => ⟨fun hexceeds => ?capacity,
    fun keys hfits hlen hold => ?sorted, fun keys hfits hlt hold hnone => ?unwritten⟩⟩
  case capacity => exact exec_of_commandChecks_some rfl (commandChecks_of_lt rfl (by simp) hexceeds)
  case sorted =>
    obtain ⟨m, _, blockA, blockB, hbody, hheld, hstable, topA, topB, hcount, hwithin, hwsort, hscratch⟩ :=
      sortfBody_sorts hlen hold
    obtain ⟨hA, hB⟩ := hstable.ascending_blocks
    have hperm : (blockB.reverse ++ blockA).Perm keys :=
      (blockB.reverse_perm.append_right blockA).trans (List.perm_append_comm.trans hstable.perm)
    exact ⟨m, blockB, blockA, exec_of_commandBody_ok rfl (checkCapacity_none.mpr hfits) hbody, hperm, hheld,
      topB, topA, hB, hA, hcount, hwithin.above,
      _, (exec_wsort_of_fits hfits).trans (runStorage_ok hwsort), hscratch⟩
  case unwritten =>
    exact exec_of_commandBody_fault rfl (checkCapacity_none.mpr hfits) (sortfBody_fault hlt hold hnone)

/-- SORTF ends without an error only if N fits. -/
theorem fits_of_exec_sortf {s t : State} (h : exec .sortf s = .next t) (herr : t.status.err = .none) :
    ¬ s.nMax < s.n := by
  intro hexceeds
  cases h.symm.trans ((sortfSortsInFloatOrder.2 s).1 hexceeds)
  cases herr

/-- After a SORTF that succeeds the keys ascend in `floatRank`, by O54. -/
theorem floatRank_ascending_of_exec_sortf {s t : State} {after : List Key} (h : exec .sortf s = .next t)
    (herr : t.status.err = .none) (hlen : after.length = s.n.toNat) (hold : t.mem.Holds .b0 after) :
    after.Pairwise (floatRank · ≤ floatRank ·) := by
  have hfits := fits_of_exec_sortf h herr
  obtain ⟨keys, hkeys, hbefore⟩ := exists_keys_of_exec_sortf hfits h
  obtain ⟨m, blockB, blockA, hnext, hperm, hheld, topB, topA, hB, hA, -⟩ :=
    (sortfSortsInFloatOrder.2 s).2.1 keys hfits hkeys hbefore
  cases h.symm.trans hnext
  rw [hold.unique hheld (hlen.trans (hkeys.symm.trans hperm.length_eq.symm))]
  exact floatRank_ascending_blocks hA hB topA topB

/-- Settles O55: -0.0 and +0.0 are the keys of the adjacent ranks -1 and 0, and ranks below 0 are those of the
keys with sign bit 1. -/
theorem zeroAndNanOrderAfterSortf : Obligations.ZeroAndNanOrderAfterSortf := by
  intro s t after hexec herr hlen hold
  have hasc := floatRank_ascending_of_exec_sortf hexec herr hlen hold
  refine ⟨fun hminus hplus => ?zeros, fun i j hi hj hij => ?signs⟩
  case zeros =>
    have hneg : ∃ key ∈ after, floatRank key = -1 := ⟨_, hminus, floatRank_eq_neg_one_iff.mpr rfl⟩
    have hzero : ∃ key ∈ after, floatRank key = -1 + 1 := ⟨_, hplus, floatRank_eq_zero_iff.mpr rfl⟩
    simp only [← floatRank_eq_neg_one_iff, ← floatRank_eq_zero_iff, ne_eq]
    exact ⟨exists_adjacent_ranks hasc hneg hzero, fun i hi => rank_after hasc hzero hi,
      fun i hi => rank_before hasc hneg hi⟩
  case signs =>
    have hle := rank_mono hasc hij.le hj
    refine ⟨fun htop => (floatRank_neg_iff _).mp (hle.trans_lt ((floatRank_neg_iff _).mpr htop)),
      fun htop htop' => ?_, fun htop htop' => ?_⟩
    · rw [floatRank_of_top htop, floatRank_of_top htop'] at hle
      omega
    · rw [floatRank_of_not_top htop, floatRank_of_not_top htop'] at hle
      omega

/-- SORTI and SORTF on written keys end with the scratch bank and COUNT of a WSORT on the same state, by O53 and
O54. -/
theorem exec_compositeSort_scratch {s : State} {keys : List Key} {i : Instr} (hi : i = .sorti ∨ i = .sortf)
    (hfits : ¬ s.nMax < s.n) (hlen : keys.length = s.n.toNat) (hold : s.mem.Holds .b0 keys) :
    ∃ t u, exec i s = .next t ∧ exec .wsort s = .next u ∧ t.mem.bank1 = u.mem.bank1 ∧
      t.mem.count = u.mem.count := by
  obtain rfl | rfl := hi
  · obtain ⟨_, _, _, hexec, -, -, -, -, -, -, -, -, -, u, hwsort, hscratch⟩ :=
      (sortiSortsSigned.2 s).2.1 keys hfits hlen hold
    exact ⟨_, u, hexec, hwsort, hscratch⟩
  · obtain ⟨_, _, _, hexec, -, -, -, -, -, -, -, -, u, hwsort, hscratch⟩ :=
      (sortfSortsInFloatOrder.2 s).2.1 keys hfits hlen hold
    exact ⟨_, u, hexec, hwsort, hscratch⟩

/-- Settles O57: with N above the capacity all three change STATUS only; else WSORT has found N written keys, on
which SORTI and SORTF leave its scratch bank and COUNT (`exec_compositeSort_scratch`). -/
theorem compositeSortsLeaveWsortScratch : Obligations.CompositeSortsLeaveWsortScratch := by
  intro s t u i hi hwsort hexec
  by_cases hexceeds : s.nMax < s.n
  · have hcapacity : exec i s = .next (s.finish .capacity) := by
      obtain rfl | rfl := hi <;>
        exact exec_of_commandChecks_some rfl (commandChecks_of_lt rfl (by simp) hexceeds)
    cases hwsort.symm.trans (exec_wsort_of_exceeds hexceeds)
    cases hexec.symm.trans hcapacity
    exact ⟨rfl, rfl⟩
  · obtain ⟨keys, hlen, hold⟩ := exists_keys_of_exec_wsort hexceeds hwsort
    obtain ⟨_, _, hexec', hwsort', hscratch⟩ :=
      exec_compositeSort_scratch hi hexceeds hlen hold
    cases hexec.symm.trans hexec'
    cases hwsort.symm.trans hwsort'
    exact hscratch

/-- Settles O58: the bodies of SORTI and SORTF are those of the programs' commands one after the other
(`sortiBody_eq_ok`, `sortfBody_eq_ok`), and the programs give ROT and REV the operands that the composite sorts
keep inside (`rotProgram_next`, `revProgram_next`). -/
theorem compositeSortsEqualTheirHostPrograms : Obligations.CompositeSortsEqualTheirHostPrograms := by
  intro s keys hfits hlen hold
  obtain ⟨m', -, blockA, -, hsortf, -⟩ := sortfBody_sorts hlen hold
  obtain ⟨signed, hsorti, hreverse⟩ := sortfBody_eq_ok.mp hsortf
  obtain ⟨sorted, hwsort, hscan, hrotate⟩ := sortiBody_eq_ok.mp hsorti
  generalize BitVec.ofNat 32 blockA.length = r at *
  have hle : r ≤ s.n := scan_ok_le hscan
  have hchecks := checkCapacity_none.mpr hfits
  have hsign := signbProgram_next hfits hwsort hscan
  have hrot := rotProgram_next (s := State.finish { s with mem := sorted, result := r } .none) (f := 0#32) rfl
    hfits (BitVec.le_def.mpr (Nat.zero_le _)) hle (BitVec.le_refl _) hrotate
  have hborder : (s.n - r).toNat = s.n.toNat - r.toNat := BitVec.toNat_sub_of_le hle
  have hrev := revProgram_next (b := .b0) (m := m')
    (s := State.finish { s with mem := signed, result := r, fromReg := 0#32, mid := r, toReg := s.n } .none)
    (f := 0#32) (t := s.n - r) rfl hfits (BitVec.le_def.mpr (Nat.zero_le _))
    (by rw [BitVec.le_def, hborder]; exact Nat.sub_le _ _) (by rwa [hborder])
  exact ⟨_, _, _, _, _, hsign, hrot, hrev, exec_of_commandBody_ok rfl hchecks hsorti, rfl, rfl,
    exec_of_commandBody_ok rfl hchecks hsortf, rfl, rfl, rfl, rfl, rfl, rfl, rfl, rfl, rfl, rfl, rfl, rfl, rfl,
    rfl⟩

end Sys2Proof.Machine
end

section
/-! PROOFS, family 60_exceptions.md: what each outcome of a command's checks says of the command and its
operands, and with it the cause of every error code. -/

namespace Sys2Proof.Machine

/-! ### The causes of the checks' codes (R121, R122, R220) -/

/-- Where the check of N comes first, either it gives the code, or N fits and the later check gives it. -/
theorem checkCapacity_or_eq_some {s : State} {later : Option ErrCode} {code : ErrCode} :
    (checkCapacity s).or later = some code ↔
      (s.nMax < s.n ∧ code = .capacity) ∨ (¬ s.nMax < s.n ∧ later = some code) := by
  rw [or_eq_some, checkCapacity_some, checkCapacity_none]

/-- The code of a command's checks tells which check failed, on which commands. -/
theorem commandChecks_some_cause {i : Instr} {s : State} {code : ErrCode} (h : commandChecks i s = some code) :
    (code = .capacity ∧ s.nMax < s.n ∧ i ≠ .nop ∧ i ≠ .clr ∧ i ≠ .offs) ∨
    (code = .bankConflict ∧ ¬ s.nMax < s.n ∧ ∃ k b, i = .scat k b b ∨ i = .pass k b b) ∨
    (code = .range ∧ ¬ s.nMax < s.n ∧
      ((∃ b, i = .rev b ∧ ¬(s.fromReg ≤ s.toReg ∧ s.toReg ≤ s.n)) ∨
        ∃ b, i = .rot b ∧ ¬(s.fromReg ≤ s.mid ∧ s.mid ≤ s.toReg ∧ s.toReg ≤ s.n))) := by
  cases i with
  | nop | clr | offs | hwr _ _ | hrd _ => cases h
  | hist _ _ | wsort | signb _ | sorti | sortf =>
    obtain ⟨hlt, rfl⟩ := checkCapacity_some.mp h
    exact .inl ⟨rfl, hlt, by simp⟩
  | scat k sb db | pass k sb db =>
    obtain ⟨hlt, rfl⟩ | ⟨hfits, hbanks⟩ := checkCapacity_or_eq_some.mp h
    · exact .inl ⟨rfl, hlt, by simp⟩
    · obtain ⟨rfl, rfl⟩ := checkBanks_some.mp hbanks
      exact .inr (.inl ⟨rfl, hfits, k, sb, by simp⟩)
  | rev b =>
    obtain ⟨hlt, rfl⟩ | ⟨hfits, hrange⟩ := checkCapacity_or_eq_some.mp h
    · exact .inl ⟨rfl, hlt, by simp⟩
    · obtain ⟨hbreak, rfl⟩ := checkRevRange_some.mp hrange
      exact .inr (.inr ⟨rfl, hfits, .inl ⟨b, rfl, hbreak⟩⟩)
  | rot b =>
    obtain ⟨hlt, rfl⟩ | ⟨hfits, hrange⟩ := checkCapacity_or_eq_some.mp h
    · exact .inl ⟨rfl, hlt, by simp⟩
    · obtain ⟨hbreak, rfl⟩ := checkRotRange_some.mp hrange
      exact .inr (.inr ⟨rfl, hfits, .inr ⟨b, rfl, hbreak⟩⟩)

/-- A command whose checks pass has no cause of CAPACITY, BANK_CONFLICT or RANGE. -/
theorem no_cause_of_commandChecks_none {i : Instr} {s : State} (hi : i.isCommand = true)
    (h : commandChecks i s = none) :
    (¬ s.nMax < s.n ∨ i ∈ [.nop, .clr, .offs]) ∧
    (∀ k b, i ≠ .scat k b b ∧ i ≠ .pass k b b) ∧
    (∀ b, i = .rev b → s.fromReg ≤ s.toReg ∧ s.toReg ≤ s.n) ∧
    ∀ b, i = .rot b → s.fromReg ≤ s.mid ∧ s.mid ≤ s.toReg ∧ s.toReg ≤ s.n := by
  refine ⟨?capacity, fun k b => ⟨?scat, ?pass⟩, ?rev, ?rot⟩
  case capacity =>
    by_contra hcause
    obtain ⟨hlt, hreads⟩ := not_or.mp hcause
    simp only [List.mem_cons, List.not_mem_nil, or_false, not_or] at hreads
    cases h.symm.trans (commandChecks_of_lt hi hreads (not_not.mp hlt))
  case scat | pass =>
    rintro rfl
    exact checkBanks_none.mp (Option.or_eq_none_iff.mp h).2 rfl
  case rev =>
    rintro b rfl
    exact checkRevRange_none.mp (Option.or_eq_none_iff.mp h).2
  case rot =>
    rintro b rfl
    exact checkRotRange_none.mp (Option.or_eq_none_iff.mp h).2

/-- The codes 6 to 15 are not in use (R220). -/
theorem ErrCode.toBits_le (code : ErrCode) : code.toBits.toNat ≤ 5 := by
  cases code <;> decide

/-! ### The obligation -/

/-- Settles O27: a command ends in one of three ways (`runCommand_next`). The code of a failed check has that
check's cause (`commandChecks_some_cause`), success has none (`no_cause_of_commandChecks_none`), and only SCAT's
body raises an error, at the offset that `commandBody_cases` gives. -/
theorem errorCodesHaveTheirCauses : Obligations.ErrorCodesHaveTheirCauses := by
  refine ⟨fun s e hbusy hturn he => ⟨_, step_illegal ⟨e, he⟩ hbusy hturn, rfl, rfl⟩, fun s t i hi h => ?_⟩
  rw [exec_command hi] at h
  obtain ⟨code, hchecks, rfl⟩ | ⟨m, r, hchecks, -, rfl⟩ | ⟨code, m, hchecks, hbody, rfl⟩ := runCommand_next h <;>
    refine ⟨rfl, rfl, rfl, rfl, rfl, rfl, rfl, ErrCode.toBits_le _, ?_⟩
  · obtain ⟨rfl, hcause⟩ | ⟨rfl, hcause⟩ | ⟨rfl, hcause⟩ := commandChecks_some_cause hchecks <;> exact hcause
  · exact no_cause_of_commandChecks_none hi hchecks
  · obtain ⟨_, _, hb, -⟩ | ⟨k, sb, db, m', j, key, p, hscat, hne, hfits, hb, -, hcause⟩ | ⟨_, _, -, hb⟩ |
      ⟨_, -, hb⟩ := commandBody_cases hchecks <;> cases hb.symm.trans hbody
    exact ⟨hfits, k, sb, db, hscat, hne, j, key, p, hcause⟩

end Sys2Proof.Machine
end

section
/-! PROOFS, family other: decoding gives back what was encoded, how a command ends and what it leaves unchanged, what
each instruction does to STATUS, the invariant, how a step goes on and where it stops, OFFS as the loop of its
pseudocode, and the order of SORTF as an order of binary64 values. -/

namespace Sys2Proof.Machine

/-! ### Decoding and encoding (R94, R96, R97) -/

/-- The fields of a transaction word are the parts it is put together from (R96). -/
theorem decodeTransaction_append (w : BitVec 1) (addr : RegAddr) (data : Data) :
    decodeTransaction (w ++ addr ++ data) = if w = 1#1 then .hwr addr data else .hrd addr := by
  have hw : (w ++ addr ++ data).extractLsb' 72 1 = w := by
    rw [BitVec.extractLsb'_append_eq_of_le (by decide)]
    exact BitVec.extractLsb'_append_eq_left
  have haddr : (w ++ addr ++ data).extractLsb' 64 8 = addr := by
    rw [BitVec.extractLsb'_append_eq_of_le (by decide)]
    exact BitVec.extractLsb'_append_eq_right
  have hdata : (w ++ addr ++ data).extractLsb' 0 64 = data := BitVec.extractLsb'_append_eq_right
  rw [decodeTransaction, hw, haddr, hdata]

/-- A value of CMD decodes to commands only. -/
theorem isCommand_of_decodeCommand_ok {v : Data} {i : Instr} (h : decodeCommand v = .ok i) :
    i.isCommand = true := by
  have hencode := encode_of_decodeCommand_ok h
  cases i with
  | hwr addr data | hrd addr => cases hencode
  | _ => rfl

/-- The rows of R94's table have different opcodes. -/
theorem opcodeMap_opcodes_distinct : opcodeMap.Pairwise fun r r' => rowOpcode r ≠ rowOpcode r' := by
  decide

/-- A row that selects a command word has the word's opcode. -/
theorem rowOpcode_of_selects {r : Row} (hr : r ∈ opcodeMap) {cw : CmdWord} (h : r.selects cw = true) :
    rowOpcode r = cw.extractLsb' 0 8 := by
  obtain ⟨v, rfl⟩ : ∃ v : Data, cw = v.extractLsb' 0 32 := ⟨cw.setWidth 64, (low32_setWidth cw).symm⟩
  obtain ⟨hopcode, -⟩ := (row_selects_iff hr v).mp h
  simp [hopcode]

/-- Settles O2: a transaction's fields are cut out where they were put in (`decodeTransaction_append`), and a command's
word decodes to it (`decodeCommand_of_encode`). -/
theorem decodeOfEncodeIsTheInstruction : Obligations.DecodeOfEncodeIsTheInstruction := by
  intro i
  cases i with
  | hwr addr data => exact congrArg Except.ok (decodeTransaction_append 1#1 addr data)
  | hrd addr => exact congrArg Except.ok (decodeTransaction_append 0#1 addr 0#64)
  | _ => exact decodeCommand_of_encode rfl

/-- Settles O3: what a value decodes to is encoded as the value, and the other way round. -/
theorem eachCommandHasOneWord : Obligations.EachCommandHasOneWord :=
  fun _ _ => ⟨encode_of_decodeCommand_ok, decodeCommand_of_encode⟩

/-- Settles O4: a row that selects a word has its opcode, and no two rows share an opcode. -/
theorem atMostOneRowSelectsAWord : Obligations.AtMostOneRowSelectsAWord := by
  refine fun cw => opcodeMap_opcodes_distinct.imp_of_mem ?_
  rintro r r' hr hr' hne ⟨h, h'⟩
  exact hne ((rowOpcode_of_selects hr h).trans (rowOpcode_of_selects hr' h').symm)

/-- Settles O1: each listed value is what its instruction is encoded as. -/
theorem listedWordsDecodeToTheirCommands : Obligations.ListedWordsDecodeToTheirCommands := by
  refine ⟨?_, ?_, ?_, ?_, ?_, ?_, ?_, ?_, ?_, ?_, ?_, ?_, ?_, ?hwr, ?hrd⟩
  case hwr => exact decodeTransaction_append 1#1 0x04#8 5#64
  case hrd => exact decodeTransaction_append 0#1 0x0B#8 0#64
  all_goals exact decodeCommand_of_encode rfl

/-! ### How a command ends -/

/-- How a command that goes on has ended: a check failed and nothing but STATUS changed; its body ran to the end;
or the body of SCAT met an offset out of bounds. A body has written storage below N, and RESULT in SIGNB, SORTI and
SORTF only. -/
theorem command_next_cases {i : Instr} {s t : State} (hi : i.isCommand = true) (h : exec i s = .next t) :
    (∃ code, commandChecks i s = some code ∧ t = s.finish code) ∨
    (∃ m r, commandChecks i s = none ∧ commandBody i s = .ok (m, r) ∧ Memory.Within s.n.toNat s.mem m ∧
      (r = s.result ∨ (r.toNat ≤ s.n.toNat ∧ ¬ s.nMax < s.n ∧
        (i = .sorti ∨ i = .sortf ∨ ∃ b, i = .signb b))) ∧
      (i ∈ [.sorti, .sortf, .signb .b0, .signb .b1] → r.toNat ≤ s.n.toNat) ∧
      t = State.finish { s with mem := m, result := r } .none) ∨
    (∃ k sb db m, i = .scat k sb db ∧ ¬ s.nMax < s.n ∧ Memory.Within s.n.toNat s.mem m ∧
      t = State.finish { s with mem := m } .scatterBounds) := by
  rw [exec_command hi] at h
  obtain ⟨code, hchecks, ht⟩ | ⟨m, r, hchecks, hbody, ht⟩ | ⟨code, m, hchecks, hbody, ht⟩ := runCommand_next h
  · exact .inl ⟨code, hchecks, ht⟩
  all_goals
    obtain ⟨_, _, hb, hwithin, hresult, hboundary⟩ |
      ⟨k, sb, db, _, _, _, _, hscat, -, hfits, hb, hwithin, -⟩ | ⟨_, _, -, hb⟩ | ⟨_, -, hb⟩ :=
      commandBody_cases hchecks <;> cases hb.symm.trans hbody
  · exact .inr (.inl ⟨m, r, hchecks, hbody, hwithin, hresult, hboundary, ht⟩)
  · exact .inr (.inr ⟨k, sb, db, m, hscat, hfits, hwithin, ht⟩)

/-- A check that fails gives an error. -/
theorem commandChecks_ne_success (i : Instr) (s : State) : commandChecks i s ≠ some .none := by
  intro h
  obtain ⟨hcode, -⟩ | ⟨hcode, -⟩ | ⟨hcode, -⟩ := commandChecks_some_cause h <;> cases hcode

/-- Settles O29: every way a command ends is a `finish` of a state that differs in storage and RESULT alone
(`command_next_cases`), and a failed check never gives success (`commandChecks_ne_success`). -/
theorem commandsWriteOnlyStorageResultAndStatus : Obligations.CommandsWriteOnlyStorageResultAndStatus := by
  intro i s t hi h
  obtain ⟨code, hchecks, rfl⟩ | ⟨m, r, -, -, -, hresult, hboundary, rfl⟩ | ⟨k, sb, db, m, rfl, -, -, rfl⟩ :=
    command_next_cases hi h <;>
    refine ⟨rfl, rfl, rfl, rfl, rfl, rfl, rfl, rfl, rfl, rfl, rfl, rfl, rfl, rfl, rfl, ?_⟩
  · -- a check has failed
    refine ⟨fun _ => rfl, fun hne => absurd rfl hne, fun _ herr => ?_⟩
    obtain rfl : code = .none := herr
    exact absurd hchecks (commandChecks_ne_success i s)
  · -- the body has run to the end
    refine ⟨fun herr => absurd rfl herr, fun hne => ?_, fun hmem _ => hboundary hmem⟩
    obtain ⟨-, -, hwriter⟩ := hresult.resolve_left hne
    exact hwriter
  · -- SCATTER_BOUNDS
    exact ⟨fun _ => rfl, fun hne => absurd rfl hne, fun _ herr => by cases herr⟩

/-! ### Where REV and ROT write (R180, R183) -/

section
variable {b : BankId} {f p t : Nat} {m m' : Memory}

theorem changesOnlyRange_of_reverseRange_ok (h : reverseRange b f t m = .ok m') :
    ChangesOnlyRange b f t m m' := by
  obtain ⟨_, hok, -, hcount, hother, -⟩ | ⟨_, -, -, -, -, hfault⟩ := reverseRange_cases b f t m
  · cases hok.symm.trans h
    refine ⟨fun i hi => ?_, hother, hcount⟩
    rw [readKey_of_reverseRange_ok h, reverseSource_of_outside hi]
  · cases hfault.symm.trans h

theorem changesOnlyRange_of_rotateRange_ok (hfp : f ≤ p) (hpt : p ≤ t) (h : rotateRange b f p t m = .ok m') :
    ChangesOnlyRange b f t m m' := by
  obtain ⟨_, hok, -, hcount, hother, -⟩ | ⟨_, -, -, hfault⟩ := rotateRange_cases b hfp hpt m
  · cases hok.symm.trans h
    refine ⟨fun i hi => ?_, hother, hcount⟩
    rw [readKey_of_rotateRange_ok hfp hpt h, rotateSource_of_outside hfp hpt hi]
  · cases hfault.symm.trans h

/-- Outside the range the words of both banks are unchanged. -/
theorem ChangesOnlyRange.readKey (h : ChangesOnlyRange b f t m m') (b' : BankId) {j : Nat} (hj : j < f ∨ t ≤ j) :
    m'.readKey b' j = m.readKey b' j := by
  obtain rfl | rfl : b' = b ∨ b' = b.other := by cases b <;> cases b' <;> simp [BankId.other]
  · exact h.outside j hj
  · exact Memory.readKey_congr h.otherBank j

end

theorem changesOnlyRange_of_commandBody {i : Instr} {b : BankId} {s : State} {m : Memory} {r : Idx}
    (hi : i = .rev b ∨ i = .rot b) (hchecks : commandChecks i s = none) (h : commandBody i s = .ok (m, r)) :
    ChangesOnlyRange b s.fromReg.toNat s.toReg.toNat s.mem m := by
  obtain rfl | rfl := hi
  · obtain ⟨_, hok, hkeep⟩ := Run.andThen_eq_ok.mp h
    cases hkeep
    exact changesOnlyRange_of_reverseRange_ok hok
  · obtain ⟨-, hfp, hpt, -⟩ := rotChecks_eq_none.mp hchecks
    obtain ⟨_, hok, hkeep⟩ := Run.andThen_eq_ok.mp h
    cases hkeep
    exact changesOnlyRange_of_rotateRange_ok (BitVec.le_def.mp hfp) (BitVec.le_def.mp hpt) hok

/-- Settles O32: a body writes below N (`command_next_cases`), those of REV and ROT in their range
(`changesOnlyRange_of_commandBody`), and the only error after a write is SCATTER_BOUNDS. -/
theorem commandsChangeOnlyWordsBelowN : Obligations.CommandsChangeOnlyWordsBelowN := by
  intro i s t hi h
  obtain ⟨code, -, rfl⟩ | ⟨m, r, hchecks, hbody, hwithin, -, -, rfl⟩ | ⟨k, sb, db, m, rfl, -, hwithin, rfl⟩ :=
    command_next_cases hi h
  · exact ⟨fun _ _ _ => rfl, fun _ _ _ _ _ => rfl, fun _ _ => rfl⟩
  · exact ⟨hwithin.above,
      fun b hrange b' j => (changesOnlyRange_of_commandBody hrange hchecks hbody).readKey b',
      fun herr => absurd rfl herr⟩
  · refine ⟨hwithin.above, fun b hrange => ?_, fun _ hbounds => absurd rfl hbounds⟩
    obtain hrange | hrange := hrange <;> cases hrange

/-! ### What a command does not read (R74) -/

/-- The checks of a command do not look at storage. -/
theorem commandChecks_with_mem (i : Instr) (s : State) (m : Memory) :
    commandChecks i { s with mem := m } = commandChecks i s := by
  cases i <;> rfl

/-- Bodies that end alike make a command end alike. -/
theorem runCommand_agree {s : State} {m : Memory} {body body' : Run (Memory × Idx)} (n : Nat)
    (hbody : Run.Agree n (fun w w' => Memory.AgreesBelow n w.1 w'.1 ∧ w.2 = w'.2) body body') :
    (∀ t, s.runCommand none body = .next t →
      ∃ m', State.runCommand { s with mem := m } none body' = .next { t with mem := m' } ∧
        Memory.AgreesBelow n t.mem m') ∧
    (∀ f, s.runCommand none body = .fault f → State.runCommand { s with mem := m } none body' = .fault f) := by
  match body, body', hbody with
  | .ok (m₁, r), .ok (m₂, _), ⟨hagree, rfl⟩ =>
    refine ⟨fun t h => ?_, fun f h => ?_⟩ <;> cases h
    exact ⟨m₂, rfl, hagree⟩
  | .raised code m₁, .raised _ m₂, ⟨rfl, hagree⟩ =>
    refine ⟨fun t h => ?_, fun f h => ?_⟩ <;> cases h
    exact ⟨m₂, rfl, hagree⟩
  | .fault e, .fault _, rfl =>
    refine ⟨fun t h => ?_, fun f h => ?_⟩ <;> cases h
    rfl

/-- Settles O33: the checks do not look at storage, and on storages that agree below N the bodies end alike
(`commandBody_agree`). -/
theorem commandsDoNotReadWordsFromN : Obligations.CommandsDoNotReadWordsFromN := by
  intro i s m hi hagree
  rw [exec_command hi, exec_command hi, commandChecks_with_mem i s m]
  cases hchecks : commandChecks i s with
  | some code =>
    refine ⟨fun t h => ?_, fun f h => ?_⟩ <;> cases h
    exact ⟨m, rfl, hagree⟩
  | none => exact runCommand_agree _ (commandBody_agree hchecks hagree)

/-! ### Where a host transaction stops (R22, R61) -/

/-- Settles O12: a host write has a next state (`exec_hwr`), and the two faults are those among the cases of a read
(`exec_hrd_cases`). -/
theorem hostTransactionsComplete : Obligations.HostTransactionsComplete := by
  refine ⟨fun addr data s => ⟨_, exec_hwr addr data s⟩, fun addr s => ?_⟩
  obtain ⟨-, -, v, he⟩ | ⟨-, -, he⟩ | ⟨-, -, -, key, -, he⟩ | hkey | ⟨-, -, -, he⟩ | ⟨-, -, v, -, he⟩ | hcount :=
    exec_hrd_cases addr s
  · exact .inl ⟨_, he⟩
  · exact .inl ⟨_, he⟩
  · exact .inl ⟨_, he⟩
  · exact .inr (.inl hkey)
  · exact .inl ⟨_, he⟩
  · exact .inl ⟨_, he⟩
  · exact .inr (.inr hcount)

/-! ### What each instruction does to STATUS (R29) -/

theorem mem_refusedWrites_iff (addr : RegAddr) : addr ∈ refusedWrites ↔
    regAt addr ∉ [Reg.caps, .ctrl, .status, .result, .reserved] := by
  revert addr
  decide

/-- A write that is not on R64's list can acknowledge or reset, and does nothing else to STATUS. -/
theorem hostWrite_status_of_unrefused {addr : RegAddr} (haddr : addr ∉ refusedWrites) (data : Data)
    (s : State) :
    (hostWrite addr data s).status = s.status ∨
    (addr = 0x02#8 ∧ (hostWrite addr data s).status = s.status.acknowledged data) ∨
    (addr = 0x01#8 ∧ data.getLsbD 1 = true ∧ (hostWrite addr data s).status = .zero) := by
  obtain ⟨-, ctrl_iff, status_iff, -⟩ := regAt_eq_iff addr
  rw [mem_refusedWrites_iff, not_not] at haddr
  unfold hostWrite
  cases hreg : regAt addr with
  | caps | result | reserved => exact .inl rfl
  | status => exact .inr (.inl ⟨status_iff.mp hreg, rfl⟩)
  | ctrl =>
    cases hsrst : data.getLsbD 1 with
    | true => exact .inr (.inr ⟨ctrl_iff.mp hreg, rfl, congrArg State.status (writeCtrl_srst hsrst s)⟩)
    | false => exact .inl (by simp only [writeCtrl_ie hsrst])
  | _ => exact absurd haddr (hreg ▸ by decide)

/-- The accesses that are refused while the engine is busy (R64). -/
def RefusedAccess (i : Instr) : Prop :=
  (∃ addr, i = .hrd addr ∧ addr ∈ [0x0B#8, 0x0D#8]) ∨ ∃ addr data, i = .hwr addr data ∧ addr ∈ refusedWrites

/-- A KDATA access (R38). -/
def KdataAccess (i : Instr) : Prop := i = .hrd 0x0B#8 ∨ ∃ data, i = .hwr 0x0B#8 data

/-- What an instruction can do to STATUS: a command finishes; a host transaction leaves it, is refused while busy,
finds KADDR out of range while idle, acknowledges, resets, or issues a command while idle. -/
theorem exec_status_cases {i : Instr} {s t : State} (h : exec i s = .next t) :
    (i.isCommand = true ∧ ∃ code, t.status = s.status.finished code) ∨
    (i.isCommand = false ∧ t.status = s.status) ∨
    (RefusedAccess i ∧ s.status.busy = true ∧ t.status = s.status.refusing) ∨
    (KdataAccess i ∧ s.status.busy = false ∧ s.nMax ≤ s.kaddr ∧ t.status = s.status.keyError) ∨
    (∃ data, i = .hwr 0x02#8 data ∧ t.status = s.status.acknowledged data) ∨
    (∃ data, i = .hwr 0x01#8 data ∧ data.getLsbD 1 = true ∧ t.status = .zero) ∨
    (∃ v, i = .hwr 0x03#8 v ∧ s.status.busy = false ∧ t.status = s.status.issued) := by
  cases hi : i.isCommand with
  | true =>
    obtain ⟨m, r, code, rfl⟩ := command_next hi h
    exact .inl ⟨rfl, code, rfl⟩
  | false =>
    cases i with
    | hrd addr =>
      obtain hst | ⟨haddr, hbusy, hst⟩ | ⟨rfl, hidle, hout, hst⟩ := hrd_status_cases h
      · exact .inr (.inl ⟨rfl, hst⟩)
      · exact .inr (.inr (.inl ⟨.inl ⟨addr, rfl, by simpa using haddr⟩, hbusy, hst⟩))
      · exact .inr (.inr (.inr (.inl ⟨.inl rfl, hidle, BitVec.not_lt.mp hout, hst⟩)))
    | hwr addr data =>
      cases (exec_hwr addr data s).symm.trans h
      by_cases haddr : addr ∈ refusedWrites
      · cases hbusy : s.status.busy with
        | true =>
          exact .inr (.inr (.inl ⟨.inr ⟨addr, data, rfl, haddr⟩, rfl,
            congrArg State.status (hostWrite_refused hbusy haddr data)⟩))
        | false =>
          obtain hst | ⟨hbusy', -⟩ | ⟨rfl, -, hout, hst⟩ | ⟨rfl, -⟩ | ⟨rfl, -⟩ | ⟨rfl, -, hst⟩ :=
            hostWrite_status_cases addr data s
          · exact .inr (.inl ⟨rfl, hst⟩)
          · cases hbusy.symm.trans hbusy'
          · exact .inr (.inr (.inr (.inl ⟨.inr ⟨data, rfl⟩, rfl, BitVec.not_lt.mp hout, hst⟩)))
          · exact absurd haddr (by decide)
          · exact absurd haddr (by decide)
          · exact .inr (.inr (.inr (.inr (.inr (.inr ⟨data, rfl, rfl, hst⟩)))))
      · obtain hst | ⟨rfl, hst⟩ | ⟨rfl, hsrst, hst⟩ := hostWrite_status_of_unrefused haddr data s
        · exact .inr (.inl ⟨rfl, hst⟩)
        · exact .inr (.inr (.inr (.inr (.inl ⟨data, rfl, hst⟩))))
        · exact .inr (.inr (.inr (.inr (.inr (.inl ⟨data, rfl, hsrst, hst⟩)))))
    | _ => cases hi

/-- Settles O18: of the seven things an instruction can do to STATUS (`exec_status_cases`), each changes the bits that
its row of R29 names. -/
theorem statusBitsChangeOnlyAtTheirEvents : Obligations.StatusBitsChangeOnlyAtTheirEvents := by
  intro i s t h
  obtain ⟨hi, code, hst⟩ | ⟨-, hst⟩ | ⟨hrefused, hbusy, hst⟩ | ⟨haccess, hidle, hout, hst⟩ | ⟨data, rfl, hst⟩ |
    ⟨data, rfl, hsrst, hst⟩ | ⟨v, rfl, hidle, hst⟩ := exec_status_cases h <;> rw [hst]
  · -- a completion
    simp +contextual [hi]
  · -- an access without effect on STATUS
    simp +contextual
  · -- a refused access
    refine ⟨?_, ?_, ?_, ?_, fun _ _ => ⟨hbusy, hrefused⟩, ?_, ?_, ?_, ?_⟩ <;> simp +contextual
  · -- KADDR out of range
    refine ⟨?_, ?_, ?_, ?_, ?_, ?_, fun _ _ => ⟨hidle, hout, haccess⟩, ?_, ?_⟩ <;> simp +contextual
  · -- an acknowledgement
    simp +contextual
  · -- a soft reset
    simp +contextual [hsrst, Status.zero]
  · -- an issue
    simp +contextual [hidle]

/-! ### The invariant (R9, R20, R35, R62, R120) -/

/-- An event that writes storage inside the key space keeps the invariant, if it leaves RESULT in range and DONE and ERR
clear while busy. -/
theorem State.Inv.of_within {s t : State} (hinv : s.Inv) (hcapacity : t.nMax = s.nMax)
    (hwithin : Memory.Within s.nMax.toNat s.mem t.mem) (hresult : t.result.toNat ≤ s.nMax.toNat)
    (hclear : t.status.busy = true → t.status.done = false ∧ t.status.err = .none) : t.Inv where
  capacity := hcapacity ▸ hinv.capacity
  canonical := hwithin.wf hinv.canonical
  inSpace b entry hentry := by
    rw [hcapacity]
    exact (hwithin.entries b entry hentry).elim (hinv.inSpace b entry) id
  busyClear := hclear
  resultInRange := by
    rw [hcapacity]
    exact hresult

/-- The invariant speaks of the capacity, the storage, RESULT and BUSY, DONE and ERR alone. -/
theorem State.Inv.congr {s t : State} (hinv : s.Inv) (hcapacity : t.nMax = s.nMax) (hmem : t.mem = s.mem)
    (hresult : t.result = s.result)
    (hclear : t.status.busy = true → t.status.done = false ∧ t.status.err = .none) : t.Inv :=
  hinv.of_within hcapacity (hmem ▸ .refl _ _) (hresult ▸ hinv.resultInRange) hclear

theorem powerOn_inv {nMax : Idx} (h : 1 ≤ nMax.toNat) : (State.powerOn nMax).Inv where
  capacity := h
  canonical := Memory.unwritten_wf
  inSpace b entry hentry := by cases b <;> cases hentry
  busyClear hbusy := by cases hbusy
  resultInRange := Nat.zero_le _

theorem takeTurn_inv {s : State} (hinv : s.Inv) : s.takeTurn.Inv :=
  hinv.congr rfl rfl rfl hinv.busyClear

theorem finish_inv {s : State} (hinv : s.Inv) (code : ErrCode) : (s.finish code).Inv :=
  hinv.congr rfl rfl rfl fun hbusy => by cases hbusy

theorem powerOnReset_inv {s : State} (hinv : s.Inv) : s.powerOnReset.Inv :=
  (powerOn_inv hinv.capacity).congr rfl rfl rfl fun hbusy => by cases hbusy

/-- A soft reset of a busy block discards all storage (R253). -/
theorem softReset_of_busy {s : State} (h : s.status.busy = true) : s.softReset = s.powerOnReset := by
  rw [State.softReset, h]
  rfl

/-- A soft reset of an idle block keeps it (R252). -/
theorem softReset_of_idle {s : State} (h : s.status.busy = false) :
    s.softReset = { s.powerOnReset with mem := s.mem } := by
  rw [State.softReset, h]
  rfl

theorem softReset_inv {s : State} (hinv : s.Inv) : s.softReset.Inv := by
  cases hbusy : s.status.busy with
  | true =>
    rw [softReset_of_busy hbusy]
    exact powerOnReset_inv hinv
  | false =>
    rw [softReset_of_idle hbusy]
    exact hinv.of_within rfl (.refl _ _) (Nat.zero_le _) fun hbusy => by cases hbusy

theorem within_capacity {s : State} {m : Memory} (hfits : ¬ s.nMax < s.n)
    (hwithin : Memory.Within s.n.toNat s.mem m) : Memory.Within s.nMax.toNat s.mem m :=
  hwithin.mono (BitVec.le_def.mp (BitVec.not_lt.mp hfits))

/-- The body of a command stays inside the key space: N fits, or the command reads no N and leaves the banks
(`commandBody_banks`). -/
theorem commandBody_within_capacity {i : Instr} {s : State} {m : Memory} {r : Idx}
    (hchecks : commandChecks i s = none) (hbody : commandBody i s = .ok (m, r))
    (hwithin : Memory.Within s.n.toNat s.mem m) : Memory.Within s.nMax.toNat s.mem m := by
  by_cases hexceeds : s.nMax < s.n
  · have hbanks := commandBody_banks hchecks hexceeds hbody
    exact { hwithin with
      entries := fun b entry hentry => .inl (hbanks b ▸ hentry)
      above := fun b i _ => Memory.readKey_congr (hbanks b) i }
  · exact within_capacity hexceeds hwithin

theorem command_inv {i : Instr} {s t : State} (hinv : s.Inv) (hi : i.isCommand = true)
    (h : exec i s = .next t) : t.Inv := by
  obtain ⟨code, -, rfl⟩ | ⟨m, r, hchecks, hbody, hwithin, hr, -, rfl⟩ | ⟨_, _, _, m, -, hfits, hwithin, rfl⟩ :=
    command_next_cases hi h
  · exact finish_inv hinv code
  · refine hinv.of_within rfl (commandBody_within_capacity hchecks hbody hwithin) ?_ fun hbusy => by cases hbusy
    obtain rfl | ⟨hle, hfits, -⟩ := hr
    · exact hinv.resultInRange
    · exact hle.trans (BitVec.le_def.mp (BitVec.not_lt.mp hfits))
  · exact hinv.of_within rfl (within_capacity hfits hwithin) hinv.resultInRange fun hbusy => by cases hbusy

theorem writeUnlessBusy_inv {s accepted : State} (hinv : s.Inv) (haccept : accepted.Inv) :
    (s.writeUnlessBusy accepted).Inv := by
  cases hbusy : s.status.busy with
  | true =>
    rw [writeUnlessBusy_busy hbusy]
    exact hinv.congr rfl rfl rfl hinv.busyClear
  | false =>
    rw [writeUnlessBusy_idle hbusy]
    exact haccept

theorem writeKdata_inv {s : State} (hinv : s.Inv) (data : Data) : (writeKdata s data).Inv := by
  refine writeUnlessBusy_inv hinv ?_
  by_cases hin : s.kaddr < s.nMax
  · rw [if_pos hin]
    exact hinv.of_within rfl (.writeKey _ _ (BitVec.lt_def.mp hin) _) hinv.resultInRange hinv.busyClear
  · rw [if_neg hin]
    exact hinv.congr rfl rfl rfl hinv.busyClear

theorem writeCdata_inv {s : State} (hinv : s.Inv) (data : Data) : (writeCdata s data).Inv :=
  writeUnlessBusy_inv hinv (hinv.of_within rfl (.writeCount ..) hinv.resultInRange hinv.busyClear)

theorem writeCtrl_inv {s : State} (hinv : s.Inv) (data : Data) : (writeCtrl s data).Inv := by
  cases hsrst : data.getLsbD 1 with
  | true => exact writeCtrl_srst hsrst s ▸ softReset_inv hinv
  | false =>
    rw [writeCtrl_ie hsrst]
    exact hinv.congr rfl rfl rfl hinv.busyClear

theorem acknowledge_inv {s : State} (hinv : s.Inv) (data : Data) : (s.acknowledge data).Inv := by
  refine hinv.congr rfl rfl rfl fun hbusy => ?_
  obtain ⟨hdone, herr⟩ := hinv.busyClear hbusy
  exact ⟨by simp [hdone], herr⟩

theorem hostWrite_inv {s : State} (hinv : s.Inv) (addr : RegAddr) (data : Data) :
    (hostWrite addr data s).Inv := by
  unfold hostWrite
  cases regAt addr with
  | caps | result | reserved => exact hinv
  | ctrl => exact writeCtrl_inv hinv data
  | status => exact acknowledge_inv hinv data
  | cmd => exact writeUnlessBusy_inv hinv (hinv.congr rfl rfl rfl fun _ => ⟨rfl, rfl⟩)
  | kdata => exact writeKdata_inv hinv data
  | cdata => exact writeCdata_inv hinv data
  | n | fromReg | mid | toReg | kbank | kaddr | caddr =>
    exact writeUnlessBusy_inv hinv (hinv.congr rfl rfl rfl hinv.busyClear)

theorem exec_inv {i : Instr} {s t : State} (hinv : s.Inv) (h : exec i s = .next t) : t.Inv := by
  cases hi : i.isCommand with
  | true => exact command_inv hinv hi h
  | false =>
    cases i with
    | hwr addr data =>
      cases (exec_hwr addr data s).symm.trans h
      exact hostWrite_inv hinv addr data
    | hrd addr =>
      obtain ⟨v, ka, ca, ovr, kerr, rfl⟩ := hrd_next h
      exact hinv.congr rfl rfl rfl hinv.busyClear
    | _ => cases hi

/-- Settles O7: every instruction keeps the invariant (`exec_inv`), and around it a step only uses up the turn and the
transaction, resets, or ends an illegal command. -/
theorem stepKeepsTheInvariant : Obligations.StepKeepsTheInvariant := by
  intro s t hinv h
  have hturn := takeTurn_inv hinv
  obtain ⟨-, he⟩ | ⟨-, -, he⟩ | ⟨-, -, -, he⟩ | ⟨i, -, -, -, he⟩ | ⟨-, -, he⟩ | ⟨w, rest, -, -, he⟩ :=
    step_cases s <;> rw [he] at h
  · cases h
    exact powerOnReset_inv hturn
  · cases h
    exact hturn
  · cases h
    exact finish_inv hturn .illegalCmd
  · exact exec_inv hturn h
  · cases h
    exact hturn
  · exact exec_inv (s := { s.takeTurn with queue := rest }) (hinv.congr rfl rfl rfl hinv.busyClear) h

/-- Settles O8: everything is UNWRITTEN and idle after power-on, and RESULT is 0. -/
theorem powerOnStateMeetsTheInvariant : Obligations.PowerOnStateMeetsTheInvariant :=
  ⟨fun _ => powerOn_inv, rfl, powerOn_inv (by decide)⟩

/-! ### Soft reset (R252, R253) -/

/-- Settles O10: SRST = 1 makes the write a soft reset, which keeps storage while idle (`softReset_of_idle`). -/
theorem softResetWhileIdleKeepsStorage : Obligations.SoftResetWhileIdleKeepsStorage := by
  intro s data hidle hsrst
  rw [exec_hwr_ctrl, writeCtrl_srst hsrst, softReset_of_idle hidle]
  rfl

/-- Settles O11: SRST = 1 makes the write a soft reset, which is a power-on reset while busy (`softReset_of_busy`), and
a read of KDATA or CDATA of the idle block then finds an UNWRITTEN word. -/
theorem softResetWhileBusyDiscardsTheCommand : Obligations.SoftResetWhileBusyDiscardsTheCommand := by
  intro s data hbusy hsrst
  refine ⟨s.powerOnReset, ?write, rfl, rfl, rfl, rfl, Memory.unwritten_readKey, Memory.unwritten_readCount,
    fun b a hin => ?kdata, fun d => ?cdata⟩
  case write => rw [exec_hwr_ctrl, writeCtrl_srst hsrst, softReset_of_busy hbusy]
  case kdata =>
    exact readKdata_unwritten (s := { s.powerOnReset with kbank := b, kaddr := a }) rfl hin
      (Memory.unwritten_readKey b a.toNat)
  case cdata =>
    exact exec_hrd_cdata_unwritten (s := { s.powerOnReset with caddr := d }) rfl
      (Memory.unwritten_readCount d)

/-! ### How a step goes on -/

/-- A transaction word decodes to a host transaction. -/
theorem isCommand_decodeTransaction (w : TxnWord) : (decodeTransaction w).isCommand = false := by
  unfold decodeTransaction
  split <;> rfl

/-- A step that goes on is a reset, a turn with nothing to do, the completion of the busy engine's command, or a host
transaction. -/
theorem step_next_cases {s t : State} (h : step s = .next t) :
    (s.nextTurn = .reset ∧ t = s.takeTurn.powerOnReset) ∨
    ((s.nextTurn = .host ∨ s.status.busy = false) ∧ t = s.takeTurn) ∨
    (s.nextTurn = .engine ∧ s.status.busy = true ∧
      ∃ m r code, t = State.finish { s.takeTurn with mem := m, result := r } code) ∨
    (∃ w rest, s.nextTurn = .host ∧ s.queue = w :: rest ∧
      exec (decodeTransaction w) { s.takeTurn with queue := rest } = .next t) := by
  obtain ⟨hturn, he⟩ | ⟨-, hidle, he⟩ | ⟨hturn, hbusy, -, he⟩ | ⟨i, hturn, hbusy, hi, he⟩ | ⟨hturn, -, he⟩ |
    ⟨w, rest, hturn, hqueue, he⟩ := step_cases s <;> rw [he] at h
  · cases h
    exact .inl ⟨hturn, rfl⟩
  · cases h
    exact .inr (.inl ⟨.inr hidle, rfl⟩)
  · cases h
    exact .inr (.inr (.inl ⟨hturn, hbusy, s.mem, s.result, .illegalCmd, rfl⟩))
  · exact .inr (.inr (.inl ⟨hturn, hbusy, command_next (isCommand_of_decodeCommand_ok hi) h⟩))
  · cases h
    exact .inr (.inl ⟨.inl hturn, rfl⟩)
  · exact .inr (.inr (.inr ⟨w, rest, hturn, hqueue, h⟩))

/-- BUSY rises in an instruction only at an issue, by O18. -/
theorem exec_raises_busy {i : Instr} {s t : State} (h : exec i s = .next t) (before : s.status.busy = false)
    (after : t.status.busy = true) : ∃ v, i = .hwr 0x03#8 v ∧ t = s.issue v := by
  obtain ⟨hissue, -⟩ := statusBitsChangeOnlyAtTheirEvents i s t h
  obtain ⟨v, rfl⟩ := hissue before after
  rw [exec_hwr_cmd, writeUnlessBusy_idle before] at h
  cases h
  exact ⟨v, rfl, rfl⟩

/-- While the block stays busy, a host transaction leaves the latch, by O20. -/
theorem lastCmd_of_busy {i : Instr} {s t : State} (hi : i.isCommand = false) (h : exec i s = .next t)
    (before : s.status.busy = true) (after : t.status.busy = true) : t.lastCmd = s.lastCmd := by
  obtain ⟨-, -, -, -, -, -, -, -, -, -, -, -, -, -, -, -, hframe⟩ := accessesAcceptedWhileBusy s before
  obtain ⟨-, hlatch, -⟩ := hframe i t hi h after
  exact hlatch

/-- Settles O31: of the four ways a step goes on (`step_next_cases`) only the completion raises DONE, and only a host
write to CMD raises BUSY. -/
theorem doneRisesOnlyAtCompletion : Obligations.DoneRisesOnlyAtCompletion := by
  intro s t h
  obtain ⟨-, rfl⟩ | ⟨-, rfl⟩ | ⟨hturn, hbusy, m, r, code, rfl⟩ | ⟨w, rest, hturn, hqueue, hexec⟩ :=
    step_next_cases h
  · simp [Status.zero]
  · simp +contextual
  · simp [hturn, hbusy]
  · have hi := isCommand_decodeTransaction w
    have hlatch := lastCmd_of_busy hi hexec
    refine ⟨fun before after => ?_, fun before after => ?_, hlatch⟩
    · obtain ⟨-, -, hcomplete, -⟩ := statusBitsChangeOnlyAtTheirEvents _ _ _ hexec
      cases hi.symm.trans (hcomplete before after)
    · obtain ⟨v, hv, rfl⟩ := exec_raises_busy hexec before after
      exact ⟨hturn, rfl, v, w, rest, hqueue, hv, rfl⟩

/-! ### Where an instruction and a step stop -/

/-- An outcome that goes on, or stops at a word that is UNWRITTEN in the storage given. -/
def StopsOnlyAtUnwritten (m : Memory) (o : Host.Outcome State Fault Refusal) : Prop :=
  (∃ t, o = .next t) ∨
  (∃ b i, m.readKey b i = none ∧ o = .fault (.unwrittenKey b i)) ∨
  ∃ d, m.readCount d = none ∧ o = .fault (.unwrittenCount d)

theorem command_stopsOnlyAtUnwritten {i : Instr} (hi : i.isCommand = true) (s : State) :
    StopsOnlyAtUnwritten s.mem (exec i s) := by
  rw [exec_command hi]
  cases hchecks : commandChecks i s with
  | some code => exact .inl ⟨_, rfl⟩
  | none =>
    obtain ⟨m, r, hbody, -⟩ | ⟨_, _, _, m, _, _, _, -, -, -, hbody, -⟩ | ⟨b, j, hnone, hbody⟩ |
      ⟨d, hnone, hbody⟩ := commandBody_cases hchecks <;> rw [hbody]
    · exact .inl ⟨_, rfl⟩
    · exact .inl ⟨_, rfl⟩
    · exact .inr (.inl ⟨b, j, hnone, rfl⟩)
    · exact .inr (.inr ⟨d, hnone, rfl⟩)

theorem exec_stopsOnlyAtUnwritten (i : Instr) (s : State) : StopsOnlyAtUnwritten s.mem (exec i s) := by
  obtain ⟨hwrites, hreads⟩ := hostTransactionsComplete
  cases hi : i.isCommand with
  | true => exact command_stopsOnlyAtUnwritten hi s
  | false =>
    cases i with
    | hwr addr data => exact .inl (hwrites addr data s)
    | hrd addr =>
      obtain hnext | ⟨-, -, -, hnone, hfault⟩ | ⟨-, -, hnone, hfault⟩ := hreads addr s
      · exact .inl hnext
      · exact .inr (.inl ⟨_, _, hnone, hfault⟩)
      · exact .inr (.inr ⟨_, hnone, hfault⟩)
    | _ => cases hi

theorem step_stopsOnlyAtUnwritten (s : State) : StopsOnlyAtUnwritten s.mem (step s) := by
  obtain ⟨-, he⟩ | ⟨-, -, he⟩ | ⟨-, -, -, he⟩ | ⟨i, -, -, -, he⟩ | ⟨-, -, he⟩ | ⟨w, rest, -, -, he⟩ :=
    step_cases s <;> rw [he]
  · exact .inl ⟨_, rfl⟩
  · exact .inl ⟨_, rfl⟩
  · exact .inl ⟨_, rfl⟩
  · exact exec_stopsOnlyAtUnwritten i s.takeTurn
  · exact .inl ⟨_, rfl⟩
  · exact exec_stopsOnlyAtUnwritten _ { s.takeTurn with queue := rest }

/-- Settles O59: a step goes on or stops at an UNWRITTEN word (`step_stopsOnlyAtUnwritten`). -/
theorem stepsStopOnlyAtUnwrittenWords : Obligations.StepsStopOnlyAtUnwrittenWords := by
  intro s
  obtain ⟨t, he⟩ | ⟨b, i, hnone, he⟩ | ⟨d, hnone, he⟩ := step_stopsOnlyAtUnwritten s <;> rw [he]
  · exact ⟨nofun, nofun, nofun⟩
  · refine ⟨fun b' i' h => ?_, nofun, nofun⟩
    cases h
    exact hnone
  · refine ⟨nofun, fun d' h => ?_, nofun⟩
    cases h
    exact hnone

/-- The busy engine's turn, if it goes on, ends the command. -/
theorem step_completes {s t : State} (hbusy : s.status.busy = true) (hturn : s.nextTurn = .engine)
    (h : step s = .next t) : t.status.busy = false ∧ t.status.done = true := by
  obtain ⟨hreset, -⟩ | ⟨hhost | hidle, -⟩ | ⟨-, -, m, r, code, rfl⟩ | ⟨w, rest, hhost, -⟩ := step_next_cases h
  · cases hturn.symm.trans hreset
  · cases hturn.symm.trans hhost
  · cases hbusy.symm.trans hidle
  · exact ⟨rfl, rfl⟩
  · cases hturn.symm.trans hhost

/-- Settles O60: the engine's turn goes on or stops at an UNWRITTEN word, and if it goes on, it ends the command
(`step_completes`). -/
theorem busyEngineCompletesOnItsTurn : Obligations.BusyEngineCompletesOnItsTurn := by
  refine ⟨fun s hbusy hturns => by simp [State.nextTurn, hturns, hbusy], fun s hbusy hturn => ?_⟩
  exact (step_stopsOnlyAtUnwritten s).imp_left fun ⟨t, h⟩ => ⟨t, h, step_completes hbusy hturn h⟩

/-! ### A step and its instruction (R75, R121) -/

theorem step_of_engine {s : State} (h : s.nextTurn = .engine) : step s = engineStep s.takeTurn := by
  rw [step, h]
  rfl

theorem step_of_host {s : State} (h : s.nextTurn = .host) : step s = hostStep s.takeTurn := by
  rw [step, h]
  rfl

theorem engineStep_command {s : State} {i : Instr} (hbusy : s.status.busy = true)
    (hi : decodeCommand s.lastCmd = .ok i) : engineStep s = exec i s := by
  rw [engineStep, if_pos hbusy, hi]

theorem engineStep_idle {s : State} (hidle : s.status.busy = false) : engineStep s = .next s := by
  simp [engineStep, hidle]

theorem hostStep_transaction {s : State} {w : TxnWord} {rest : List TxnWord} (hqueue : s.queue = w :: rest) :
    hostStep s = exec (decodeTransaction w) { s with queue := rest } := by
  rw [hostStep, hqueue]

theorem hostStep_nothing {s : State} (hqueue : s.queue = []) : hostStep s = .next s := by
  rw [hostStep, hqueue]

/-- A table word of up to 64 bits is a value of CMD. -/
theorem decodeCommand_of_decodeTableWord {nbits w : Nat} {i : Instr} (hbits : nbits ≤ 64)
    (h : decodeTableWord nbits w = some i) : decodeCommand (BitVec.ofNat 64 w) = .ok i := by
  rw [decodeTableWord, if_pos hbits, Option.ite_none_right_eq_some] at h
  obtain ⟨-, h⟩ := h
  cases hdecode : decodeCommand (BitVec.ofNat 64 w) <;> rw [hdecode] at h <;> cases h
  rfl

/-- A longer one is a transaction. -/
theorem decodeTransaction_of_decodeTableWord {nbits w : Nat} {i : Instr} (hbits : 64 < nbits)
    (h : decodeTableWord nbits w = some i) : decodeTransaction (BitVec.ofNat 73 w) = i := by
  rw [decodeTableWord, if_neg hbits.not_ge, Option.ite_none_right_eq_some] at h
  obtain ⟨-, h⟩ := h
  exact Option.some.inj h

theorem step_withIssued {s : State} {v : Data} {i : Instr} (hi : decodeCommand v = .ok i) :
    step (s.withIssued v) = exec i (s.issue v) :=
  (step_of_engine rfl).trans (engineStep_command (s := (s.withIssued v).takeTurn) rfl hi)

theorem step_withTransaction (s : State) (w : TxnWord) :
    step (s.withTransaction w) = exec (decodeTransaction w) s :=
  (step_of_host rfl).trans (hostStep_transaction (s := (s.withTransaction w).takeTurn) rfl)

/-- Settles O6: each clause is one case of the engine's or the host's turn. -/
theorem stepRunsTheDecodedInstruction : Obligations.StepRunsTheDecodedInstruction := by
  refine ⟨fun s i hturn hbusy hi => ?_, fun s hturn hidle => ?_, fun s w rest hturn hqueue => ?_,
    fun s hturn hqueue => ?_, fun s nbits w i h hbits => ?_, fun s nbits w i h hbits => ?_⟩
  · exact (step_of_engine hturn).trans (engineStep_command (s := s.takeTurn) hbusy hi)
  · exact (step_of_engine hturn).trans (engineStep_idle (s := s.takeTurn) hidle)
  · exact (step_of_host hturn).trans (hostStep_transaction (s := s.takeTurn) hqueue)
  · exact (step_of_host hturn).trans (hostStep_nothing (s := s.takeTurn) hqueue)
  · rw [State.withFetchWord, if_pos hbits, step_withIssued (decodeCommand_of_decodeTableWord hbits h)]
  · rw [State.withFetchWord, if_neg hbits.not_ge, step_withTransaction,
      decodeTransaction_of_decodeTableWord hbits h]

/-! ### The word STATUS reads as (R29) -/

theorem Status.word_flags (st : Status) (ie : Bool) :
    (st.word ie).getLsbD 0 = st.busy ∧ (st.word ie).getLsbD 1 = st.done ∧ (st.word ie).getLsbD 2 = st.ovr ∧
      (st.word ie).getLsbD 3 = st.kerr := by
  simp only [Status.word, zext, BitVec.getLsbD_setWidth, BitVec.getLsbD_append]
  simp

theorem Status.word_err (st : Status) (ie : Bool) : (st.word ie).extractLsb' 8 4 = st.err.toBits := by
  rw [Status.word, zext, BitVec.extractLsb'_setWidth_of_le (by decide)]
  simp (disch := decide) only [BitVec.extractLsb'_append_eq_of_le]
  exact BitVec.extractLsb'_eq_self

/-- The reserved bits 7..5 and 63..12 read 0. -/
theorem Status.word_reserved (st : Status) (ie : Bool) :
    (st.word ie).extractLsb' 5 3 = 0#3 ∧ (st.word ie).extractLsb' 12 52 = 0#52 := by
  constructor
  · rw [Status.word, zext, BitVec.extractLsb'_setWidth_of_le (by decide)]
    simp (disch := decide) only [BitVec.extractLsb'_append_eq_of_le]
    exact BitVec.extractLsb'_append_eq_right
  · obtain ⟨v, hv⟩ := st.word_eq_setWidth ie
    ext i hi
    simp [hv]

/-- Settles O17: a read returns `Status.word`, field by field, and a write is `State.acknowledge`. -/
theorem statusFieldsAndWrite : Obligations.StatusFieldsAndWrite := by
  refine ⟨fun s => ?read, fun s data => ?write⟩
  case read =>
    obtain ⟨hbusy, hdone, hovr, hkerr⟩ := s.status.word_flags s.ie
    obtain ⟨hlow, hhigh⟩ := s.status.word_reserved s.ie
    have herr := s.status.word_err s.ie
    exact ⟨s.status.word s.ie, rfl, hbusy, hdone, hovr, hkerr, s.status.word_bit_irq s.ie, hlow, herr, hhigh,
      herr ▸ s.status.err.toBits_le⟩
  case write => simp only [exec_hwr_status, State.acknowledge, Status.acknowledged, and_not_eq_ite]

/-! ### OFFS as the loop of its pseudocode (R146) -/

/-- The sum of the entries below `d`, modulo 2^32. -/
def sumBelow (m : Memory) (d : Nat) : Idx := ((m.count.toList.take d).map (·.getD 0#32)).sum

theorem sumBelow_succ {m : Memory} {d : Nat} {v : Idx} (hd : d < 256)
    (hv : m.readCount (BitVec.ofNat 8 d) = some v) : sumBelow m (d + 1) = sumBelow m d + v := by
  have hlt : d < m.count.toList.length := by simpa using hd
  have hget : m.count.toList[d] = some v := by simpa [Memory.readCount, Nat.mod_eq_of_lt hd] using hv
  rw [sumBelow, List.take_succ_eq_append_getElem hlt, List.map_append, List.sum_append, hget]
  simp [sumBelow]

/-- The storage and the running sum after `d` iterations of the loop: the entries below `d` are done, and nothing
else has changed. -/
structure OffsProgress (m : Memory) (d : Nat) (w : Memory × Idx) : Prop where
  banks : ∀ b, w.1.bank b = m.bank b
  counts : ∀ e, w.1.readCount e = if e.toNat < d then some (sumBelow m e.toNat) else m.readCount e
  sum : w.2 = sumBelow m d

theorem offsProgress_start (m : Memory) : OffsProgress m 0 (m, 0#32) where
  banks _ := rfl
  counts _ := rfl
  sum := rfl

theorem toNat_ofNat_digit {d : Nat} (hd : d < 256) : (BitVec.ofNat 8 d).toNat = d := by
  rw [BitVec.toNat_ofNat, Nat.mod_eq_of_lt hd]

/-- The entry the next iteration reads is still the one the loop started with. -/
theorem OffsProgress.entry {m : Memory} {d : Nat} {w : Memory × Idx} (hd : d < 256) (h : OffsProgress m d w) :
    w.1.readCount (BitVec.ofNat 8 d) = m.readCount (BitVec.ofNat 8 d) := by
  rw [h.counts, if_neg (by rw [toNat_ofNat_digit hd]; omega)]

theorem OffsProgress.next {m : Memory} {d : Nat} {w : Memory × Idx} {v : Idx} (hd : d < 256)
    (h : OffsProgress m d w) (hv : m.readCount (BitVec.ofNat 8 d) = some v) :
    ∃ w', offsIteration d w = .ok w' ∧ OffsProgress m (d + 1) w' := by
  refine ⟨_, withCount_some ((h.entry hd).trans hv) _, ?_, fun e => ?_, ?_⟩
  · exact fun b => (Memory.bank_writeCount ..).trans (h.banks b)
  · have hiff : BitVec.ofNat 8 d = e ↔ e.toNat = d := by
      rw [← BitVec.toNat_inj, toNat_ofNat_digit hd, eq_comm]
    rw [Memory.readCount_writeCount, h.counts, h.sum]
    obtain hlt | rfl | hlt := Nat.lt_trichotomy e.toNat d
    · rw [if_neg (hiff.not.mpr (by omega)), if_pos hlt, if_pos (by omega)]
    · rw [if_pos (hiff.mpr rfl), if_pos (by omega)]
    · rw [if_neg (hiff.not.mpr (by omega)), if_neg (by omega), if_neg (by omega)]
  · rw [h.sum, sumBelow_succ hd hv]

/-- Iterations over written entries go on. -/
theorem offsLoop_ok {m : Memory} {count : Nat} (hcount : count ≤ 256)
    (written : ∀ e : Digit, e.toNat < count → m.readCount e ≠ none) :
    ∃ w, loopFrom offsIteration count 0 (m, 0#32) = .ok w ∧ OffsProgress m count w := by
  obtain ⟨w, hloop, hprogress⟩ := loopFrom_ok (body := offsIteration) (P := OffsProgress m) (count := count)
    (offsProgress_start m) fun d w _ hd hprogress => by
      obtain ⟨v, hv⟩ := Option.ne_none_iff_exists'.mp
        (written (BitVec.ofNat 8 d) (by rw [toNat_ofNat_digit (by omega)]; omega))
      exact hprogress.next (by omega) hv
  exact ⟨w, hloop, by rwa [Nat.zero_add] at hprogress⟩

/-- Settles O38: over a written table the loop comes to the sums the walk gives (`offsLoop_ok`), and otherwise both stop
at the first UNWRITTEN entry. -/
theorem offsRefinesItsPseudocodeLoop : Obligations.OffsRefinesItsPseudocodeLoop := by
  intro m
  obtain ⟨hbody, written⟩ | ⟨d, hnone, below, hbody⟩ := offsBody_cases m
  · obtain ⟨w, hloop, hprogress⟩ := offsLoop_ok le_rfl fun e _ => written e
    have hmem : { m with count := sumsOfTable m.count } = w.1 := by
      refine Memory.ext_banks (fun b => ?_) (Memory.count_ext fun e => ?_)
      · rw [hprogress.banks, bank_with_count]
      · rw [hprogress.counts, if_pos e.isLt, sumsOfTable_readCount, sumBelow]
    rw [hbody, hloop, hmem, Run.andThen_ok]
  · obtain ⟨w, hloop, hprogress⟩ := offsLoop_ok (m := m) (count := d.toNat) d.isLt.le fun e he => below e he
    have hstep : offsIteration d.toNat w = .fault (.unwrittenCount d) := by
      have hentry := hprogress.entry d.isLt
      rw [BitVec.ofNat_toNat, BitVec.setWidth_eq] at hentry
      rw [offsIteration, BitVec.ofNat_toNat, BitVec.setWidth_eq]
      exact withCount_none (hentry.trans hnone) _
    rw [hbody, loopFrom_fault hloop d.isLt hstep, Run.andThen_fault]

/-! ### The order of SORTF as a float order (R12, R14, R206) -/

/-- The exponent and mantissa fields of a key, as one number. -/
def floatPattern (key : Key) : Nat := key.toNat % 2 ^ 63

theorem exponent_eq (key : Key) : (key.extractLsb' 52 11).toNat = floatPattern key / 2 ^ 52 := by
  rw [BitVec.extractLsb'_toNat, Nat.shiftRight_eq_div_pow, floatPattern]
  omega

theorem mantissa_eq (key : Key) : (key.extractLsb' 0 52).toNat = floatPattern key % 2 ^ 52 := by
  rw [BitVec.extractLsb'_toNat, Nat.shiftRight_zero, floatPattern]
  omega

/-- The absolute value of a pattern, in units of 2^-1074. -/
def patternMagnitude (p : Nat) : Nat :=
  if p / 2 ^ 52 = 0 then p % 2 ^ 52 else (2 ^ 52 + p % 2 ^ 52) * 2 ^ (p / 2 ^ 52 - 1)

theorem floatMagnitude_eq (key : Key) : floatMagnitude key = patternMagnitude (floatPattern key) := by
  rw [floatMagnitude, exponent_eq, mantissa_eq, patternMagnitude]

/-- Counting a pattern up never makes its absolute value smaller. -/
theorem patternMagnitude_mono : Monotone patternMagnitude := by
  refine monotone_nat_of_le_succ fun p => ?_
  unfold patternMagnitude
  by_cases hcarry : p % 2 ^ 52 + 1 < 2 ^ 52
  · -- the mantissa counts up
    have hexp : (p + 1) / 2 ^ 52 = p / 2 ^ 52 := by omega
    have hman : (p + 1) % 2 ^ 52 = p % 2 ^ 52 + 1 := by omega
    rw [hexp, hman]
    split
    · omega
    · exact Nat.mul_le_mul_right _ (by omega)
  · -- the mantissa carries into the exponent
    have hexp : (p + 1) / 2 ^ 52 = p / 2 ^ 52 + 1 := by omega
    have hman : (p + 1) % 2 ^ 52 = 0 := by omega
    rw [hexp, hman, if_neg (Nat.succ_ne_zero _), Nat.add_zero, Nat.add_sub_cancel]
    by_cases hzero : p / 2 ^ 52 = 0
    · rw [if_pos hzero, hzero, pow_zero]
      omega
    · rw [if_neg hzero]
      calc (2 ^ 52 + p % 2 ^ 52) * 2 ^ (p / 2 ^ 52 - 1) ≤ (2 ^ 52 * 2) * 2 ^ (p / 2 ^ 52 - 1) :=
            Nat.mul_le_mul_right _ (by omega)
        _ = 2 ^ 52 * 2 ^ (p / 2 ^ 52) := by rw [Nat.mul_assoc, mul_pow_sub_one hzero]

/-- The NaNs are the patterns above that of infinity (R14). -/
theorem isNaN_iff (key : Key) : isNaN key = true ↔ 2047 * 2 ^ 52 < floatPattern key := by
  have hlt : floatPattern key < 2 ^ 63 := Nat.mod_lt _ (by decide)
  rw [isNaN, Bool.and_eq_true, beq_iff_eq, bne_iff_ne, ← BitVec.toNat_inj, ne_eq, ← BitVec.toNat_inj,
    exponent_eq, mantissa_eq]
  simp only [BitVec.toNat_ofNat]
  omega

theorem floatRank_eq_ite (key : Key) :
    floatRank key = if top key then -1 - (floatPattern key : Int) else floatPattern key := by
  have hlt := key.isLt
  simp only [floatRank, floatPattern, top_iff]
  split <;> omega

/-- A key of lower or equal rank has a lower or equal value. -/
theorem floatValue_le_of_rank_le {x y : Key} (h : floatRank x ≤ floatRank y) : floatValue x ≤ floatValue y := by
  rw [floatRank_eq_ite, floatRank_eq_ite] at h
  simp only [floatValue, floatMagnitude_eq]
  cases hx : top x <;> cases hy : top y <;> simp only [hx, hy, Bool.false_eq_true, if_true, if_false] at h ⊢
  · -- both signs 0: the values rise with the patterns
    have hmag := patternMagnitude_mono (show floatPattern x ≤ floatPattern y by omega)
    omega
  · -- sign 0 before sign 1 is no rising rank
    omega
  · -- sign 1 before sign 0
    omega
  · -- both signs 1: the values fall as the patterns rise
    have hmag := patternMagnitude_mono (show floatPattern y ≤ floatPattern x by omega)
    omega

/-- The negative NaNs are the keys below the rank of minus infinity. -/
theorem negativeNaN_iff (key : Key) :
    (isNaN key = true ∧ top key = true) ↔ floatRank key < -1 - 2047 * 2 ^ 52 := by
  rw [isNaN_iff, floatRank_eq_ite]
  cases top key with
  | true => simp only [if_true, and_true]; omega
  | false => simp only [Bool.false_eq_true, if_false, and_false, false_iff]; omega

/-- The positive NaNs are the keys above the rank of infinity. -/
theorem positiveNaN_iff (key : Key) :
    (isNaN key = true ∧ top key = false) ↔ 2047 * 2 ^ 52 < floatRank key := by
  rw [isNaN_iff, floatRank_eq_ite]
  cases top key with
  | true => simp only [if_true, Bool.true_eq_false, and_false, false_iff]; omega
  | false => simp only [Bool.false_eq_true, if_false, and_true]; omega

/-- Settles O56: the keys ascend in `floatRank` (`floatRank_ascending_of_exec_sortf`), which orders values as binary64
does and has the NaNs at its two ends. -/
theorem sortfFollowsFloatValueAndNanSign : Obligations.SortfFollowsFloatValueAndNanSign := by
  intro s t after hexec herr hlen hold i j hi hj hij
  have hle := rank_mono (floatRank_ascending_of_exec_sortf hexec herr hlen hold) hij.le hj
  refine ⟨fun _ _ => floatValue_le_of_rank_le hle, fun hnan hsign => ?_, fun hnan hsign => ?_⟩
  · exact (negativeNaN_iff _).mpr (hle.trans_lt ((negativeNaN_iff _).mp ⟨hnan, hsign⟩))
  · exact (positiveNaN_iff _).mpr (((positiveNaN_iff _).mp ⟨hnan, hsign⟩).trans_le hle)

end Sys2Proof.Machine
end
